-- ==== Sys2Proof/Word.lean ====
section
/-! DEFINITION. The two widths of FCC (R10): the byte and the 16-bit field. Every value is unsigned. -/

namespace Sys2Proof

/-- A byte: 8 bits, value 0..255 (R10). -/
abbrev Byte := BitVec 8

/-- A 16-bit value, `u16` of R10. -/
abbrev Word := BitVec 16

end Sys2Proof
end

