-- ==== Sys2Proof/Config.lean ====
section
/-! DEFINITION. The parameters the source leaves open (R8, R95) as plain data, the free values behind those with
no default, and the configuration of the machine after reset. -/

namespace Sys2Proof

/-- The nineteen device commands of R95, `BEEP` first (the one whose code the source gives). -/
inductive DeviceCmd where
  | beep | setBaud | readBaud | setNode | readNode | readFw | setLed | request | anticoll | select | ulSelect
  | halt | auth2 | readBlock | writeBlock | initBal | readBal | incBal | decBal
deriving DecidableEq, Repr

/-- All of them, each once. -/
def DeviceCmd.all : List DeviceCmd :=
  [.beep, .setBaud, .readBaud, .setNode, .readNode, .readFw, .setLed, .request, .anticoll, .select, .ulSelect,
   .halt, .auth2, .readBlock, .writeBlock, .initBal, .readBal, .incBal, .decBal]

/-- The codes of the eighteen commands the source gives no code for, the parameters `CMD_<name>` (R8, R95). -/
structure CmdCodes where
  setBaud : Word
  readBaud : Word
  setNode : Word
  readNode : Word
  readFw : Word
  setLed : Word
  request : Word
  anticoll : Word
  select : Word
  ulSelect : Word
  halt : Word
  auth2 : Word
  readBlock : Word
  writeBlock : Word
  initBal : Word
  readBal : Word
  incBal : Word
  decBal : Word
deriving DecidableEq, Repr

/-- The variants a card type identifies (R200). -/
inductive CardVariant where
  | ultralight
  | oneK
  | fourK
  | desfire
  | pro
deriving DecidableEq, Repr

/-- The card type codes, the parameters `TYPE_ULTRALIGHT` and its fellows (R8, R200, D27). -/
structure CardTypes where
  ultralight : Word
  oneK : Word
  fourK : Word
  desfire : Word
  pro : Word
deriving DecidableEq, Repr

/-- The parameters of R8, and the choices 43_host_session.md leaves to a host model. Fixed for a machine: no step
writes them. They stand in State so that a statement about every state holds for every value of them (log 10). -/
structure Config where
  /-- `PAYLOAD_MAX` (R8, D4). -/
  payloadMax : Nat
  /-- `RX_BUF_MAX` (R8, D5). -/
  rxBufMax : Nat
  /-- `LINE_DEPTH` (R8, D16): `none` is unbounded, the spec's default. -/
  lineDepth : Option Nat
  /-- `CMD_<name>` (R8, R95, D19). -/
  codes : CmdCodes
  /-- `TYPE_ULTRALIGHT` and the other card type codes (R8, R200, D27). -/
  cardTypes : CardTypes
  /-- Which byte of the REQUEST data is the low byte of `card_type`: the first (true) or the second (D27, N9). -/
  cardTypeLowFirst : Bool
  /-- Whether a nonzero status in the third step of `select` ends it with an error (N11: the source says neither). -/
  thirdStepRaises : Bool
  /-- Whether `findKeys` takes an FCC error in one try as one more failed attempt (R230 and R232 leave it open). -/
  findKeysGoesOn : Bool
  /-- The blocks `dump` reads of each sector (R222, N15). -/
  dumpBlocks : List Nat
deriving DecidableEq, Repr

namespace Config

/-- The code of a command: `0x0106` for BEEP, a parameter for every other (R95). -/
def code (c : Config) : DeviceCmd → Word
  | .beep => 0x0106
  | .setBaud => c.codes.setBaud
  | .readBaud => c.codes.readBaud
  | .setNode => c.codes.setNode
  | .readNode => c.codes.readNode
  | .readFw => c.codes.readFw
  | .setLed => c.codes.setLed
  | .request => c.codes.request
  | .anticoll => c.codes.anticoll
  | .select => c.codes.select
  | .ulSelect => c.codes.ulSelect
  | .halt => c.codes.halt
  | .auth2 => c.codes.auth2
  | .readBlock => c.codes.readBlock
  | .writeBlock => c.codes.writeBlock
  | .initBal => c.codes.initBal
  | .readBal => c.codes.readBal
  | .incBal => c.codes.incBal
  | .decBal => c.codes.decBal

/-- The type code of a card variant (R8, R200). -/
def typeCode (c : Config) : CardVariant → Word
  | .ultralight => c.cardTypes.ultralight
  | .oneK => c.cardTypes.oneK
  | .fourK => c.cardTypes.fourK
  | .desfire => c.cardTypes.desfire
  | .pro => c.cardTypes.pro

/-- The constraints R8 puts on the parameters: `PAYLOAD_MAX <= 65530`, `6 <= RX_BUF_MAX <= 65535`, the command
codes pairwise distinct and distinct from `0x0106`. -/
abbrev wf (c : Config) : Prop :=
  c.payloadMax ≤ 65530 ∧ 6 ≤ c.rxBufMax ∧ c.rxBufMax ≤ 65535 ∧ (DeviceCmd.all.map c.code).Nodup

/-- FREE VALUE (log 9): the code an unknown device has for a command. -/
opaque openCode : DeviceCmd → Word

/-- FREE VALUE (log 14): the code of a card type (N9). -/
opaque openCardType : CardVariant → Word

/-- FREE VALUE (log 14): the byte order of `card_type` in the REQUEST data (N9). -/
opaque openCardTypeLowFirst : Bool

/-- FREE VALUE (log 15): whether the third step of `select` raises an error on a nonzero status (N11). -/
opaque openThirdStepRaises : Bool

/-- FREE VALUE (log 16): whether `findKeys` goes on after an FCC error in one try (R230, R232). -/
opaque openFindKeysGoesOn : Bool

/-- FREE VALUE (log 14): the card type HOST takes from REQUEST data of fewer than two bytes, of which the source
says nothing; it depends on the data. -/
opaque freeCardType : List Byte → Word

/-- The first code from `start` on that is not used, within `fuel` tries. -/
def pickCode (used : List Word) : Word → Nat → Word
  | start, 0 => start
  | start, fuel + 1 => if start ∈ used then pickCode used (start + 1) fuel else start

/-- Codes for the commands in turn, each the first unused one from `f` of it on: pairwise distinct whatever `f` is,
and `f` itself wherever `f` is (R8). -/
def pickCodes (f : DeviceCmd → Word) : List DeviceCmd → List Word → List Word
  | [], used => used
  | d :: ds, used => pickCodes f ds (used ++ [pickCode used (f d) 32])

/-- The codes of the machine after reset, after `0x0106`, in the order of `DeviceCmd.all`. -/
def openCodes : List Word := pickCodes openCode DeviceCmd.all.tail [0x0106]

/-- The configuration after reset: the defaults of R8 where it has one, free values where it says OPEN. -/
def reset : Config where
  payloadMax := 65530
  rxBufMax := 65535
  lineDepth := none
  codes :=
    { setBaud := openCodes.getD 1 0, readBaud := openCodes.getD 2 0, setNode := openCodes.getD 3 0,
      readNode := openCodes.getD 4 0, readFw := openCodes.getD 5 0, setLed := openCodes.getD 6 0,
      request := openCodes.getD 7 0, anticoll := openCodes.getD 8 0, select := openCodes.getD 9 0,
      ulSelect := openCodes.getD 10 0, halt := openCodes.getD 11 0, auth2 := openCodes.getD 12 0,
      readBlock := openCodes.getD 13 0, writeBlock := openCodes.getD 14 0, initBal := openCodes.getD 15 0,
      readBal := openCodes.getD 16 0, incBal := openCodes.getD 17 0, decBal := openCodes.getD 18 0 }
  cardTypes :=
    { ultralight := openCardType .ultralight, oneK := openCardType .oneK, fourK := openCardType .fourK,
      desfire := openCardType .desfire, pro := openCardType .pro }
  cardTypeLowFirst := openCardTypeLowFirst
  thirdStepRaises := openThirdStepRaises
  findKeysGoesOn := openFindKeysGoesOn
  dumpBlocks := [0, 1, 2, 3]

end Config
end Sys2Proof
end

