-- ==== Sys2Proof/Machine/Codec.lean ====
section
/-! DEFINITION. The codec as functions over byte sequences, the source's own level (R9): fields, stuffing, checksum,
the two frame formats, ENCODE (R110) and DECODE (R140). -/

namespace Sys2Proof.Machine

/-- `HDR0`, first header byte (R7). -/
abbrev hdr0 : Byte := 0xAA
/-- `HDR1`, second header byte (R7). -/
abbrev hdr1 : Byte := 0xBB
/-- `ESC`, the byte that is stuffed inside the escaped region (R7). -/
abbrev escByte : Byte := 0xAA
/-- `STUFF`, the byte that follows every `ESC` there (R7). -/
abbrev stuffByte : Byte := 0x00
/-- One of the two bytes of `RESERVED` (R7, R87). -/
abbrev reservedByte : Byte := 0xFF
/-- `STATUS_OK` (R7). -/
abbrev statusOk : Byte := 0x00

/-- `lo8(v) = v[7:0]` (R12). -/
def lo8 (v : Word) : Byte := v.extractLsb' 0 8

/-- `hi8(v) = v[15:8]` (R12). -/
def hi8 (v : Word) : Byte := v.extractLsb' 8 8

/-- `le16(b0, b1)`: the value of a field whose first wire byte is `b0` (R85). -/
def le16 (b0 b1 : Byte) : Word := b0.setWidth 16 + 256#16 * b1.setWidth 16

/-- `xor8`, the XOR-fold of a byte sequence (R90). -/
def xor8 (s : List Byte) : Byte := s.foldl (fun acc b => acc ^^^ b) 0x00

/-- Byte stuffing (R88). -/
def stuff : List Byte → List Byte
  | [] => []
  | b :: t => if b = escByte then escByte :: stuffByte :: stuff t else b :: stuff t

/-- The logical body of an outbound frame: reserved, command, payload (R111). -/
def body (command : Word) (payload : List Byte) : List Byte :=
  [reservedByte, reservedByte, lo8 command, hi8 command] ++ payload

/-- The checksum: the XOR-fold of the stuffed body (R112). -/
def checksum (command : Word) (payload : List Byte) : Byte := xor8 (stuff (body command payload))

/-- The length field of an outbound frame, `5 + L` (R84, R113). -/
def lengthField (payload : List Byte) : Word := BitVec.ofNat 16 (5 + payload.length)

/-- ENCODE as a function (R110, R113): the bytes of FRAME_OUT on the wire. -/
def wire (command : Word) (payload : List Byte) : List Byte :=
  [hdr0, hdr1, lo8 (lengthField payload), hi8 (lengthField payload)]
    ++ stuff (body command payload) ++ stuff [checksum command payload]

/-- The bytes of FRAME_IN on the wire (R82): noise, header, length, the stuffed logical bytes. -/
def inWire (noise logical : List Byte) : List Byte :=
  noise ++ [hdr0, hdr1, lo8 (BitVec.ofNat 16 logical.length), hi8 (BitVec.ofNat 16 logical.length)] ++ stuff logical

/-- The header hunt (R141): what is left of the stream behind the first adjacent `AA BB`; `ha` says that the byte
before was `0xAA`. `none`: the stream ends without one, and DEC is stuck in the hunt. -/
def hunt : Bool → List Byte → Option (List Byte)
  | _, [] => none
  | ha, b :: t => if ha = true ∧ b = hdr1 then some t else hunt (b == hdr0) t

/-- Body with stuffing removal (R143): `n` logical bytes and what is left of the stream; `pd` is PendingDestuff.
`none`: the stream ends first, and DEC is stuck in the body. -/
def takeBody : Nat → Bool → List Byte → Option (List Byte × List Byte)
  | 0, _, t => some ([], t)
  | _ + 1, _, [] => none
  | n + 1, pd, b :: t =>
    if pd = true ∧ b = stuffByte then takeBody (n + 1) false t
    else (takeBody n (b == escByte) t).map fun r => (b :: r.1, r.2)

/-- `destuff` of a complete sequence (R143), from the state `pd`. -/
def destuff : Bool → List Byte → List Byte
  | _, [] => []
  | pd, b :: t => if pd = true ∧ b = stuffByte then destuff false t else b :: destuff (b == escByte) t

/-- The three results of DECODE (R140); ChecksumError records the frame's command (R242). -/
inductive DecodeResult where
  | ok (command : Word) (status : Byte) (data : List Byte)
  | framing
  | checksum (command : Word)
deriving DecidableEq, Repr

/-- Steps 4 to 6 of DECODE (R144, R145, R157) on the `n` logical bytes taken. -/
def evaluate (rxBufMax : Nat) (buf : List Byte) : DecodeResult :=
  if buf.length < 6 ∨ rxBufMax < buf.length then .framing
  else if buf.getD 4 0 = statusOk ∧ xor8 (buf.take (buf.length - 1)) ≠ buf.getD (buf.length - 1) 0 then
    .checksum (le16 (buf.getD 2 0) (buf.getD 3 0))
  else .ok (le16 (buf.getD 2 0) (buf.getD 3 0)) (buf.getD 4 0) ((buf.drop 5).take (buf.length - 6))

/-- DECODE as a function over the RX stream (R140): its result and what is left of the stream; `none` where DEC is
stuck because the stream ends first (R165). -/
def decodeStream (rxBufMax : Nat) (stream : List Byte) : Option (DecodeResult × List Byte) :=
  match hunt false stream with
  | some (n0 :: n1 :: t) => (takeBody (le16 n0 n1).toNat false t).map fun r => (evaluate rxBufMax r.1, r.2)
  | _ => none

end Sys2Proof.Machine
end

