-- ==== Sys2Proof/Syntax.lean ====
section
/-! DEFINITION. The instructions: one constructor per row of spec/opcode_table.json, in the table's order. -/

namespace Sys2Proof

/-- Key A or Key B of a sector (R202). -/
inductive KeySlot where
  | A
  | B
deriving DecidableEq, Repr

/-- The place where words of an instruction are met, since the same bits mean different things on different ports
(R43, log 8): HOST's request port, the TX stream, the RX stream. -/
inductive Port where
  | req
  | tx
  | rx
deriving DecidableEq, Repr

/-- The rows of the opcode table. A command's operands are what its payload in R95 is made of; where R95 gives no
payload (N26) the operand is the payload itself (log 24). A sector is 0..15, a block 0..3, a key 6 bytes
(R201, R202): checked in WellFormed. -/
inductive Instr where
  -- operations (R110, R140, R180)
  | encode (command : Word) (payload : List Byte)
  | decode
  | xfer (command : Word) (payload : List Byte)
  -- frames, header, escape (R81, R82, R83, R88); `logical` is reserved ‖ command ‖ payload ‖ checksum
  | frameOut (command : Word) (payload : List Byte)
  | frameIn (noise : List Byte) (logical : List Byte)
  | hdr
  | esc
  -- device commands (R95, R100)
  | cmdSetBaud (payload : List Byte)
  | cmdReadBaud (payload : List Byte)
  | cmdSetNode (payload : List Byte)
  | cmdReadNode (payload : List Byte)
  | cmdReadFw (payload : List Byte)
  | cmdBeep (duration : Byte)
  | cmdSetLed (payload : List Byte)
  | cmdRequest
  | cmdAnticoll
  | cmdSelect (serial : List Byte)
  | cmdUlSelect
  | cmdHalt
  | cmdAuth2 (slot : KeySlot) (sector : Nat) (key : List Byte)
  | cmdReadBlock (sector : Nat) (block : Nat)
  | cmdWriteBlock (sector : Nat) (block : Nat) (data : List Byte)
  | cmdInitBal (sector : Nat) (block : Nat) (amount : Word)
  | cmdReadBal (sector : Nat) (block : Nat)
  | cmdIncBal (sector : Nat) (block : Nat) (amount : Word)
  | cmdDecBal (sector : Nat) (block : Nat) (amount : Word)
  -- host procedures (R210 to R230)
  | select
  | halt
  | authenticate (sector : Nat) (key : List Byte) (slot : KeySlot)
  | readBlock (block : Nat)
  | readSector (sector : Nat) (key : List Byte) (blocks : List Nat)
  | writeBlock (slot : KeySlot) (sector : Nat) (key : List Byte) (block : Nat) (data : List Byte)
  | initBalance (slot : KeySlot) (sector : Nat) (key : List Byte) (block : Nat) (amount : Word)
  | readBalance (slot : KeySlot) (sector : Nat) (key : List Byte) (block : Nat)
  | increaseBalance (slot : KeySlot) (sector : Nat) (key : List Byte) (block : Nat) (amount : Word)
  | decreaseBalance (slot : KeySlot) (sector : Nat) (key : List Byte) (block : Nat) (amount : Word)
  | dump (key : List Byte)
  | findKeys (sector : Nat) (candidates : List (List Byte))
deriving DecidableEq, Repr

end Sys2Proof
end

