-- ==== Sys2Proof/Machine/Payloads.lean ====
section
/-! DEFINITION. The request payload of each device command (R95, last column), and the way back from a command and a
payload to the instruction. -/

namespace Sys2Proof.Machine

/-- The absolute block number, one payload byte: `sector*4 + block` (R201). -/
def blockByte (sector block : Nat) : Byte := BitVec.ofNat 8 (sector * 4 + block)

/-- The key selector byte: `KEYSEL_A`, `KEYSEL_B` (R7, R202). -/
def keySelector : KeySlot → Byte
  | .A => 0x60
  | .B => 0x61

/-- `AUTH2`: selector, `sector*4`, key (R95, R212). -/
def auth2Payload (slot : KeySlot) (sector : Nat) (key : List Byte) : List Byte :=
  keySelector slot :: blockByte sector 0 :: key

/-- `WRITE_BLOCK`: block number, data (R95, R215). -/
def writePayload (sector block : Nat) (data : List Byte) : List Byte := blockByte sector block :: data

/-- `INIT_BAL`, `INC_BAL`, `DEC_BAL`: block number, amount little-endian (R95, R221). -/
def amountPayload (sector block : Nat) (amount : Word) : List Byte :=
  [blockByte sector block, lo8 amount, hi8 amount]

/-- The device command and the payload an instruction of a command row stands for (R95, R100); `none` for the rows
that are no command. -/
def commandOf : Instr → Option (DeviceCmd × List Byte)
  | .cmdSetBaud p => some (.setBaud, p)
  | .cmdReadBaud p => some (.readBaud, p)
  | .cmdSetNode p => some (.setNode, p)
  | .cmdReadNode p => some (.readNode, p)
  | .cmdReadFw p => some (.readFw, p)
  | .cmdBeep d => some (.beep, [d])
  | .cmdSetLed p => some (.setLed, p)
  | .cmdRequest => some (.request, [0x52])
  | .cmdAnticoll => some (.anticoll, [0x04])
  | .cmdSelect serial => some (.select, serial)
  | .cmdUlSelect => some (.ulSelect, [])
  | .cmdHalt => some (.halt, [])
  | .cmdAuth2 slot sector key => some (.auth2, auth2Payload slot sector key)
  | .cmdReadBlock sector block => some (.readBlock, [blockByte sector block])
  | .cmdWriteBlock sector block data => some (.writeBlock, writePayload sector block data)
  | .cmdInitBal sector block amount => some (.initBal, amountPayload sector block amount)
  | .cmdReadBal sector block => some (.readBal, [blockByte sector block])
  | .cmdIncBal sector block amount => some (.incBal, amountPayload sector block amount)
  | .cmdDecBal sector block amount => some (.decBal, amountPayload sector block amount)
  | .encode _ _ | .decode | .xfer _ _ | .frameOut _ _ | .frameIn _ _ | .hdr | .esc => none
  | .select | .halt | .authenticate _ _ _ | .readBlock _ | .readSector _ _ _ | .writeBlock _ _ _ _ _ => none
  | .initBalance _ _ _ _ _ | .readBalance _ _ _ _ | .increaseBalance _ _ _ _ _ | .decreaseBalance _ _ _ _ _ => none
  | .dump _ | .findKeys _ _ => none

/-- Sector and block of an absolute block number in range (R201). -/
def splitBlock (b : Byte) : Option (Nat × Nat) :=
  if b.toNat < 64 then some (b.toNat / 4, b.toNat % 4) else none

/-- The instruction of a command row whose payload has the shape R95 gives it; `none` where it has not, and the
request is then only an XFER (R95: FCC carries any command equally). -/
def ofCommand : DeviceCmd → List Byte → Option Instr
  | .setBaud, p => some (.cmdSetBaud p)
  | .readBaud, p => some (.cmdReadBaud p)
  | .setNode, p => some (.cmdSetNode p)
  | .readNode, p => some (.cmdReadNode p)
  | .readFw, p => some (.cmdReadFw p)
  | .setLed, p => some (.cmdSetLed p)
  | .beep, p => match p with
    | [d] => some (.cmdBeep d)
    | _ => none
  | .request, p => if p = [0x52] then some .cmdRequest else none
  | .anticoll, p => if p = [0x04] then some .cmdAnticoll else none
  | .select, p => if p.length = 4 ∨ p.length = 7 then some (.cmdSelect p) else none
  | .ulSelect, p => if p = [] then some .cmdUlSelect else none
  | .halt, p => if p = [] then some .cmdHalt else none
  | .auth2, p => match p with
    | sel :: b :: key =>
      if key.length = 6 ∧ b.toNat < 64 ∧ b.toNat % 4 = 0 then
        if sel = 0x60 then some (.cmdAuth2 .A (b.toNat / 4) key)
        else if sel = 0x61 then some (.cmdAuth2 .B (b.toNat / 4) key)
        else none
      else none
    | _ => none
  | .readBlock, p => match p with
    | [b] => (splitBlock b).map fun x => .cmdReadBlock x.1 x.2
    | _ => none
  | .writeBlock, p => match p with
    | b :: data => (splitBlock b).map fun x => .cmdWriteBlock x.1 x.2 data
    | _ => none
  | .initBal, p => match p with
    | [b, lo, hi] => (splitBlock b).map fun x => .cmdInitBal x.1 x.2 (le16 lo hi)
    | _ => none
  | .readBal, p => match p with
    | [b] => (splitBlock b).map fun x => .cmdReadBal x.1 x.2
    | _ => none
  | .incBal, p => match p with
    | [b, lo, hi] => (splitBlock b).map fun x => .cmdIncBal x.1 x.2 (le16 lo hi)
    | _ => none
  | .decBal, p => match p with
    | [b, lo, hi] => (splitBlock b).map fun x => .cmdDecBal x.1 x.2 (le16 lo hi)
    | _ => none

/-- How many operand bytes a command of a fixed shape has at least (R95); the opcode table gives them no bits. -/
def operandBytes : DeviceCmd → Nat
  | .beep | .request | .anticoll | .readBlock | .writeBlock | .readBal => 1
  | .initBal | .incBal | .decBal => 3
  | .auth2 => 8
  | .select => 4
  | .setBaud | .readBaud | .setNode | .readNode | .readFw | .setLed | .ulSelect | .halt => 0

end Sys2Proof.Machine
end

