-- ==== Sys2Proof/WellFormed.lean ====
section
/-! DEFINITION. Which instructions have the form the spec gives them (R82, R86, R162, R200 to R202), so that their words
decode to them. Which of the others the step refuses, and which it runs, says `inRange` in Machine/Fetch.lean. -/

namespace Sys2Proof

/-- A payload whose length `5 + L` fits the 16-bit length field (R86). -/
def payloadFits (payload : List Byte) : Bool := decide (payload.length ≤ 65530)

/-- A sector of a 1K card, 0..15 (R201). -/
def sectorOk (sector : Nat) : Bool := decide (sector < 16)

/-- A block within a sector, 0..3 (R201). -/
def blockOk (block : Nat) : Bool := decide (block < 4)

/-- A key: exactly 6 bytes (R202). -/
def keyOk (key : List Byte) : Bool := decide (key.length = 6)

/-- A serial: 4 or 7 bytes (R200). -/
def serialOk (serial : List Byte) : Bool := decide (serial.length = 4) || decide (serial.length = 7)

/-- Noise: no adjacent `AA BB` in it (R162), also none made with the header byte behind it, which is `AA`. -/
def noiseOk : List Byte → Bool
  | [] => true
  | b :: t => !(b == 0xAA && t.head? == some 0xBB) && noiseOk t

/-- The checks of one instruction. -/
def Instr.wf : Instr → Bool
  | .encode _ p => payloadFits p
  | .decode => true
  | .xfer _ p => payloadFits p
  | .frameOut _ p => payloadFits p
  | .frameIn noise logical => noiseOk noise && decide (logical.length ≤ 65535)
  | .hdr => true
  | .esc => true
  | .cmdSetBaud p => payloadFits p
  | .cmdReadBaud p => payloadFits p
  | .cmdSetNode p => payloadFits p
  | .cmdReadNode p => payloadFits p
  | .cmdReadFw p => payloadFits p
  | .cmdBeep _ => true
  | .cmdSetLed p => payloadFits p
  | .cmdRequest => true
  | .cmdAnticoll => true
  | .cmdSelect serial => serialOk serial
  | .cmdUlSelect => true
  | .cmdHalt => true
  | .cmdAuth2 _ sector key => sectorOk sector && keyOk key
  | .cmdReadBlock sector block => sectorOk sector && blockOk block
  | .cmdWriteBlock sector block data => sectorOk sector && blockOk block && decide (data.length ≤ 65529)
  | .cmdInitBal sector block _ => sectorOk sector && blockOk block
  | .cmdReadBal sector block => sectorOk sector && blockOk block
  | .cmdIncBal sector block _ => sectorOk sector && blockOk block
  | .cmdDecBal sector block _ => sectorOk sector && blockOk block
  | .select => true
  | .halt => true
  | .authenticate sector key _ => sectorOk sector && keyOk key
  | .readBlock block => blockOk block
  | .readSector sector key blocks => sectorOk sector && keyOk key && blocks.all blockOk
  | .writeBlock _ sector key block data =>
    sectorOk sector && keyOk key && blockOk block && decide (data.length ≤ 65529)
  | .initBalance _ sector key block _ => sectorOk sector && keyOk key && blockOk block
  | .readBalance _ sector key block => sectorOk sector && keyOk key && blockOk block
  | .increaseBalance _ sector key block _ => sectorOk sector && keyOk key && blockOk block
  | .decreaseBalance _ sector key block _ => sectorOk sector && keyOk key && blockOk block
  | .dump key => keyOk key
  | .findKeys sector candidates => sectorOk sector && candidates.all keyOk

end Sys2Proof
end

