-- ==== Sys2Proof/Decode.lean ====
section
/-! DEFINITION. From the bits to an instruction, total and rejecting by name, and the encoder behind it. The same bits
mean different things on the three ports (log 8): a request is command LE16 and payload (R43, R181), the TX stream
carries FRAME_OUT (R81), the RX stream carries FRAME_IN, the header pair and the escape pair (R82, R83, R88). -/

namespace Sys2Proof

open Sys2Proof.Machine

/-- Why words are no instruction. -/
inductive DecodeError where
  /-- Fewer bytes than the instruction needs. -/
  | truncated
  /-- No header `AA BB` where one is needed (R83). -/
  | noHeader
  /-- An outbound length field below 5 (R86). -/
  | shortLength
  /-- Outbound reserved bytes other than `FF FF` (R87). -/
  | badReserved
  /-- A wrong outbound checksum (R91). -/
  | badChecksum
  /-- The bytes are not the stuffed image of their logical bytes, or go on behind the frame (R88, R97). -/
  | notTheFrame
deriving DecidableEq, Repr

/-- Words on the request port: the command field, low byte first, then the payload (R57, R92, R93). A command of R95
with a payload of its shape is that row, anything else is an XFER (R95, R100). -/
def decodeReq (cfg : Config) : List Byte → Except DecodeError Instr
  | c0 :: c1 :: payload =>
    match DeviceCmd.all.find? (fun d => cfg.code d == le16 c0 c1) with
    | some d => .ok ((ofCommand d payload).getD (.xfer (le16 c0 c1) payload))
    | none => .ok (.xfer (le16 c0 c1) payload)
  | _ => .error .truncated

/-- The outbound frame with these logical bytes (R81, R111, R112), if they are those of one. -/
def outboundOf (logical : List Byte) : Except DecodeError (Word × List Byte) :=
  match logical with
  | r0 :: r1 :: c0 :: c1 :: rest =>
    if rest = [] then .error .shortLength
    else if r0 ≠ reservedByte ∨ r1 ≠ reservedByte then .error .badReserved
    else if checksum (le16 c0 c1) rest.dropLast ≠ rest.getLastD 0 then .error .badChecksum
    else .ok (le16 c0 c1, rest.dropLast)
  | _ => .error .shortLength

/-- Words on the TX stream: one whole FRAME_OUT and nothing else (R81). -/
def decodeTx : List Byte → Except DecodeError Instr
  | b0 :: b1 :: n0 :: n1 :: raw =>
    if b0 ≠ hdr0 ∨ b1 ≠ hdr1 then .error .noHeader
    else match takeBody (le16 n0 n1).toNat false raw with
      | none => .error .truncated
      | some (logical, _) =>
        match outboundOf logical with
        | .error e => .error e
        | .ok (command, payload) =>
          if wire command payload = b0 :: b1 :: n0 :: n1 :: raw then .ok (.frameOut command payload)
          else .error .notTheFrame
  | _ => .error .truncated

/-- What stands before the first adjacent `AA BB`, and what behind it (R141). -/
def splitHeader : List Byte → Option (List Byte × List Byte)
  | [] => none
  | b :: t =>
    if b = hdr0 ∧ t.head? = some hdr1 then some ([], t.tail)
    else (splitHeader t).map fun x => (b :: x.1, x.2)

/-- Words on the RX stream: the header pair alone, the escape pair alone, or one whole FRAME_IN with its noise
(R82, R83, R88). -/
def decodeRx (bytes : List Byte) : Except DecodeError Instr :=
  if bytes = [hdr0, hdr1] then .ok .hdr
  else if bytes = [escByte, stuffByte] then .ok .esc
  else match splitHeader bytes with
    | none => .error .noHeader
    | some (noise, n0 :: n1 :: raw) =>
      match takeBody (le16 n0 n1).toNat false raw with
      | none => .error .truncated
      | some (logical, _) =>
        if inWire noise logical = bytes then .ok (.frameIn noise logical) else .error .notTheFrame
    | some _ => .error .truncated

/-- The decoder: words met on a port. -/
def decode (cfg : Config) : Port → List Byte → Except DecodeError Instr
  | .req, bytes => decodeReq cfg bytes
  | .tx, bytes => decodeTx bytes
  | .rx, bytes => decodeRx bytes

/-- The words of an instruction and the port they stand on. The operations ENCODE and DECODE and the host procedures
have no words (opcode_table.json gives them none; R110, R140: not selected by an opcode). -/
def encode (cfg : Config) (i : Instr) : Option (Port × List Byte) :=
  match commandOf i with
  | some (d, payload) => some (.req, lo8 (cfg.code d) :: hi8 (cfg.code d) :: payload)
  | none =>
    match i with
    | .xfer command payload => some (.req, lo8 command :: hi8 command :: payload)
    | .frameOut command payload => some (.tx, wire command payload)
    | .frameIn noise logical => some (.rx, inWire noise logical)
    | .hdr => some (.rx, [hdr0, hdr1])
    | .esc => some (.rx, [escByte, stuffByte])
    | _ => none

/-- The bytes of a number of `nbits` bits, least significant first: the order in which FCC's words cross a port
(R57). -/
def tableBytes (nbits w : Nat) : List Byte :=
  (List.range (nbits / 8)).map fun k => BitVec.ofNat 8 (w >>> (8 * k))

/-- Where words numbered as the opcode table numbers them stand, and the bytes of them with the operand bytes the
table gives no bits (zeros): `AA BB` and `AA 00` are the pairs of the RX stream, longer words behind `AA BB` are a
frame, anything else is a command field on the request port (log 8). -/
def tablePlace (nbits w : Nat) : Port × List Byte :=
  match tableBytes nbits w with
  | [b0, b1] =>
    if b0 = hdr0 ∧ (b1 = hdr1 ∨ b1 = stuffByte) then (.rx, [b0, b1])
    else match DeviceCmd.all.find? (fun d => Config.reset.code d == le16 b0 b1) with
      | some d => (.req, b0 :: b1 :: List.replicate (operandBytes d) 0)
      | none => (.req, [b0, b1])
  | bytes =>
    if bytes.take 2 = [hdr0, hdr1] then
      match decodeTx bytes with
      | .ok _ => (.tx, bytes)
      | .error _ => (.rx, bytes)
    else (.req, bytes)

/-- The instruction the decoder reads from an opcode-table word. -/
def decodeTableWord (nbits w : Nat) : Option Instr :=
  match decode Config.reset (tablePlace nbits w).1 (tablePlace nbits w).2 with
  | .ok i => some i
  | .error _ => none

end Sys2Proof
end

