-- ==== Sys2Proof/Machine/State.lean ====
section
/-! DEFINITION. The state of the machine as plain data: FCC's registers (R22), LINE (R38), HOST with its session and the
procedure in progress (R205), the inputs of the events to come (R21), the parameters (R8); the reasons a step can
stop; the state after reset (R46). -/

namespace Sys2Proof.Machine

/-- `CH_PHASE` (R24). -/
inductive ChPhase where
  | idle
  | send
  | flush
  | recv
  | done
deriving DecidableEq, Repr

/-- `TX_PHASE` (R24). -/
inductive TxPhase where
  | idle
  | hdr0
  | hdr1
  | len0
  | len1
  | body
  | bstuff
  | csum
  | cstuff
deriving DecidableEq, Repr

/-- `RX_PHASE` (R24). -/
inductive RxPhase where
  | idle
  | hunt
  | len0
  | len1
  | body
deriving DecidableEq, Repr

/-- `RES_KIND` (R39); its 2-bit code is `ResKind.code`. -/
inductive ResKind where
  | ok
  | framing
  | checksum
  | mismatch
deriving DecidableEq, Repr

/-- Which of the three operations of R1 is in flight. The MODEL'S OWN field: in the spec only XFER is invoked, and
ENCODE and DECODE can also be tested alone (D23, log 6). -/
inductive Operation where
  | xfer
  | encode
  | decode
deriving DecidableEq, Repr

/-- A buffer: index and byte, indexes rising, no entry equal to what an unlisted index reads as. -/
abbrev Memory := List Host.Cell

/-- The registers of FCC (R22), one field each, and `op`. -/
structure Fcc where
  /-- `CH_PHASE` -/
  chPhase : ChPhase
  /-- `TX_PHASE` -/
  txPhase : TxPhase
  /-- `RX_PHASE` -/
  rxPhase : RxPhase
  /-- `CH_CMD` (R25) -/
  chCmd : Word
  /-- `CH_LEN` (R26) -/
  chLen : Word
  /-- `TXP` (R30) -/
  txp : Memory
  /-- `TX_IDX` (R27) -/
  txIdx : Word
  /-- `TX_XOR` (R28) -/
  txXor : Byte
  /-- `RX_HA` (R32) -/
  rxHa : Bool
  /-- `RX_LEN` (R33) -/
  rxLen : Word
  /-- `RX_CNT` (R34) -/
  rxCnt : Word
  /-- `RX_PD` (R35) -/
  rxPd : Bool
  /-- `RX_XOR` (R36) -/
  rxXor : Byte
  /-- `RXB` (R31) -/
  rxb : Memory
  /-- `RES_KIND` (R39) -/
  resKind : ResKind
  /-- `RES_CMD` (R40) -/
  resCmd : Word
  /-- `RES_STATUS` (R41) -/
  resStatus : Byte
  /-- `RES_DLEN` (R42) -/
  resDlen : Word
  /-- the operation in flight (log 6) -/
  op : Operation
deriving DecidableEq, Repr

/-- LINE (R38, R50 to R56). `sent` and `flushes` are records of what has happened (log 12). -/
structure Line where
  /-- bytes LINE holds for DEC, oldest first -/
  rx : List Byte
  /-- bytes LINE has accepted on TX and not yet put on the wire, oldest first -/
  held : List Byte
  /-- bytes that have left LINE toward DEVICE, oldest first -/
  sent : List Byte
  /-- flushes acknowledged -/
  flushes : Nat
deriving DecidableEq, Repr

/-- The inputs of one event (R43): what HOST, LINE, DEVICE and the environment do in it. -/
structure Input where
  /-- `req_valid`: HOST presents what it has to present -/
  present : Bool
  /-- `tx_ready` -/
  txReady : Bool
  /-- `tx_flush_ack` -/
  flushAck : Bool
  /-- LINE offers the oldest byte it holds, if it holds one: `rx_valid` -/
  offer : Bool
  /-- `rsp_take` -/
  take : Bool
  /-- `rst` -/
  rst : Bool
  /-- how many of the oldest held TX bytes leave LINE in this event (R53) -/
  leave : Nat
  /-- the bytes that arrive at LINE from DEVICE in this event (R55) -/
  arrive : List Byte
deriving DecidableEq, Repr

/-- The inputs of the events to come (R21, log 4): a finite script, then the same input for ever. -/
structure Env where
  script : List Input
  rest : Input
deriving DecidableEq, Repr

/-- A card HOST has selected (R200): CardHandle. -/
structure Card where
  cardType : Word
  serial : List Byte
deriving DecidableEq, Repr

/-- The session (R205). `Halted` is entered by no transition and left out (C6). -/
inductive Session where
  | idle
  | requested (cardType : Word)
  | anticollided (serial : List Byte)
  | selected (cardType : Word) (serial : List Byte)
  | authenticated (sector : Nat)
deriving DecidableEq, Repr

/-- The balance operations (R221). -/
inductive BalanceOp where
  | init
  | read
  | increase
  | decrease
deriving DecidableEq, Repr

/-- What HOST reads at the response port when it takes a result (R180, R187, D11): `rsp_kind`, and with each kind the
signals that are valid for it (R39 to R42). -/
inductive XferResult where
  | ok (command : Word) (status : Byte) (data : List Byte)
  | framing
  | checksum (command : Word)
  | mismatch (command : Word)
deriving DecidableEq, Repr

/-- The errors of the host's procedures (R247), each with the device's status code (R204, log 20), and the three of
FCC, which propagate (R251). `select` is the third step of `select()`, for which the source names no error (N11). -/
inductive HostError where
  | noCard (code : Byte)
  | anticollision (code : Byte)
  | select (code : Byte)
  | authentication (code : Byte)
  | read (code : Byte)
  | write (code : Byte)
  | balance (op : BalanceOp) (code : Byte)
  | framing
  | checksum
  | mismatch
deriving DecidableEq, Repr

/-- One XFER of a procedure, with what it is needed for (R210 to R230). -/
inductive Act where
  | request
  | anticoll (cardType : Word)
  | third (cardType : Word) (serial : List Byte)
  | halt
  | auth (slot : KeySlot) (sector : Nat) (key : List Byte)
  | read (sector block : Nat)
  | write (sector block : Nat) (data : List Byte)
  | initBal (sector block : Nat) (amount : Word)
  | readBal (sector block : Nat)
  | incBal (sector block : Nat) (amount : Word)
  | decBal (sector block : Nat) (amount : Word)
  | probe (slot : KeySlot) (sector : Nat) (key : List Byte)
deriving DecidableEq, Repr

/-- Which procedure is running, with what it has gathered beside data (R210 to R230). -/
inductive Goal where
  | select
  | halt
  | authenticate (sector : Nat)
  | readBlock
  | readSector
  | writeBlock
  | balance (op : BalanceOp)
  /-- the sector being read, the sectors to come, the sectors read so far -/
  | dump (key : List Byte) (sector : Nat) (later : List Nat) (got : List (Nat × List Byte))
  /-- the keys found so far -/
  | findKeys (keyA keyB : Option (List Byte))
deriving DecidableEq, Repr

/-- A procedure in progress: its XFER that is presented or in flight, those to follow, the data read so far. -/
structure Proc where
  goal : Goal
  act : Act
  rest : List Act
  data : List Byte
deriving DecidableEq, Repr

/-- How a procedure ended (R204). -/
inductive HostOutcome where
  /-- the handle, as HOST holds it -/
  | selected (card : Option Card)
  | halted (status : Byte) (data : List Byte)
  | authenticated (sector : Nat)
  | block (data : List Byte)
  | sector (data : List Byte)
  | written
  | balance (op : BalanceOp) (data : List Byte)
  | dumped (sectors : List (Nat × List Byte))
  | keys (keyA keyB : Option (List Byte))
  | failed (e : HostError)
deriving DecidableEq, Repr

/-- What HOST presents: an instruction, or the words of one on a port (log 5). -/
inductive Item where
  | op (i : Instr)
  | words (port : Port) (bytes : List Byte)
deriving DecidableEq, Repr

/-- HOST (R6, R205): what it will present, the procedure in progress, the session, the card, what it read of the last
result it took, how its last procedure ended, and every failed attempt of `findKeys` it has reported, oldest first
(R230). -/
structure HostAgent where
  agenda : List Item
  proc : Option Proc
  session : Session
  card : Option Card
  lastXfer : Option XferResult
  outcome : Option HostOutcome
  reports : List (KeySlot × List Byte)
deriving DecidableEq, Repr

/-- The whole state. -/
structure State where
  cfg : Config
  fcc : Fcc
  line : Line
  host : HostAgent
  env : Env
deriving DecidableEq, Repr

/-- Why the machine stops. Both stand for states no run reaches (R24): CH waits for a sequencer that is not running,
for which the spec has no event. Raised by the step; safe. -/
inductive Fault where
  /-- `CH_PHASE = C_SEND` and `TX_PHASE = T_IDLE`. -/
  | encNotRunning
  /-- `CH_PHASE = C_RECV` and `RX_PHASE = R_IDLE`. -/
  | decNotRunning
deriving DecidableEq, Repr

/-- Why an instruction has no meaning. -/
inductive Refusal where
  /-- The instruction of this mnemonic is not modelled. Raised by `exec`; safe. -/
  | notModelled (mnemonic : String)
  /-- A request with `L > PAYLOAD_MAX` (R189 b, D4, U3). Raised by everything that presents a request; safe. -/
  | payloadTooLong
  /-- A procedure called in a session state it requires otherwise (R212, R213, N12; U20 says refuse). Raised by the
  procedures that authenticate or read a block; safe. -/
  | wrongSession
  /-- A call whose operands are out of range: a sector or block (R201; U20 says refuse), a key that is none (R202), more
  logical bytes than a length field counts (R82). Raised by the fetch; safe. -/
  | outOfRange
  /-- Words no agent can present: fewer bytes on the request port than a command field (R43, R181), or on the TX stream
  other bytes than one frame of ENC (R81, R97). Raised by the fetch; safe. -/
  | undecodable (e : DecodeError)
deriving DecidableEq, Repr

/-- FCC after reset (R46). The registers R46 leaves unspecified are 0 and the buffers list nothing: DESIGN CHOICE
(log 1, log 2). -/
def Fcc.reset : Fcc where
  chPhase := .idle
  txPhase := .idle
  rxPhase := .idle
  chCmd := 0
  chLen := 0
  txp := []
  txIdx := 0
  txXor := 0
  rxHa := false
  rxLen := 0
  rxCnt := 0
  rxPd := false
  rxXor := 0
  rxb := []
  resKind := .ok
  resCmd := 0
  resStatus := 0
  resDlen := 0
  op := .xfer

/-- The input in which every handshake is answered at once and nothing else happens (log 4). -/
def Input.ready : Input where
  present := true
  txReady := true
  flushAck := true
  offer := true
  take := true
  rst := false
  leave := 0
  arrive := []

/-- The inputs after reset: all handshakes answered at once, nothing arrives (log 4). -/
def Env.ready : Env := ⟨[], Input.ready⟩

/-- HOST at the start: nothing to present, session `Idle` (R205, D28). -/
def HostAgent.reset : HostAgent where
  agenda := []
  proc := none
  session := .idle
  card := none
  lastXfer := none
  outcome := none
  reports := []

/-- The machine right after reset (R46, R270): FCC idle, LINE empty, HOST with nothing to present. -/
def State.reset : State where
  cfg := Config.reset
  fcc := Fcc.reset
  line := ⟨[], [], [], 0⟩
  host := HostAgent.reset
  env := Env.ready

end Sys2Proof.Machine
end

