-- ==== Sys2Proof/Machine/Flags.lean ====
section
/-! DEFINITION. The flags and running folds of FCC (R37): `RX_HA`, `RX_PD`, `RES_KIND`, `TX_XOR`, `RX_XOR`. -/

namespace Sys2Proof.Machine

/-- The 2-bit code of `RES_KIND` (R39, D11). -/
def ResKind.code : ResKind → BitVec 2
  | .ok => 0
  | .framing => 1
  | .checksum => 2
  | .mismatch => 3

/-- `RX_HA` after a hunted byte: it was `0xAA` (R32, R147). -/
def hunted (b : Byte) : Bool := b == hdr0

/-- The hunted byte completes the header (R147). -/
def headerSeen (rxHa : Bool) (b : Byte) : Bool := rxHa && b == hdr1

/-- `RX_PD` after an accepted logical byte: it was `0xAA` (R35, R151). -/
def pending (b : Byte) : Bool := b == escByte

/-- The raw byte is the stuffing partner of the byte before it (R151). -/
def isPartner (rxPd : Bool) (b : Byte) : Bool := rxPd && b == stuffByte

/-- One more byte in a running XOR-fold, `TX_XOR` or `RX_XOR` (R28, R36). -/
def fold (x b : Byte) : Byte := x ^^^ b

/-- The received length is none of a frame with a status byte that fits the buffer: FramingError (R157, R241). -/
def framingFails (rxLen : Word) (rxBufMax : Nat) : Bool :=
  decide (rxLen.toNat < 6) || decide (rxBufMax < rxLen.toNat)

/-- The checksum is looked at and wrong: ChecksumError (R159, R242). -/
def checksumFails (status rxXor : Byte) : Bool := status == statusOk && rxXor != 0x00

end Sys2Proof.Machine
end

