-- ==== Sys2Proof/Machine/Operands.lean ====
section
/-! DEFINITION. What the sequencers and the procedures read as operands: buffer bytes, the logical body byte of ENC,
the fields of the received frame, the request of one XFER of a procedure. -/

namespace Sys2Proof.Machine

/-- What an index of a buffer reads as that nothing has written: 0, DESIGN CHOICE (log 2). -/
abbrev unwritten : Byte := 0

/-- Read one byte of a buffer (R60: no side effect). -/
def Memory.read : Memory → Nat → Byte
  | [], _ => unwritten
  | (k, v) :: t, a => if k = a then v else Memory.read t a

/-- `B(i)` of R114: the logical body byte ENC sends at index `i`. -/
def Fcc.bodyByte (f : Fcc) (i : Word) : Byte :=
  match i.toNat with
  | 0 => reservedByte
  | 1 => reservedByte
  | 2 => lo8 f.chCmd
  | 3 => hi8 f.chCmd
  | n + 4 => f.txp.read n

/-- The length field of the frame in flight, `5 + CH_LEN` (R117). -/
def Fcc.lengthField (f : Fcc) : Word := 5 + f.chLen

/-- The command field of the received frame, `le16(RXB[2], RXB[3])` (R40, R160). -/
def Fcc.rxCommand (f : Fcc) : Word := le16 (f.rxb.read 2) (f.rxb.read 3)

/-- The status byte of the received frame, `RXB[4]` (R41). -/
def Fcc.rxStatus (f : Fcc) : Byte := f.rxb.read 4

/-- The data bytes of the result, `RXB[5 .. 5+RES_DLEN-1]` (R42): `rsp_data` of R43, `rsp_len` bytes. -/
def Fcc.rspData (f : Fcc) : List Byte := (List.range f.resDlen.toNat).map fun i => f.rxb.read (5 + i)

/-- `card_type` of the REQUEST data (R210): its first two bytes in the order the configuration says; of fewer bytes
the source says nothing, and the value is free (log 14). -/
def cardTypeOf (cfg : Config) (data : List Byte) : Word :=
  match data with
  | b0 :: b1 :: _ => if cfg.cardTypeLowFirst then le16 b0 b1 else le16 b1 b0
  | _ => Config.freeCardType data

/-- A card is of this variant, by its type (R200). -/
def Card.is (cfg : Config) (v : CardVariant) (c : Card) : Bool := c.cardType == cfg.typeCode v

/-- The command and payload of one XFER of a procedure (R210 to R230). -/
def Act.xfer (cfg : Config) : Act → Word × List Byte
  | .request => (cfg.code .request, [0x52])
  | .anticoll _ => (cfg.code .anticoll, [0x04])
  | .third cardType serial =>
    if cardType = cfg.typeCode .ultralight then (cfg.code .ulSelect, []) else (cfg.code .select, serial)
  | .halt => (cfg.code .halt, [])
  | .auth slot sector key => (cfg.code .auth2, auth2Payload slot sector key)
  | .read sector block => (cfg.code .readBlock, [blockByte sector block])
  | .write sector block data => (cfg.code .writeBlock, writePayload sector block data)
  | .initBal sector block amount => (cfg.code .initBal, amountPayload sector block amount)
  | .readBal sector block => (cfg.code .readBal, [blockByte sector block])
  | .incBal sector block amount => (cfg.code .incBal, amountPayload sector block amount)
  | .decBal sector block amount => (cfg.code .decBal, amountPayload sector block amount)
  | .probe slot sector key => (cfg.code .auth2, auth2Payload slot sector key)

end Sys2Proof.Machine
end

