-- ==== Sys2Proof/Machine/Ops.lean ====
section
/-! DEFINITION. The named operations: buffers, ports, the ENC and DEC sequencers, error entry and return, CH, LINE, the
environment, and presenting a request. -/

namespace Sys2Proof.Machine

/-! ### Buffers -/

/-- The canonical form of a buffer. -/
abbrev Memory.wf (m : Memory) : Prop :=
  m.Pairwise (fun x y => x.1 < y.1) ∧ ∀ c ∈ m, c.2 ≠ unwritten

/-- Write one byte of a buffer, keeping the canonical form. -/
def Memory.write : Memory → Nat → Byte → Memory
  | [], a, v => if v = unwritten then [] else [(a, v)]
  | (k, w) :: t, a, v =>
    if a < k then (if v = unwritten then (k, w) :: t else (a, v) :: (k, w) :: t)
    else if a = k then (if v = unwritten then t else (a, v) :: t)
    else (k, w) :: Memory.write t a v

/-- Write bytes at successive indexes from `a` on. -/
def Memory.writeBytes : Memory → Nat → List Byte → Memory
  | m, _, [] => m
  | m, a, b :: t => Memory.writeBytes (m.write a b) (a + 1) t

/-! ### Output signals (R43), each a function of the registers -/

/-- `req_ready` -/
def Fcc.reqReady (f : Fcc) : Bool := f.chPhase == .idle
/-- `busy` -/
def Fcc.busy (f : Fcc) : Bool := f.chPhase != .idle
/-- `rsp_valid` -/
def Fcc.rspValid (f : Fcc) : Bool := f.chPhase == .done
/-- `tx_valid` (R51): ENC has a byte to hand over. -/
def Fcc.txValid (f : Fcc) : Bool := f.txPhase != .idle
/-- `tx_flush` (R53) -/
def Fcc.txFlush (f : Fcc) : Bool := f.chPhase == .flush
/-- `rx_ready` (R52, R146) -/
def Fcc.rxReady (f : Fcc) : Bool := f.rxPhase != .idle
/-- `rsp_kind` -/
def Fcc.rspKind (f : Fcc) : BitVec 2 := f.resKind.code
/-- `rsp_cmd` -/
def Fcc.rspCmd (f : Fcc) : Word := f.resCmd
/-- `rsp_status` -/
def Fcc.rspStatus (f : Fcc) : Byte := f.resStatus
/-- `rsp_len` -/
def Fcc.rspLen (f : Fcc) : Word := f.resDlen

/-- `tx_data` (R51): the byte ENC hands over, by its phase (R115 to R121). While `tx_valid = 0` the spec gives it no
value; 0 there is a DESIGN CHOICE (log 30), which no step reads. -/
def Fcc.txData (f : Fcc) : Byte :=
  match f.txPhase with
  | .idle => 0x00
  | .hdr0 => hdr0
  | .hdr1 => hdr1
  | .len0 => lo8 f.lengthField
  | .len1 => hi8 f.lengthField
  | .body => f.bodyByte f.txIdx
  | .bstuff => stuffByte
  | .csum => f.txXor
  | .cstuff => stuffByte

/-- What HOST reads at the response port while `rsp_valid = 1`: the signals that are valid for the kind, and only those
(R39 to R42, R187, U12). -/
def Fcc.readResult (f : Fcc) : XferResult :=
  match f.resKind with
  | .ok => .ok f.rspCmd f.rspStatus f.rspData
  | .framing => .framing
  | .checksum => .checksum f.rspCmd
  | .mismatch => .mismatch f.rspCmd

/-! ### ENC (R114 to R121) -/

/-- Start of ENC (R114). -/
def Fcc.encStart (f : Fcc) : Fcc := { f with txPhase := .hdr0, txIdx := 0, txXor := 0x00 }

/-- End of ENC (R121, R182): CH goes on to the flush; ENCODE alone ends here (log 6). -/
def Fcc.encDone (f : Fcc) : Fcc :=
  { f with txPhase := .idle, chPhase := if f.op = .encode then .idle else .flush }

/-- Where ENC goes when a body byte and its stuffing are out (R119, R120). -/
def Fcc.afterBody (f : Fcc) : TxPhase := if f.txIdx = f.chLen + 4 then .csum else .body

/-- ENC after the byte `tx_data` has been transferred (R115 to R121). -/
def Fcc.txNext (f : Fcc) : Fcc :=
  match f.txPhase with
  | .idle => f
  | .hdr0 => { f with txPhase := .hdr1 }
  | .hdr1 => { f with txPhase := .len0 }
  | .len0 => { f with txPhase := .len1 }
  | .len1 => { f with txPhase := .body }
  | .body =>
    let b := f.bodyByte f.txIdx
    let g := { f with txXor := fold f.txXor b, txIdx := f.txIdx + 1 }
    { g with txPhase := if b = escByte then .bstuff else g.afterBody }
  | .bstuff => { f with txPhase := f.afterBody }
  | .csum => if f.txXor = escByte then { f with txPhase := .cstuff } else f.encDone
  | .cstuff => f.encDone

/-! ### Error entry and return (R244, R249, R250) -/

/-- `raise E`, the one entry into an error outcome (R244, R249): `RES_KIND` and, where the rule of the error says so,
`RES_CMD` are written, DEC is idle, CH is done. Nothing else is saved. -/
def Fcc.raise (kind : ResKind) (command : Option Word) (f : Fcc) : Fcc :=
  { f with resKind := kind, resCmd := command.getD f.resCmd, rxPhase := .idle, chPhase := .done }

/-- The return from a result or an error: `rsp_take` in `C_DONE` (R188, R250). -/
def Fcc.rspTake (f : Fcc) : Fcc := { f with chPhase := .idle }

/-! ### DEC (R146 to R160) and the echo check (R184 to R186) -/

/-- Start of DEC (R146). -/
def Fcc.decStart (f : Fcc) : Fcc := { f with rxPhase := .hunt, rxHa := false, rxPd := false }

/-- DEC ends OK (R160, R185) and CH applies the echo check (R186); DECODE alone compares nothing (log 6). -/
def Fcc.decoded (f : Fcc) : Fcc :=
  if f.op ≠ .decode ∧ f.rxCommand ≠ f.chCmd then f.raise .mismatch (some f.rxCommand)
  else { f with resKind := .ok, resCmd := f.rxCommand, resStatus := f.rxStatus, resDlen := f.rxLen - 6,
                rxPhase := .idle, chPhase := .done }

/-- Evaluation at the end of the body: framing, checksum, success, in this order (R157, R159, R160, R245). -/
def Fcc.evaluate (rxBufMax : Nat) (f : Fcc) : Fcc :=
  if framingFails f.rxLen rxBufMax then f.raise .framing none
  else if checksumFails f.rxStatus f.rxXor then f.raise .checksum (some f.rxCommand)
  else f.decoded

/-- A logical byte is accepted (R151): stored if the buffer has room, folded, counted. -/
def Fcc.accept (rxBufMax : Nat) (b : Byte) (f : Fcc) : Fcc :=
  { f with rxb := if f.rxCnt.toNat < rxBufMax then f.rxb.write f.rxCnt.toNat b else f.rxb,
           rxXor := fold f.rxXor b, rxCnt := f.rxCnt + 1, rxPd := pending b }

/-- DEC after the byte `b` has been transferred on the RX port (R147 to R151). -/
def Fcc.rxNext (rxBufMax : Nat) (b : Byte) (f : Fcc) : Fcc :=
  match f.rxPhase with
  | .idle => f
  | .hunt => if headerSeen f.rxHa b then { f with rxPhase := .len0 } else { f with rxHa := hunted b }
  | .len0 => { f with rxLen := le16 b (hi8 f.rxLen), rxPhase := .len1 }
  | .len1 =>
    let g := { f with rxLen := le16 (lo8 f.rxLen) b, rxCnt := 0, rxPd := false, rxXor := 0x00 }
    if g.rxLen = 0#16 then g.evaluate rxBufMax else { g with rxPhase := .body }
  | .body =>
    if isPartner f.rxPd b then { f with rxPd := false }
    else if (f.accept rxBufMax b).rxCnt = f.rxLen then (f.accept rxBufMax b).evaluate rxBufMax
    else f.accept rxBufMax b

/-! ### CH (R181, R183) -/

/-- CH accepts a request for an operation (R181): everything is copied in this event, and ENC starts. -/
def Fcc.latch (op : Operation) (command : Word) (payload : List Byte) (f : Fcc) : Fcc :=
  { f with chCmd := command, chLen := BitVec.ofNat 16 payload.length, txp := f.txp.writeBytes 0 payload,
           chPhase := .send, op := op }.encStart

/-- CH enters `C_RECV` and DEC starts (R183, R146). -/
def Fcc.receive (f : Fcc) : Fcc := { f with chPhase := .recv }.decStart

/-! ### LINE (R51 to R56) -/

/-- LINE takes a byte of the TX port (R51). -/
def Line.put (l : Line) (b : Byte) : Line := { l with held := l.held ++ [b] }

/-- LINE acknowledges a flush: everything it held has left (R53). -/
def Line.flushed (l : Line) : Line := { l with sent := l.sent ++ l.held, held := [], flushes := l.flushes + 1 }

/-- Some of the oldest held bytes leave before a flush (R53). -/
def Line.leave (l : Line) (n : Nat) : Line := { l with sent := l.sent ++ l.held.take n, held := l.held.drop n }

/-- Bytes arrive from DEVICE behind what LINE holds (R56); a LINE of finite depth loses what it has no room for (R289).
DESIGN CHOICE (log 11): the newest bytes are lost, and the depth bounds LINE in every event, also while DEC is asking,
where R8 and R56 say nothing of it; at depth 0 no byte reaches DEC. -/
def Line.arrive (l : Line) (depth : Option Nat) (bytes : List Byte) : Line :=
  { l with rx := l.rx ++ (match depth with
                          | none => bytes
                          | some d => bytes.take (d - l.rx.length)) }

/-- Bytes arrive at LINE, whatever they are (R55, R56). -/
def State.bytesArrive (bytes : List Byte) (s : State) : State :=
  { s with line := s.line.arrive s.cfg.lineDepth bytes }

/-! ### The inputs of an event -/

/-- The input of the next event. -/
def Env.current (e : Env) : Input := e.script.headD e.rest

/-- The inputs after it. -/
def Env.advance (e : Env) : Env := { e with script := e.script.tail }

/-! ### Events of the whole machine -/

/-- What LINE and DEVICE do at the start of an event: held bytes leave, bytes arrive (R53, R55). -/
def State.lineEvent (x : Input) (s : State) : State :=
  { s with line := (s.line.leave x.leave).arrive s.cfg.lineDepth x.arrive, env := s.env.advance }

/-- HOST when FCC is reset under it (R271): no result comes, the procedure is given up, the session is `Idle`
(DESIGN CHOICE, log 3). -/
def HostAgent.abandon (h : HostAgent) : HostAgent := { h with proc := none, session := .idle, card := none }

/-- Reset (R270, R271): FCC as after reset, LINE untouched. -/
def State.rstEvent (s : State) : State := { s with fcc := Fcc.reset, host := s.host.abandon }

/-- One TX byte event (R51): LINE takes `tx_data`, ENC goes on. -/
def State.sendByte (s : State) : State := { s with fcc := s.fcc.txNext, line := s.line.put s.fcc.txData }

/-- The flush is acknowledged (R183). -/
def State.flushEvent (s : State) : State := { s with fcc := s.fcc.receive, line := s.line.flushed }

/-- One RX byte event (R52): the oldest byte LINE holds is consumed by DEC; without one nothing happens. -/
def State.takeByte (s : State) : State :=
  match s.line.rx with
  | [] => s
  | b :: t => { s with fcc := s.fcc.rxNext s.cfg.rxBufMax b, line := { s.line with rx := t } }

/-! ### Presenting a request -/

/-- The outcome of one step of this machine. -/
abbrev Outcome := Host.Outcome State Fault Refusal

/-- HOST cannot present another request: an XFER is in flight, or a procedure is (R189 a, R281). -/
def State.hostBusy (s : State) : Bool := s.fcc.busy || s.host.proc.isSome

/-- HOST waits with an instruction it cannot present yet: it stays the next thing HOST presents (R189 a, log 13). -/
def State.waits (i : Instr) (s : State) : State := { s with host := { s.host with agenda := .op i :: s.host.agenda } }

/-- FCC accepts a request (R181). -/
def State.acceptRequest (op : Operation) (command : Word) (payload : List Byte) (s : State) : State :=
  { s with fcc := s.fcc.latch op command payload }

/-- A request reaches the idle FCC: accepted, or refused if it is too long (R181, R189 b). -/
def presentRequest (op : Operation) (command : Word) (payload : List Byte) (s : State) : Outcome :=
  if payload.length ≤ s.cfg.payloadMax then .next (s.acceptRequest op command payload)
  else .refused .payloadTooLong

/-- An instruction that presents a request: now, or when HOST is free (R181, R189). -/
def requestOrWait (i : Instr) (op : Operation) (command : Word) (payload : List Byte) (s : State) : Outcome :=
  if s.hostBusy then .next (s.waits i) else presentRequest op command payload s

/-- A command row: XFER of its code and payload (R100). -/
def requestCommand (i : Instr) (d : DeviceCmd) (payload : List Byte) (s : State) : Outcome :=
  requestOrWait i .xfer (s.cfg.code d) payload s

end Sys2Proof.Machine
end

