-- ==== Sys2Proof/Machine/Commands.lean ====
section
/-! DEFINITION. The nineteen device commands (R95, R203): each is `XFER CMD_<name>, payload` (R100). -/

namespace Sys2Proof.Machine

/-- SET_BAUD: payload not given by the source (N26). -/
def execCmdSetBaud (payload : List Byte) (s : State) : Outcome :=
  requestCommand (.cmdSetBaud payload) .setBaud payload s

/-- READ_BAUD: payload not given. -/
def execCmdReadBaud (payload : List Byte) (s : State) : Outcome :=
  requestCommand (.cmdReadBaud payload) .readBaud payload s

/-- SET_NODE: payload not given. -/
def execCmdSetNode (payload : List Byte) (s : State) : Outcome :=
  requestCommand (.cmdSetNode payload) .setNode payload s

/-- READ_NODE: payload not given. -/
def execCmdReadNode (payload : List Byte) (s : State) : Outcome :=
  requestCommand (.cmdReadNode payload) .readNode payload s

/-- READ_FW: payload not given. -/
def execCmdReadFw (payload : List Byte) (s : State) : Outcome :=
  requestCommand (.cmdReadFw payload) .readFw payload s

/-- BEEP: `[duration]`, the code `0x0106`. -/
def execCmdBeep (duration : Byte) (s : State) : Outcome :=
  requestCommand (.cmdBeep duration) .beep [duration] s

/-- SET_LED: payload not given. -/
def execCmdSetLed (payload : List Byte) (s : State) : Outcome :=
  requestCommand (.cmdSetLed payload) .setLed payload s

/-- REQUEST: `[0x52]`. -/
def execCmdRequest (s : State) : Outcome :=
  requestCommand .cmdRequest .request [0x52] s

/-- ANTICOLL: `[0x04]`. -/
def execCmdAnticoll (s : State) : Outcome :=
  requestCommand .cmdAnticoll .anticoll [0x04] s

/-- SELECT: the serial. -/
def execCmdSelect (serial : List Byte) (s : State) : Outcome :=
  requestCommand (.cmdSelect serial) .select serial s

/-- UL_SELECT: empty. -/
def execCmdUlSelect (s : State) : Outcome :=
  requestCommand .cmdUlSelect .ulSelect [] s

/-- HALT: empty. -/
def execCmdHalt (s : State) : Outcome :=
  requestCommand .cmdHalt .halt [] s

/-- AUTH2: selector, `sector*4`, key (R212). -/
def execCmdAuth2 (slot : KeySlot) (sector : Nat) (key : List Byte) (s : State) : Outcome :=
  requestCommand (.cmdAuth2 slot sector key) .auth2 (auth2Payload slot sector key) s

/-- READ_BLOCK: `[sector*4 + block]` (R213). -/
def execCmdReadBlock (sector : Nat) (block : Nat) (s : State) : Outcome :=
  requestCommand (.cmdReadBlock sector block) .readBlock [blockByte sector block] s

/-- WRITE_BLOCK: `[sector*4 + block]`, data (R215). -/
def execCmdWriteBlock (sector : Nat) (block : Nat) (data : List Byte) (s : State) : Outcome :=
  requestCommand (.cmdWriteBlock sector block data) .writeBlock (writePayload sector block data) s

/-- INIT_BAL: `[sector*4 + block]`, amount LE16 (R221). -/
def execCmdInitBal (sector : Nat) (block : Nat) (amount : Word) (s : State) : Outcome :=
  requestCommand (.cmdInitBal sector block amount) .initBal (amountPayload sector block amount) s

/-- READ_BAL: `[sector*4 + block]` (R221). -/
def execCmdReadBal (sector : Nat) (block : Nat) (s : State) : Outcome :=
  requestCommand (.cmdReadBal sector block) .readBal [blockByte sector block] s

/-- INC_BAL: `[sector*4 + block]`, amount LE16 (R221). -/
def execCmdIncBal (sector : Nat) (block : Nat) (amount : Word) (s : State) : Outcome :=
  requestCommand (.cmdIncBal sector block amount) .incBal (amountPayload sector block amount) s

/-- DEC_BAL: `[sector*4 + block]`, amount LE16 (R221). -/
def execCmdDecBal (sector : Nat) (block : Nat) (amount : Word) (s : State) : Outcome :=
  requestCommand (.cmdDecBal sector block amount) .decBal (amountPayload sector block amount) s

end Sys2Proof.Machine
end

