-- ==== Sys2Proof/Machine/Frames.lean ====
section
/-! DEFINITION. The frame rows of the table (log 7). FRAME_OUT is what ENC is made to put on the wire (R81). FRAME_IN,
HDR and ESC are bytes that come in on LINE (R82, R83, R88): LINE has them in this event, and DEC takes them one RX
byte event each (R52, R147 to R151). -/

namespace Sys2Proof.Machine

/-- FRAME_OUT (R81): ENC starts on the frame of this command and payload. -/
def execFrameOut (command : Word) (payload : List Byte) (s : State) : Outcome :=
  requestOrWait (.frameOut command payload) .encode command payload s

/-- FRAME_IN (R82): noise, header, length and the stuffed logical bytes arrive at LINE. -/
def execFrameIn (noise logical : List Byte) (s : State) : Outcome :=
  .next (s.bytesArrive (inWire noise logical))

/-- HDR (R83): the pair `AA BB` arrives at LINE. -/
def execHdr (s : State) : Outcome :=
  .next (s.bytesArrive [hdr0, hdr1])

/-- ESC (R88): the pair `AA 00` arrives at LINE. -/
def execEsc (s : State) : Outcome :=
  .next (s.bytesArrive [escByte, stuffByte])

end Sys2Proof.Machine
end

