-- ==== Sys2Proof/Machine/Operations.lean ====
section
/-! DEFINITION. The operations ENCODE, DECODE, XFER (R110, R140, R180). The meaning of an operation is the event that
starts it; the byte events that follow are steps of ENC, DEC and CH (R9, R114, R146, R181). -/

namespace Sys2Proof.Machine

/-- ENCODE alone (R110, R114; D23, log 6): the operands are latched and ENC starts; no flush and no receive follow. -/
def execEncode (command : Word) (payload : List Byte) (s : State) : Outcome :=
  requestOrWait (.encode command payload) .encode command payload s

/-- DECODE alone (R140, R146; D23, log 6): DEC starts on the RX stream; no command is compared at its end. -/
def execDecode (s : State) : Outcome :=
  if s.hostBusy then .next (s.waits .decode)
  else .next { s with fcc := { s.fcc.receive with op := .decode } }

/-- XFER (R180, R181): CH accepts the request. -/
def execXfer (command : Word) (payload : List Byte) (s : State) : Outcome :=
  requestOrWait (.xfer command payload) .xfer command payload s

end Sys2Proof.Machine
end

