-- ==== Sys2Proof/Machine/Session.lean ====
section
/-! DEFINITION. HOST's session and procedures (R205, R210 to R232): what HOST does with the result of an XFER, and how a
procedure starts. -/

namespace Sys2Proof.Machine

/-- HOST begins a procedure, or a sector of `dump`; one that begins with `select()` forgets the handle (C7, R210). -/
def HostAgent.begin (h : HostAgent) (p : Proc) : HostAgent :=
  if p.act = .request then { h with proc := some p, session := .idle, card := none, outcome := none }
  else { h with proc := some p, outcome := none }

/-- A procedure ends with an outcome (R204). -/
def HostAgent.finish (h : HostAgent) (o : HostOutcome) : HostAgent := { h with proc := none, outcome := some o }

/-- `dump` reads one sector: `select()`, then `readSector` of it with Key A (R222, R214). -/
def dumpSector (cfg : Config) (key : List Byte) (sector : Nat) (later : List Nat)
    (got : List (Nat × List Byte)) : Proc where
  goal := .dump key sector later got
  act := .request
  rest := .auth .A sector key :: cfg.dumpBlocks.map (.read sector)
  data := []

/-- `dump` goes on to the next sector, or ends (R222). -/
def HostAgent.nextSector (cfg : Config) (key : List Byte) (later : List Nat) (got : List (Nat × List Byte))
    (h : HostAgent) : HostAgent :=
  match later with
  | [] => h.finish (.dumped got)
  | sector :: later' => h.begin (dumpSector cfg key sector later' got)

/-- An operation of a procedure fails: the handle is no longer valid and the session is `Idle` (R205, D28); `dump` skips
the sector (R222, D29), every other procedure ends with the error (R204). -/
def HostAgent.fail (cfg : Config) (p : Proc) (e : HostError) (h : HostAgent) : HostAgent :=
  match p.goal with
  | .dump key _ later got => { h with session := .idle, card := none }.nextSector cfg key later got
  | _ => { h with session := .idle, card := none }.finish (.failed e)

/-- The last XFER of a procedure has succeeded with this status and data. DESIGN CHOICE (log 32): a balance operation
returns the data of its response as they are, since the source gives their format for none of the four (N14). -/
def HostAgent.complete (cfg : Config) (p : Proc) (status : Byte) (data : List Byte) (h : HostAgent) : HostAgent :=
  match p.goal with
  | .select => h.finish (.selected h.card)
  | .halt => h.finish (.halted status data)
  | .authenticate sector => h.finish (.authenticated sector)
  | .readBlock => h.finish (.block p.data)
  | .readSector => h.finish (.sector p.data)
  | .writeBlock => h.finish .written
  | .balance op => h.finish (.balance op data)
  | .dump key sector later got => h.nextSector cfg key later (got ++ [(sector, p.data)])
  | .findKeys a b => h.finish (.keys a b)

/-- A procedure goes on with these XFERs, or is complete. -/
def HostAgent.proceed (cfg : Config) (p : Proc) (acts : List Act) (status : Byte) (data : List Byte)
    (h : HostAgent) : HostAgent :=
  match acts with
  | [] => h.complete cfg p status data
  | a :: rest => { h with proc := some { p with act := a, rest := rest } }

/-- A try of `findKeys` has failed: HOST reports it, in the event in which it takes the result (R230). DESIGN CHOICE
(log 31; U20 leaves the order of the reports open): a report is slot and key, kept oldest first. -/
def HostAgent.report (slot : KeySlot) (key : List Byte) (h : HostAgent) : HostAgent :=
  { h with reports := h.reports ++ [(slot, key)] }

/-- A try of `findKeys` has succeeded: recorded (R230). -/
def Goal.found (g : Goal) (slot : KeySlot) (key : List Byte) : Goal :=
  match g, slot with
  | .findKeys _ b, .A => .findKeys (some key) b
  | .findKeys a _, .B => .findKeys a (some key)
  | g, _ => g

/-- A try of `findKeys` with this key slot. -/
def Act.probes (slot : KeySlot) : Act → Bool
  | .probe slot' _ _ => slot' == slot
  | _ => false

/-- An XFER of a procedure ended `OK(status, data)` (R210 to R230). -/
def HostAgent.onOk (cfg : Config) (p : Proc) (status : Byte) (data : List Byte) (h : HostAgent) : HostAgent :=
  match p.act with
  | .request =>
    if status = statusOk then
      { h with session := .requested (cardTypeOf cfg data) }.proceed cfg p (.anticoll (cardTypeOf cfg data) :: p.rest)
        status data
    else h.fail cfg p (.noCard status)
  | .anticoll cardType =>
    if status = statusOk then
      { h with session := .anticollided data }.proceed cfg p (.third cardType data :: p.rest) status data
    else h.fail cfg p (.anticollision status)
  | .third cardType serial =>
    if status = statusOk ∨ cfg.thirdStepRaises = false then
      let serial' := if cardType = cfg.typeCode .ultralight then data else serial
      { h with session := .selected cardType serial', card := some ⟨cardType, serial'⟩ }.proceed cfg p p.rest status data
    else h.fail cfg p (.select status)
  | .halt => { h with session := .idle, card := none }.proceed cfg p p.rest status data
  | .auth _ sector _ =>
    if status = statusOk then { h with session := .authenticated sector }.proceed cfg p p.rest status data
    else h.fail cfg p (.authentication status)
  | .read _ _ =>
    if status = statusOk then h.proceed cfg { p with data := p.data ++ data } p.rest status data
    else h.fail cfg p (.read status)
  | .write _ _ _ =>
    if status = statusOk then h.proceed cfg p p.rest status data else h.fail cfg p (.write status)
  | .initBal _ _ _ =>
    if status = statusOk then h.proceed cfg p p.rest status data else h.fail cfg p (.balance .init status)
  | .readBal _ _ =>
    if status = statusOk then h.proceed cfg p p.rest status data else h.fail cfg p (.balance .read status)
  | .incBal _ _ _ =>
    if status = statusOk then h.proceed cfg p p.rest status data else h.fail cfg p (.balance .increase status)
  | .decBal _ _ _ =>
    if status = statusOk then h.proceed cfg p p.rest status data else h.fail cfg p (.balance .decrease status)
  | .probe slot _ key =>
    if status = statusOk then
      h.proceed cfg { p with goal := p.goal.found slot key } (p.rest.filter fun a => !a.probes slot) status data
    else (h.report slot key).proceed cfg p p.rest status data

/-- An XFER of a procedure ended with an error of FCC: it ends the procedure (43_host_session.md, introduction) but in
`dump` (D29), and in a try of `findKeys` if the configuration says so (log 16). -/
def HostAgent.onError (cfg : Config) (p : Proc) (e : HostError) (h : HostAgent) : HostAgent :=
  match p.act with
  | .probe slot _ key =>
    if cfg.findKeysGoesOn = true then (h.report slot key).proceed cfg p p.rest 0 []
    else h.fail cfg p e
  | _ => h.fail cfg p e

/-- A procedure goes on with the result of its XFER. -/
def HostAgent.advance (cfg : Config) (p : Proc) (r : XferResult) (h : HostAgent) : HostAgent :=
  match r with
  | .ok _ status data => h.onOk cfg p status data
  | .framing => h.onError cfg p .framing
  | .checksum _ => h.onError cfg p .checksum
  | .mismatch _ => h.onError cfg p .mismatch

/-- HOST takes a result (R188): it has read it, and the procedure in progress, if there is one, goes on. -/
def HostAgent.afterResult (cfg : Config) (r : XferResult) (h : HostAgent) : HostAgent :=
  match h.proc with
  | none => { h with lastXfer := some r }
  | some p => { h with lastXfer := some r }.advance cfg p r

/-- The take event (R188): HOST reads the response port and takes the result, CH is idle. -/
def State.takeEvent (s : State) : State :=
  { s with fcc := s.fcc.rspTake, host := s.host.afterResult s.cfg s.fcc.readResult }

/-- A procedure presents its next XFER to the idle FCC (R181). -/
def presentAct (a : Act) (s : State) : Outcome := presentRequest .xfer (a.xfer s.cfg).1 (a.xfer s.cfg).2 s

/-- A procedure starts: HOST begins it and presents its first XFER, or waits (R189 a). -/
def startProc (i : Instr) (p : Proc) (s : State) : Outcome :=
  if s.hostBusy then .next (s.waits i) else presentAct p.act { s with host := s.host.begin p }

/-- The session is one in which a card can be authenticated (R212). -/
def Session.canAuthenticate : Session → Bool
  | .selected _ _ => true
  | .authenticated _ => true
  | .idle => false
  | .requested _ => false
  | .anticollided _ => false

/-- A procedure that authenticates first (R212, R214, R215, R221): in another session state the spec gives it no
meaning (N12), and it is refused (U20). -/
def startAuthenticated (i : Instr) (p : Proc) (s : State) : Outcome :=
  if s.hostBusy then .next (s.waits i)
  else if s.host.session.canAuthenticate then startProc i p s
  else .refused .wrongSession

end Sys2Proof.Machine
end

