-- ==== Sys2Proof/Machine/Procedures.lean ====
section
/-! DEFINITION. The host procedures (R210 to R230): each starts a procedure of HOST, which presents its first XFER; the
rest of it happens as results are taken (`HostAgent.advance`). -/

namespace Sys2Proof.Machine

/-- select (R210): REQUEST, ANTICOLL, then UL_SELECT or SELECT. -/
def execSelect (s : State) : Outcome :=
  startProc .select
    { goal := .select, act := .request, rest := [], data := [] } s

/-- halt (R211): HALT; a nonzero status is reported, not fatal. -/
def execHalt (s : State) : Outcome :=
  startProc .halt
    { goal := .halt, act := .halt, rest := [], data := [] } s

/-- authenticate (R212): AUTH2. -/
def execAuthenticate (sector : Nat) (key : List Byte) (slot : KeySlot) (s : State) : Outcome :=
  startAuthenticated (.authenticate sector key slot)
    { goal := .authenticate sector, act := .auth slot sector key, rest := [], data := [] } s

/-- readBlock (R213): READ_BLOCK in the sector the session is authenticated for; in another session state the spec
gives it no meaning (N12), and it is refused (U20). -/
def execReadBlock (block : Nat) (s : State) : Outcome :=
  if s.hostBusy then .next (s.waits (.readBlock block))
  else match s.host.session with
    | .authenticated sector =>
      startProc (.readBlock block) { goal := .readBlock, act := .read sector block, rest := [], data := [] } s
    | _ => .refused .wrongSession

/-- readSector (R214): authenticate with Key A, then the blocks in order. -/
def execReadSector (sector : Nat) (key : List Byte) (blocks : List Nat) (s : State) : Outcome :=
  startAuthenticated (.readSector sector key blocks)
    { goal := .readSector, act := .auth .A sector key, rest := blocks.map (.read sector), data := [] } s

/-- writeBlock (R215): authenticate, then WRITE_BLOCK. -/
def execWriteBlock (slot : KeySlot) (sector : Nat) (key : List Byte) (block : Nat) (data : List Byte) (s : State) : Outcome :=
  startAuthenticated (.writeBlock slot sector key block data)
    { goal := .writeBlock, act := .auth slot sector key, rest := [.write sector block data], data := [] } s

/-- initBalance (R221): authenticate, then INIT_BAL. -/
def execInitBalance (slot : KeySlot) (sector : Nat) (key : List Byte) (block : Nat) (amount : Word) (s : State) : Outcome :=
  startAuthenticated (.initBalance slot sector key block amount)
    { goal := .balance .init, act := .auth slot sector key, rest := [.initBal sector block amount], data := [] } s

/-- readBalance (R221): authenticate, then READ_BAL. -/
def execReadBalance (slot : KeySlot) (sector : Nat) (key : List Byte) (block : Nat) (s : State) : Outcome :=
  startAuthenticated (.readBalance slot sector key block)
    { goal := .balance .read, act := .auth slot sector key, rest := [.readBal sector block], data := [] } s

/-- increaseBalance (R221): authenticate, then INC_BAL. -/
def execIncreaseBalance (slot : KeySlot) (sector : Nat) (key : List Byte) (block : Nat) (amount : Word) (s : State) : Outcome :=
  startAuthenticated (.increaseBalance slot sector key block amount)
    { goal := .balance .increase, act := .auth slot sector key, rest := [.incBal sector block amount], data := [] } s

/-- decreaseBalance (R221): authenticate, then DEC_BAL. -/
def execDecreaseBalance (slot : KeySlot) (sector : Nat) (key : List Byte) (block : Nat) (amount : Word) (s : State) : Outcome :=
  startAuthenticated (.decreaseBalance slot sector key block amount)
    { goal := .balance .decrease, act := .auth slot sector key, rest := [.decBal sector block amount], data := [] } s

/-- dump (R222): for sectors 0..15 select and readSector, failures skipped. -/
def execDump (key : List Byte) (s : State) : Outcome :=
  startProc (.dump key)
    (dumpSector s.cfg key 0 ((List.range 16).drop 1) []) s

/-- findKeys (R230): `select()` first, then each candidate as Key A, then each as Key B. -/
def execFindKeys (sector : Nat) (candidates : List (List Byte)) (s : State) : Outcome :=
  startProc (.findKeys sector candidates)
    { goal := .findKeys none none, act := .request,
      rest := candidates.map (.probe .A sector) ++ candidates.map (.probe .B sector), data := [] } s

end Sys2Proof.Machine
end

