-- ==== Sys2Proof/Machine/Dispatch.lean ====
section
/-! DEFINITION. One arm per instruction, each one call of its meaning. -/

namespace Sys2Proof.Machine

def exec (i : Instr) (s : State) : Host.Outcome State Fault Refusal :=
  match i with
  | .encode a b => Sys2Proof.Machine.execEncode a b s
  | .decode => Sys2Proof.Machine.execDecode s
  | .xfer a b => Sys2Proof.Machine.execXfer a b s
  | .frameOut a b => Sys2Proof.Machine.execFrameOut a b s
  | .frameIn a b => Sys2Proof.Machine.execFrameIn a b s
  | .hdr => Sys2Proof.Machine.execHdr s
  | .esc => Sys2Proof.Machine.execEsc s
  | .cmdSetBaud a => Sys2Proof.Machine.execCmdSetBaud a s
  | .cmdReadBaud a => Sys2Proof.Machine.execCmdReadBaud a s
  | .cmdSetNode a => Sys2Proof.Machine.execCmdSetNode a s
  | .cmdReadNode a => Sys2Proof.Machine.execCmdReadNode a s
  | .cmdReadFw a => Sys2Proof.Machine.execCmdReadFw a s
  | .cmdBeep a => Sys2Proof.Machine.execCmdBeep a s
  | .cmdSetLed a => Sys2Proof.Machine.execCmdSetLed a s
  | .cmdRequest => Sys2Proof.Machine.execCmdRequest s
  | .cmdAnticoll => Sys2Proof.Machine.execCmdAnticoll s
  | .cmdSelect a => Sys2Proof.Machine.execCmdSelect a s
  | .cmdUlSelect => Sys2Proof.Machine.execCmdUlSelect s
  | .cmdHalt => Sys2Proof.Machine.execCmdHalt s
  | .cmdAuth2 a b c => Sys2Proof.Machine.execCmdAuth2 a b c s
  | .cmdReadBlock a b => Sys2Proof.Machine.execCmdReadBlock a b s
  | .cmdWriteBlock a b c => Sys2Proof.Machine.execCmdWriteBlock a b c s
  | .cmdInitBal a b c => Sys2Proof.Machine.execCmdInitBal a b c s
  | .cmdReadBal a b => Sys2Proof.Machine.execCmdReadBal a b s
  | .cmdIncBal a b c => Sys2Proof.Machine.execCmdIncBal a b c s
  | .cmdDecBal a b c => Sys2Proof.Machine.execCmdDecBal a b c s
  | .select => Sys2Proof.Machine.execSelect s
  | .halt => Sys2Proof.Machine.execHalt s
  | .authenticate a b c => Sys2Proof.Machine.execAuthenticate a b c s
  | .readBlock a => Sys2Proof.Machine.execReadBlock a s
  | .readSector a b c => Sys2Proof.Machine.execReadSector a b c s
  | .writeBlock a b c d e => Sys2Proof.Machine.execWriteBlock a b c d e s
  | .initBalance a b c d e => Sys2Proof.Machine.execInitBalance a b c d e s
  | .readBalance a b c d => Sys2Proof.Machine.execReadBalance a b c d s
  | .increaseBalance a b c d e => Sys2Proof.Machine.execIncreaseBalance a b c d e s
  | .decreaseBalance a b c d e => Sys2Proof.Machine.execDecreaseBalance a b c d e s
  | .dump a => Sys2Proof.Machine.execDump a s
  | .findKeys a b => Sys2Proof.Machine.execFindKeys a b s

end Sys2Proof.Machine
end

