-- ==== Sys2Proof/Machine/Fetch.lean ====
section
/-! DEFINITION. One event of the machine (R9), and where HOST's instructions come from (log 5). -/

namespace Sys2Proof.Machine

/-- The operands are in range: a sector 0..15 and a block 0..3 (R201; U20 says to refuse a call out of range), a key of
exactly 6 bytes (R202), at most as many logical bytes as the length field counts (R82, R86). Every other operand has an
effect, or is refused where the request is presented (R189 b): noise with `AA BB` in it arrives like any bytes
(R55, R97 item 6), and SELECT sends any serial, as `select()` does with what ANTICOLL gave it (R100, R210). -/
def inRange : Instr → Bool
  | .encode _ _ | .decode | .xfer _ _ | .frameOut _ _ | .hdr | .esc => true
  | .frameIn _ logical => decide (logical.length ≤ 65535)
  | .cmdSetBaud _ | .cmdReadBaud _ | .cmdSetNode _ | .cmdReadNode _ | .cmdReadFw _ | .cmdBeep _ | .cmdSetLed _ => true
  | .cmdRequest | .cmdAnticoll | .cmdSelect _ | .cmdUlSelect | .cmdHalt => true
  | .cmdAuth2 _ sector key => sectorOk sector && keyOk key
  | .cmdReadBlock sector block => sectorOk sector && blockOk block
  | .cmdWriteBlock sector block _ => sectorOk sector && blockOk block
  | .cmdInitBal sector block _ => sectorOk sector && blockOk block
  | .cmdReadBal sector block => sectorOk sector && blockOk block
  | .cmdIncBal sector block _ => sectorOk sector && blockOk block
  | .cmdDecBal sector block _ => sectorOk sector && blockOk block
  | .select | .halt => true
  | .authenticate sector key _ => sectorOk sector && keyOk key
  | .readBlock block => blockOk block
  | .readSector sector key blocks => sectorOk sector && keyOk key && blocks.all blockOk
  | .writeBlock _ sector key block _ => sectorOk sector && keyOk key && blockOk block
  | .initBalance _ sector key block _ => sectorOk sector && keyOk key && blockOk block
  | .readBalance _ sector key block => sectorOk sector && keyOk key && blockOk block
  | .increaseBalance _ sector key block _ => sectorOk sector && keyOk key && blockOk block
  | .decreaseBalance _ sector key block _ => sectorOk sector && keyOk key && blockOk block
  | .dump key => keyOk key
  | .findKeys sector candidates => sectorOk sector && candidates.all keyOk

/-- An instruction with operands in range is run; a call out of range is refused (U20). -/
def runInstr (i : Instr) (s : State) : Outcome := if inRange i then exec i s else .refused .outOfRange

/-- What HOST presents next is decoded, if it is words, and run. Bytes of the RX stream that are none of its patterns
arrive at LINE all the same: DEVICE may send any byte, and DEC has a rule for it (R55, R97). -/
def runItem (item : Item) (s : State) : Outcome :=
  match item with
  | .op i => runInstr i s
  | .words port bytes =>
    match decode s.cfg port bytes with
    | .ok i => runInstr i s
    | .error e =>
      match port with
      | .rx => .next (s.bytesArrive bytes)
      | .req | .tx => .refused (.undecodable e)

/-- HOST presents: the next XFER of the procedure in progress, or the next item of its agenda (R181). -/
def hostEvent (s : State) : Outcome :=
  match s.host.proc with
  | some p => presentAct p.act s
  | none =>
    match s.host.agenda with
    | [] => .next s
    | item :: rest => runItem item { s with host := { s.host with agenda := rest } }

/-- One event in the phase CH is in (R24, R181 to R188). An agent whose partner does not answer has no step: FCC stays
as it is (R51, R52, R53, R254). -/
def phaseEvent (x : Input) (s : State) : Outcome :=
  match s.fcc.chPhase with
  | .idle => if x.present then hostEvent s else .next s
  | .send =>
    if s.fcc.txPhase = .idle then .fault .encNotRunning
    else if x.txReady then .next s.sendByte else .next s
  | .flush => if x.flushAck then .next s.flushEvent else .next s
  | .recv =>
    if s.fcc.rxPhase = .idle then .fault .decNotRunning
    else if x.offer then .next s.takeByte else .next s
  | .done => if x.take then .next s.takeEvent else .next s

/-- One event with its input: what LINE and DEVICE do, then reset, or else one event of FCC and HOST. -/
def inputEvent (x : Input) (s : State) : Outcome :=
  if x.rst then .next (s.lineEvent x).rstEvent else phaseEvent x (s.lineEvent x)

/-- One event: the next input of the environment. -/
def event (s : State) : Outcome := inputEvent s.env.current s

/-- The input of an event in which HOST presents and nothing else happens. -/
def Input.presenting : Input where
  present := true
  txReady := false
  flushAck := false
  offer := false
  take := false
  rst := false
  leave := 0
  arrive := []

/-- The state whose next event is that HOST presents this item: FCC is idle, no procedure is in progress, the item is
next on HOST's agenda, and HOST presents in the next event. -/
def placeItem (item : Item) (s : State) : State :=
  { s with fcc := { s.fcc with chPhase := .idle, txPhase := .idle, rxPhase := .idle },
           host := { s.host with agenda := item :: s.host.agenda, proc := none },
           env := { s.env with script := Input.presenting :: s.env.script } }

end Sys2Proof.Machine
end

