-- ==== Sys2Proof/Machine/Step.lean ====
section
/-! DEFINITION. The step of the machine, one event (R9), and the host's way to place an instruction in front of it. -/

namespace Sys2Proof.Machine

/-- One step: one event. -/
def step (s : State) : Host.Outcome State Fault Refusal := event s

/-- The state whose next step runs the instruction with these bits: they stand as words at the head of HOST's agenda
(log 5, log 8). -/
def State.withFetchWord (s : State) (nbits w : Nat) : State :=
  placeItem (.words (tablePlace nbits w).1 (tablePlace nbits w).2) s

end Sys2Proof.Machine
end

