-- ==== Sys2Proof/Safety.lean ====
section
/-! DEFINITION. The terms claims are made in: the results of the operations at the level of functions (R180), what a
state must satisfy (`State.Inv`), a machine whose partners all answer at once. -/

namespace Sys2Proof.Machine

/-- The result of XFER from that of its DECODE: the echo check (R180, R186). -/
def xferResult (command : Word) : DecodeResult → XferResult
  | .framing => .framing
  | .checksum c => .checksum c
  | .ok c status data => if c = command then .ok c status data else .mismatch c

/-- The result of DECODE alone as HOST reads it: no echo check (D23). -/
def decodeResult : DecodeResult → XferResult
  | .framing => .framing
  | .checksum c => .checksum c
  | .ok c status data => .ok c status data

/-- What HOST reads when DEC has ended, from the result of DECODE, by the operation in flight (R180, R184 to R186). -/
def resultOf (op : Operation) (command : Word) (r : DecodeResult) : XferResult :=
  if op = .decode then decodeResult r else xferResult command r

/-- The request an instruction presents at once: the operations that send, FRAME_OUT, the device commands (R100, R110,
R180). -/
def requestOf (cfg : Config) : Instr → Option (Operation × Word × List Byte)
  | .encode c p => some (.encode, c, p)
  | .frameOut c p => some (.encode, c, p)
  | .xfer c p => some (.xfer, c, p)
  | i => (commandOf i).map fun x => (.xfer, cfg.code x.1, x.2)

/-- Bytes that come in on LINE and are no request of HOST's. -/
def arriving : Instr → Bool
  | .frameIn _ _ | .hdr | .esc => true
  | _ => false

/-- The AUTH2 payload of R212. -/
def authRequest (slot : KeySlot) (sector : Nat) (key : List Byte) : List Byte :=
  (match slot with
    | .A => 0x60
    | .B => 0x61) :: BitVec.ofNat 8 (sector * 4) :: key

/-- LINE holds these bytes too, behind what it holds (R56). -/
def State.holding (bytes : List Byte) (s : State) : State := { s with line := { s.line with rx := s.line.rx ++ bytes } }

/-- FCC has accepted a request for an operation and ENC has started, register by register (R181, R114). -/
def State.accepted (op : Operation) (command : Word) (payload : List Byte) (s : State) : State :=
  { s with fcc := { s.fcc with
      chCmd := command, chLen := BitVec.ofNat 16 payload.length, txp := s.fcc.txp.writeBytes 0 payload,
      chPhase := .send, txPhase := .hdr0, txIdx := 0, txXor := 0x00, op := op } }

/-- HOST has begun a procedure that presents no `select()` first (R211 to R221). -/
def State.running (p : Proc) (s : State) : State :=
  { s with host := { s.host with proc := some p, outcome := none } }

/-- HOST has begun a procedure whose first XFER is that of `select()`: the handle is forgotten (R210, C7). -/
def State.selecting (p : Proc) (s : State) : State :=
  { s with host := { s.host with proc := some p, outcome := none, session := .idle, card := none } }

/-- The bytes that arrive with these inputs (R55). -/
def arrivals (xs : List Input) : List Byte := xs.flatMap Input.arrive

/-- HOST after it has taken these results in turn, one XFER each (R188). -/
def HostAgent.afterResults (cfg : Config) (h : HostAgent) (rs : List XferResult) : HostAgent :=
  rs.foldl (fun g r => g.afterResult cfg r) h

/-- One try of `findKeys`: the candidate, and the command, status and data of the result of its XFER (R230). -/
structure Try where
  key : List Byte
  command : Word
  status : Byte
  data : List Byte
deriving DecidableEq, Repr

/-- What HOST reads of a try that ended without an error of FCC. -/
def Try.result (t : Try) : XferResult := .ok t.command t.status t.data

/-- How the candidates fare with one key slot (R230): these tries fail in list order, then this one, if there is one,
is the first with status 0, and the candidates behind it are not tried; if there is none, every candidate has failed. -/
def TriesOf (candidates : List (List Byte)) (failed : List Try) (found : Option Try) : Prop :=
  (∀ t ∈ failed, t.status ≠ 0x00) ∧ (∀ t, found = some t → t.status = 0x00) ∧
  (failed ++ found.toList).map Try.key <+: candidates ∧ (found = none → failed.map Try.key = candidates)

/-- `n` steps of the machine (the host's run). -/
def run (n : Nat) (s : State) : Outcome := Host.Core.run Sys2Proof.core n s

/-- The logical body bytes ENC has sent so far (R27). -/
def Fcc.bodySent (f : Fcc) : List Byte := (List.range f.txIdx.toNat).map fun i => f.bodyByte (BitVec.ofNat 16 i)

/-- The logical bytes DEC has accepted so far (R31, R34), where the buffer holds them all. -/
def Fcc.accepted (f : Fcc) : List Byte := (List.range f.rxCnt.toNat).map f.rxb.read

/-- What the registers of ENC hold in each phase (R24, R27, R28, R114 to R121). -/
def Fcc.TxInv (f : Fcc) : Prop :=
  match f.txPhase with
  | .idle => True
  | .hdr0 | .hdr1 | .len0 | .len1 => f.txIdx = 0 ∧ f.txXor = 0x00
  | .body => f.txIdx.toNat < f.chLen.toNat + 4 ∧ f.txXor = xor8 f.bodySent
  | .bstuff => 0 < f.txIdx.toNat ∧ f.txIdx.toNat ≤ f.chLen.toNat + 4 ∧ f.bodyByte (f.txIdx - 1) = escByte ∧
      f.txXor = xor8 f.bodySent
  | .csum => f.txIdx.toNat = f.chLen.toNat + 4 ∧ f.txXor = xor8 f.bodySent
  | .cstuff => f.txIdx.toNat = f.chLen.toNat + 4 ∧ f.txXor = xor8 f.bodySent ∧ f.txXor = escByte

/-- What the registers of DEC hold in each phase (R32 to R36, R146 to R151). -/
def Fcc.RxInv (rxBufMax : Nat) (f : Fcc) : Prop :=
  match f.rxPhase with
  | .idle => True
  | .hunt => f.rxPd = false
  | .len0 | .len1 => f.rxPd = false ∧ f.rxHa = true
  | .body => f.rxCnt.toNat < f.rxLen.toNat ∧
      (f.rxCnt.toNat ≤ rxBufMax → f.rxXor = xor8 f.accepted ∧
        (f.rxPd = true → 0 < f.rxCnt.toNat ∧ f.rxb.read (f.rxCnt.toNat - 1) = escByte))

/-- What the result registers hold in `C_DONE` (R39 to R42, R184 to R186). -/
def Fcc.ResInv (rxBufMax : Nat) (f : Fcc) : Prop :=
  match f.resKind with
  | .framing => f.rxLen.toNat < 6 ∨ rxBufMax < f.rxLen.toNat
  | .checksum => f.resCmd = f.rxCommand ∧ f.rxStatus = statusOk
  | .mismatch => f.resCmd = f.rxCommand ∧ f.resCmd ≠ f.chCmd ∧ f.op ≠ .decode
  | .ok => f.resCmd = f.rxCommand ∧ f.resStatus = f.rxStatus ∧ f.resDlen.toNat + 6 = f.rxLen.toNat ∧
      f.rxLen.toNat ≤ rxBufMax ∧ (f.op ≠ .decode → f.resCmd = f.chCmd)

/-- The invariant of FCC. -/
structure Fcc.Inv (cfg : Config) (f : Fcc) : Prop where
  /-- ENC runs exactly in `C_SEND` (R24). -/
  txPhase : f.txPhase ≠ .idle ↔ f.chPhase = .send
  /-- DEC runs exactly in `C_RECV` (R24). -/
  rxPhase : f.rxPhase ≠ .idle ↔ f.chPhase = .recv
  /-- The buffers keep their form and their size (R30, R31). -/
  txpForm : f.txp.wf
  txpSize : ∀ c ∈ f.txp, c.1 < cfg.payloadMax
  rxbForm : f.rxb.wf
  rxbSize : ∀ c ∈ f.rxb, c.1 < cfg.rxBufMax
  /-- `0 <= L <= PAYLOAD_MAX` (R26). -/
  chLen : f.chLen.toNat ≤ cfg.payloadMax
  tx : f.TxInv
  rx : f.RxInv cfg.rxBufMax
  res : f.chPhase = .done → f.ResInv cfg.rxBufMax
  /-- ENCODE alone never comes to the flush or the receive half, DECODE alone never sends (log 6). -/
  opSend : f.chPhase = .send → f.op ≠ .decode
  opFlush : f.chPhase = .flush → f.op = .xfer
  opRecv : f.chPhase = .recv → f.op ≠ .encode

/-- An XFER of `select()`. -/
def Act.selecting : Act → Bool
  | .request => true
  | .anticoll _ => true
  | .third _ _ => true
  | _ => false

/-- The invariant of HOST (R200, R205): a handle is held only in `Selected` and `Authenticated`, it is the one the
session names, and there is none while `select()` is running. -/
structure HostAgent.Inv (h : HostAgent) : Prop where
  cardSession : h.card.isSome = true → h.session.canAuthenticate = true
  selectedCard : ∀ cardType serial, h.session = .selected cardType serial → h.card = some ⟨cardType, serial⟩
  selecting : ∀ p, h.proc = some p → p.act.selecting = true → h.card = none ∧ h.session.canAuthenticate = false
  rest : ∀ p, h.proc = some p → ∀ a ∈ p.rest, a.selecting = false

/-- The invariant of the machine. -/
structure State.Inv (s : State) : Prop where
  cfg : s.cfg.wf
  fcc : s.fcc.Inv s.cfg
  host : s.host.Inv
  /-- A procedure in progress runs XFERs and nothing else. -/
  procOp : s.host.proc.isSome = true → s.fcc.chPhase = .idle ∨ s.fcc.op = .xfer

end Sys2Proof.Machine
end

