-- ==== Sys2Proof/Certificates/Slice0/Obligations.lean ====
section
/-! DEFINITION. The statements. An event is stated through `u`, the state in which LINE and DEVICE have already done what
the input says (`State.lineEvent`). -/

section Statements

open Sys2Proof Sys2Proof.Machine

/-! ### Reset -/

/-- R46. The phases and flags after reset, the signals that follow, and that FCC then waits for a request. -/
def Obligations.ResetLeavesFccIdle : Prop :=
  (State.reset.fcc.chPhase = .idle ∧ State.reset.fcc.txPhase = .idle ∧ State.reset.fcc.rxPhase = .idle ∧
    State.reset.fcc.rxHa = false ∧ State.reset.fcc.rxPd = false) ∧
  (State.reset.fcc.reqReady = true ∧ State.reset.fcc.busy = false ∧ State.reset.fcc.rspValid = false ∧
    State.reset.fcc.txValid = false ∧ State.reset.fcc.txFlush = false ∧ State.reset.fcc.rxReady = false) ∧
  ∀ s : State, s.fcc = State.reset.fcc → s.env.current.rst = false → s.env.current.present = false →
    step s = .next (s.lineEvent s.env.current)

/-- R270, R271. Reset in any state: the phases and flags are those of R46, no result is delivered, LINE is untouched. -/
def Obligations.ResetAbandonsTheXfer : Prop :=
  ∀ s u : State, u = s.lineEvent s.env.current → s.env.current.rst = true →
    ∃ t, step s = .next t ∧ t.fcc.chPhase = .idle ∧ t.fcc.txPhase = .idle ∧ t.fcc.rxPhase = .idle ∧
      t.fcc.rxHa = false ∧ t.fcc.rxPd = false ∧ t.fcc.rspValid = false ∧ t.fcc.reqReady = true ∧
      t.line = u.line ∧ t.cfg = s.cfg ∧ t.env = u.env ∧ t.host.lastXfer = s.host.lastXfer

/-! ### Starting an operation: the instructions of the operation and frame rows -/

/-- R181. XFER: the request is accepted, everything is copied, ENC starts; nothing else changes. -/
def Obligations.XferIsAccepted : Prop :=
  ∀ (command : Word) (payload : List Byte) (s : State), s.hostBusy = false → s.cfg.wf →
    payload.length ≤ s.cfg.payloadMax →
    exec (.xfer command payload) s = .next { s with fcc := { s.fcc with
      chCmd := command, chLen := BitVec.ofNat 16 payload.length, txp := s.fcc.txp.writeBytes 0 payload,
      chPhase := .send, txPhase := .hdr0, txIdx := 0, txXor := 0x00, op := .xfer } } ∧
    (BitVec.ofNat 16 payload.length).toNat = payload.length ∧
    (s.fcc.txp.wf → ∀ i, (s.fcc.txp.writeBytes 0 payload).read i =
      if i < payload.length then payload.getD i 0 else s.fcc.txp.read i)

/-- ENCODE alone and FRAME_OUT: the start of XFER, for the operation that ends with the last TX byte; DECODE alone: DEC
starts as R146 says (log 6, log 7). -/
def Obligations.EncodeFrameOutDecodeStart : Prop :=
  ∀ (command : Word) (payload : List Byte) (s : State), s.hostBusy = false →
    (payload.length ≤ s.cfg.payloadMax →
      exec (.encode command payload) s = .next (s.accepted .encode command payload) ∧
      exec (.frameOut command payload) s = .next (s.accepted .encode command payload)) ∧
    exec .decode s = .next { s with fcc := { s.fcc with
      chPhase := .recv, rxPhase := .hunt, rxHa := false, rxPd := false, op := .decode } }

/-- FRAME_IN, HDR, ESC: their bytes are in LINE, behind what it holds; a LINE of finite depth takes what fits
(log 7, log 11). -/
def Obligations.FrameInHdrEscArrive : Prop :=
  ∀ (noise logical frame : List Byte) (s : State),
    frame = noise ++ [0xAA, 0xBB, BitVec.ofNat 8 logical.length, BitVec.ofNat 8 (logical.length / 256)]
      ++ stuff logical →
    (s.cfg.lineDepth = none →
      exec (.frameIn noise logical) s = .next (s.holding frame) ∧
      exec .hdr s = .next (s.holding [0xAA, 0xBB]) ∧
      exec .esc s = .next (s.holding [0xAA, 0x00])) ∧
    ∀ depth, s.cfg.lineDepth = some depth →
      exec (.frameIn noise logical) s = .next (s.holding (frame.take (depth - s.line.rx.length))) ∧
      exec .hdr s = .next (s.holding (List.take (depth - s.line.rx.length) [0xAA, 0xBB])) ∧
      exec .esc s = .next (s.holding (List.take (depth - s.line.rx.length) [0xAA, 0x00]))

/-- R189 (a), with the model's way to wait (log 13): an instruction HOST cannot present yet stays the next thing HOST
presents, and nothing else changes. R189 (b): a request that is too long is refused, be it an instruction's own, the
first XFER of a procedure, or a later one (log 28). -/
def Obligations.RequestsWaitOrAreRefused : Prop :=
  (∀ (i : Instr) (s : State),
    (s.hostBusy = true → arriving i = false →
      exec i s = .next { s with host := { s.host with agenda := .op i :: s.host.agenda } }) ∧
    ∀ (op : Operation) (command : Word) (payload : List Byte), requestOf s.cfg i = some (op, command, payload) →
      s.hostBusy = false → s.cfg.payloadMax < payload.length → exec i s = .refused .payloadTooLong) ∧
  (∀ (s : State) (slot : KeySlot) (sector block : Nat) (key data : List Byte) (amount : Word) (blocks : List Nat)
    (candidates : List (List Byte)), s.hostBusy = false →
    (s.cfg.payloadMax < 1 →
      exec .select s = .refused .payloadTooLong ∧
      exec (.dump key) s = .refused .payloadTooLong ∧
      exec (.findKeys sector candidates) s = .refused .payloadTooLong) ∧
    (s.host.session = .authenticated sector → s.cfg.payloadMax < 1 →
      exec (.readBlock block) s = .refused .payloadTooLong) ∧
    (s.host.session.canAuthenticate = true → s.cfg.payloadMax < key.length + 2 →
      exec (.authenticate sector key slot) s = .refused .payloadTooLong ∧
      exec (.readSector sector key blocks) s = .refused .payloadTooLong ∧
      exec (.writeBlock slot sector key block data) s = .refused .payloadTooLong ∧
      exec (.initBalance slot sector key block amount) s = .refused .payloadTooLong ∧
      exec (.readBalance slot sector key block) s = .refused .payloadTooLong ∧
      exec (.increaseBalance slot sector key block amount) s = .refused .payloadTooLong ∧
      exec (.decreaseBalance slot sector key block amount) s = .refused .payloadTooLong)) ∧
  ∀ (s : State) (p : Proc), s.env.current.rst = false → s.env.current.present = true → s.fcc.chPhase = .idle →
    s.host.proc = some p → s.cfg.payloadMax < (p.act.xfer s.cfg).2.length → step s = .refused .payloadTooLong

/-! ### The device commands -/

/-- R95, R100. The nineteen commands, each the XFER of its code and payload; nothing but FCC changes. -/
def Obligations.CommandsAreXfers : Prop :=
  ∀ (s : State), s.hostBusy = false → s.cfg.wf →
    (∀ p : List Byte, p.length ≤ s.cfg.payloadMax →
      exec (.cmdSetBaud p) s = .next (s.accepted .xfer s.cfg.codes.setBaud p) ∧
      exec (.cmdReadBaud p) s = .next (s.accepted .xfer s.cfg.codes.readBaud p) ∧
      exec (.cmdSetNode p) s = .next (s.accepted .xfer s.cfg.codes.setNode p) ∧
      exec (.cmdReadNode p) s = .next (s.accepted .xfer s.cfg.codes.readNode p) ∧
      exec (.cmdReadFw p) s = .next (s.accepted .xfer s.cfg.codes.readFw p) ∧
      exec (.cmdSetLed p) s = .next (s.accepted .xfer s.cfg.codes.setLed p) ∧
      exec (.cmdSelect p) s = .next (s.accepted .xfer s.cfg.codes.select p)) ∧
    exec .cmdUlSelect s = .next (s.accepted .xfer s.cfg.codes.ulSelect []) ∧
    exec .cmdHalt s = .next (s.accepted .xfer s.cfg.codes.halt []) ∧
    (1 ≤ s.cfg.payloadMax →
      (∀ duration, exec (.cmdBeep duration) s = .next (s.accepted .xfer 0x0106 [duration])) ∧
      exec .cmdRequest s = .next (s.accepted .xfer s.cfg.codes.request [0x52]) ∧
      exec .cmdAnticoll s = .next (s.accepted .xfer s.cfg.codes.anticoll [0x04]) ∧
      ∀ sector block : Nat,
        exec (.cmdReadBlock sector block) s =
          .next (s.accepted .xfer s.cfg.codes.readBlock [BitVec.ofNat 8 (sector * 4 + block)]) ∧
        exec (.cmdReadBal sector block) s =
          .next (s.accepted .xfer s.cfg.codes.readBal [BitVec.ofNat 8 (sector * 4 + block)])) ∧
    (∀ (sector block : Nat) (data : List Byte), data.length + 1 ≤ s.cfg.payloadMax →
      exec (.cmdWriteBlock sector block data) s =
        .next (s.accepted .xfer s.cfg.codes.writeBlock (BitVec.ofNat 8 (sector * 4 + block) :: data))) ∧
    (3 ≤ s.cfg.payloadMax → ∀ (sector block : Nat) (amount : Word),
      exec (.cmdInitBal sector block amount) s = .next (s.accepted .xfer s.cfg.codes.initBal
        [BitVec.ofNat 8 (sector * 4 + block), lo8 amount, hi8 amount]) ∧
      exec (.cmdIncBal sector block amount) s = .next (s.accepted .xfer s.cfg.codes.incBal
        [BitVec.ofNat 8 (sector * 4 + block), lo8 amount, hi8 amount]) ∧
      exec (.cmdDecBal sector block amount) s = .next (s.accepted .xfer s.cfg.codes.decBal
        [BitVec.ofNat 8 (sector * 4 + block), lo8 amount, hi8 amount])) ∧
    ∀ (sector : Nat) (key : List Byte), key.length + 2 ≤ s.cfg.payloadMax →
      exec (.cmdAuth2 .A sector key) s =
        .next (s.accepted .xfer s.cfg.codes.auth2 (0x60 :: BitVec.ofNat 8 (sector * 4) :: key)) ∧
      exec (.cmdAuth2 .B sector key) s =
        .next (s.accepted .xfer s.cfg.codes.auth2 (0x61 :: BitVec.ofNat 8 (sector * 4) :: key))

/-! ### The host procedures: how they start -/

/-- R210, R211, R222, R230. The procedures that any session state allows: `select`, `halt`, `dump`, `findKeys`. -/
def Obligations.UnguardedProceduresStart : Prop :=
  ∀ (s : State), s.hostBusy = false →
    (1 ≤ s.cfg.payloadMax →
      exec .select s = .next ((s.selecting
        { goal := .select, act := .request, rest := [], data := [] }).accepted .xfer s.cfg.codes.request [0x52]) ∧
      (∀ key : List Byte, exec (.dump key) s = .next ((s.selecting
        { goal := .dump key 0 [1, 2, 3, 4, 5, 6, 7, 8, 9, 10, 11, 12, 13, 14, 15] [], act := .request,
          rest := .auth .A 0 key :: s.cfg.dumpBlocks.map fun b => .read 0 b,
          data := [] }).accepted .xfer s.cfg.codes.request [0x52])) ∧
      ∀ (sector : Nat) (candidates : List (List Byte)), exec (.findKeys sector candidates) s = .next ((s.selecting
        { goal := .findKeys none none, act := .request,
          rest := (candidates.map fun k => .probe .A sector k) ++ candidates.map fun k => .probe .B sector k,
          data := [] }).accepted .xfer s.cfg.codes.request [0x52])) ∧
    exec .halt s = .next ((s.running
      { goal := .halt, act := .halt, rest := [], data := [] }).accepted .xfer s.cfg.codes.halt [])

/-- R212 to R221. The procedures that authenticate first, from a session state that allows it: the AUTH2 of R212 is
presented, and what follows it is kept. -/
def Obligations.AuthenticatingProceduresStart : Prop :=
  ∀ (s : State) (slot : KeySlot) (sector block : Nat) (key data : List Byte) (amount : Word) (blocks : List Nat),
    s.hostBusy = false → s.host.session.canAuthenticate = true → key.length + 2 ≤ s.cfg.payloadMax →
    exec (.authenticate sector key slot) s = .next ((s.running
      { goal := .authenticate sector, act := .auth slot sector key, rest := [], data := [] }).accepted .xfer
        s.cfg.codes.auth2 (authRequest slot sector key)) ∧
    exec (.readSector sector key blocks) s = .next ((s.running
      { goal := .readSector, act := .auth .A sector key, rest := blocks.map fun b => .read sector b,
        data := [] }).accepted .xfer s.cfg.codes.auth2 (authRequest .A sector key)) ∧
    exec (.writeBlock slot sector key block data) s = .next ((s.running
      { goal := .writeBlock, act := .auth slot sector key, rest := [.write sector block data],
        data := [] }).accepted .xfer s.cfg.codes.auth2 (authRequest slot sector key)) ∧
    exec (.initBalance slot sector key block amount) s = .next ((s.running
      { goal := .balance .init, act := .auth slot sector key, rest := [.initBal sector block amount],
        data := [] }).accepted .xfer s.cfg.codes.auth2 (authRequest slot sector key)) ∧
    exec (.readBalance slot sector key block) s = .next ((s.running
      { goal := .balance .read, act := .auth slot sector key, rest := [.readBal sector block],
        data := [] }).accepted .xfer s.cfg.codes.auth2 (authRequest slot sector key)) ∧
    exec (.increaseBalance slot sector key block amount) s = .next ((s.running
      { goal := .balance .increase, act := .auth slot sector key, rest := [.incBal sector block amount],
        data := [] }).accepted .xfer s.cfg.codes.auth2 (authRequest slot sector key)) ∧
    exec (.decreaseBalance slot sector key block amount) s = .next ((s.running
      { goal := .balance .decrease, act := .auth slot sector key, rest := [.decBal sector block amount],
        data := [] }).accepted .xfer s.cfg.codes.auth2 (authRequest slot sector key))

/-- R213. `readBlock` in `Authenticated(S)`: READ_BLOCK of `S*4 + block`. -/
def Obligations.ReadBlockStarts : Prop :=
  ∀ (s : State) (sector block : Nat), s.hostBusy = false → s.host.session = .authenticated sector →
    1 ≤ s.cfg.payloadMax →
    exec (.readBlock block) s = .next ((s.running
      { goal := .readBlock, act := .read sector block, rest := [], data := [] }).accepted .xfer s.cfg.codes.readBlock
        [BitVec.ofNat 8 (sector * 4 + block)])

/-- U20 and log 19 (the model's choice, the spec says refuse): the guarded procedures in a session state their guard
does not name. -/
def Obligations.WrongSessionIsRefused : Prop :=
  ∀ (s : State) (slot : KeySlot) (sector block : Nat) (key data : List Byte) (amount : Word) (blocks : List Nat),
    s.hostBusy = false →
    (s.host.session.canAuthenticate = false →
      exec (.authenticate sector key slot) s = .refused .wrongSession ∧
      exec (.readSector sector key blocks) s = .refused .wrongSession ∧
      exec (.writeBlock slot sector key block data) s = .refused .wrongSession ∧
      exec (.initBalance slot sector key block amount) s = .refused .wrongSession ∧
      exec (.readBalance slot sector key block) s = .refused .wrongSession ∧
      exec (.increaseBalance slot sector key block amount) s = .refused .wrongSession ∧
      exec (.decreaseBalance slot sector key block amount) s = .refused .wrongSession) ∧
    ((∀ S, s.host.session ≠ .authenticated S) → exec (.readBlock block) s = .refused .wrongSession)

/-! ### The frame of every instruction -/

/-- What no instruction changes in the event that starts it: the parameters, the inputs to come, the result registers,
`RXB` at every index, the TX side of LINE, what HOST has read and reported; and for the instructions that present a request, what
LINE holds for DEC and every register of DEC. One that only waits changes nothing but HOST's agenda (log 13). One that
presents a request changes nothing of HOST, one that begins a procedure nothing but what beginning it changes (log 21);
both leave `TXP` at every index from the length of the payload on. -/
def Obligations.InstructionFrame : Prop :=
  ∀ (i : Instr) (s t : State), exec i s = .next t →
    t.cfg = s.cfg ∧ t.env = s.env ∧ t.host.lastXfer = s.host.lastXfer ∧ t.host.reports = s.host.reports ∧
    t.line.held = s.line.held ∧ t.line.sent = s.line.sent ∧ t.line.flushes = s.line.flushes ∧
    t.fcc.resKind = s.fcc.resKind ∧ t.fcc.resCmd = s.fcc.resCmd ∧ t.fcc.resStatus = s.fcc.resStatus ∧
    t.fcc.resDlen = s.fcc.resDlen ∧ t.fcc.rxLen = s.fcc.rxLen ∧ t.fcc.rxCnt = s.fcc.rxCnt ∧
    t.fcc.rxXor = s.fcc.rxXor ∧ (∀ a, t.fcc.rxb.read a = s.fcc.rxb.read a) ∧
    (arriving i = true → t.fcc = s.fcc ∧ t.host = s.host) ∧
    (arriving i = false → t.line.rx = s.line.rx) ∧
    (i = .decode → t.fcc.txp = s.fcc.txp ∧ t.fcc.chCmd = s.fcc.chCmd ∧ t.fcc.chLen = s.fcc.chLen ∧
      t.fcc.txPhase = s.fcc.txPhase ∧ t.fcc.txIdx = s.fcc.txIdx ∧ t.fcc.txXor = s.fcc.txXor) ∧
    (i ≠ .decode → t.fcc.rxPhase = s.fcc.rxPhase ∧ t.fcc.rxHa = s.fcc.rxHa ∧ t.fcc.rxPd = s.fcc.rxPd) ∧
    (s.hostBusy = true → arriving i = false →
      t.fcc = s.fcc ∧ t.line = s.line ∧ t.host = { s.host with agenda := .op i :: s.host.agenda }) ∧
    (i = .decode → s.hostBusy = false → t.host = s.host) ∧
    (s.hostBusy = false → ∀ (op : Operation) (command : Word) (payload : List Byte),
      requestOf s.cfg i = some (op, command, payload) → t.host = s.host ∧
        (s.fcc.txp.wf → ∀ a, payload.length ≤ a → t.fcc.txp.read a = s.fcc.txp.read a)) ∧
    (s.hostBusy = false → requestOf s.cfg i = none → arriving i = false → i ≠ .decode → ∃ p : Proc,
      t.host = (if p.act = .request then (s.selecting p).host else (s.running p).host) ∧
        (s.fcc.txp.wf → ∀ a, (p.act.xfer s.cfg).2.length ≤ a → t.fcc.txp.read a = s.fcc.txp.read a))

/-! ### TX byte events -/

/-- R115 to R118. The header and the length field, one byte each: the byte goes to LINE and the phase goes on. -/
def Obligations.HeaderAndLengthBytes : Prop :=
  ∀ s u : State, u = s.lineEvent s.env.current → s.env.current.rst = false → s.env.current.txReady = true →
    s.fcc.chPhase = .send →
    (s.fcc.txPhase = .hdr0 → step s = .next { u with
      fcc := { u.fcc with txPhase := .hdr1 }, line := { u.line with held := u.line.held ++ [0xAA] } }) ∧
    (s.fcc.txPhase = .hdr1 → step s = .next { u with
      fcc := { u.fcc with txPhase := .len0 }, line := { u.line with held := u.line.held ++ [0xBB] } }) ∧
    (s.fcc.txPhase = .len0 → step s = .next { u with
      fcc := { u.fcc with txPhase := .len1 },
      line := { u.line with held := u.line.held ++ [lo8 (5 + u.fcc.chLen)] } }) ∧
    (s.fcc.txPhase = .len1 → step s = .next { u with
      fcc := { u.fcc with txPhase := .body },
      line := { u.line with held := u.line.held ++ [hi8 (5 + u.fcc.chLen)] } })

/-- R119, R120, with `B` of R114. A body byte, and the stuffing byte behind an `AA`. -/
def Obligations.BodyBytes : Prop :=
  ∀ s u : State, u = s.lineEvent s.env.current → s.env.current.rst = false → s.env.current.txReady = true →
    s.fcc.chPhase = .send →
    (∀ (f : Fcc) (i : Word), f.bodyByte i =
      if i.toNat < 2 then 0xFF else if i.toNat = 2 then lo8 f.chCmd else if i.toNat = 3 then hi8 f.chCmd
      else f.txp.read (i.toNat - 4)) ∧
    (s.fcc.txPhase = .body → step s = .next { u with
      fcc := { u.fcc with
        txXor := u.fcc.txXor ^^^ u.fcc.bodyByte u.fcc.txIdx
        txIdx := u.fcc.txIdx + 1
        txPhase := if u.fcc.bodyByte u.fcc.txIdx = 0xAA then .bstuff
          else if u.fcc.txIdx + 1 = u.fcc.chLen + 4 then .csum else .body }
      line := { u.line with held := u.line.held ++ [u.fcc.bodyByte u.fcc.txIdx] } }) ∧
    (s.fcc.txPhase = .bstuff → step s = .next { u with
      fcc := { u.fcc with txPhase := if u.fcc.txIdx = u.fcc.chLen + 4 then .csum else .body }
      line := { u.line with held := u.line.held ++ [0x00] } })

/-- R121, R182. The checksum byte and its stuffing; ENC is idle and CH flushes (ENCODE alone ends, log 6). In every
state that meets the invariant the byte sent is the XOR-fold of the body. -/
def Obligations.ChecksumBytes : Prop :=
  ∀ s u : State, u = s.lineEvent s.env.current → s.env.current.rst = false → s.env.current.txReady = true →
    s.fcc.chPhase = .send →
    (s.fcc.txPhase = .csum → s.fcc.txXor ≠ 0xAA → step s = .next { u with
      fcc := { u.fcc with txPhase := .idle, chPhase := if u.fcc.op = .encode then .idle else .flush },
      line := { u.line with held := u.line.held ++ [u.fcc.txXor] } }) ∧
    (s.fcc.txPhase = .csum → s.fcc.txXor = 0xAA → step s = .next { u with
      fcc := { u.fcc with txPhase := .cstuff }, line := { u.line with held := u.line.held ++ [u.fcc.txXor] } }) ∧
    (s.fcc.txPhase = .cstuff → step s = .next { u with
      fcc := { u.fcc with txPhase := .idle, chPhase := if u.fcc.op = .encode then .idle else .flush },
      line := { u.line with held := u.line.held ++ [0x00] } }) ∧
    (s.Inv → s.fcc.txPhase = .csum →
      s.fcc.txXor = xor8 ((List.range (s.fcc.chLen.toNat + 4)).map fun i => s.fcc.bodyByte (BitVec.ofNat 16 i)))

/-- R183, R146. The flush and the start of DEC; `tx_flush` and `rx_ready` follow the phases. -/
def Obligations.FlushStartsDec : Prop :=
  (∀ f : Fcc, (f.txFlush = true ↔ f.chPhase = .flush) ∧
    (f.rxReady = true ↔ f.rxPhase = .hunt ∨ f.rxPhase = .len0 ∨ f.rxPhase = .len1 ∨ f.rxPhase = .body)) ∧
  ∀ s u : State, u = s.lineEvent s.env.current → s.env.current.rst = false → s.fcc.chPhase = .flush →
    (s.env.current.flushAck = true → step s = .next { u with
      fcc := { u.fcc with chPhase := .recv, rxPhase := .hunt, rxHa := false, rxPd := false },
      line := { u.line with sent := u.line.sent ++ u.line.held, held := [], flushes := u.line.flushes + 1 } }) ∧
    (s.env.current.flushAck = false → step s = .next u)

/-! ### RX byte events -/

/-- R147, R148, R149. A hunted byte and the two length bytes, whatever their values; a length of 0 is a FramingError at
once (R157). -/
def Obligations.HuntAndLengthBytes : Prop :=
  ∀ (s u : State) (b : Byte) (rest : List Byte), u = s.lineEvent s.env.current → s.env.current.rst = false →
    s.env.current.offer = true → s.fcc.chPhase = .recv → u.line.rx = b :: rest →
    (s.fcc.rxPhase = .hunt → s.fcc.rxHa = true ∧ b = 0xBB →
      step s = .next { u with fcc := { u.fcc with rxPhase := .len0 }, line := { u.line with rx := rest } }) ∧
    (s.fcc.rxPhase = .hunt → ¬ (s.fcc.rxHa = true ∧ b = 0xBB) →
      step s = .next { u with fcc := { u.fcc with rxHa := b == 0xAA }, line := { u.line with rx := rest } }) ∧
    (s.fcc.rxPhase = .len0 → step s = .next { u with
      fcc := { u.fcc with rxLen := le16 b (hi8 u.fcc.rxLen), rxPhase := .len1 },
      line := { u.line with rx := rest } }) ∧
    (s.fcc.rxPhase = .len1 → le16 (lo8 u.fcc.rxLen) b ≠ 0 → step s = .next { u with
      fcc := { u.fcc with rxLen := le16 (lo8 u.fcc.rxLen) b, rxCnt := 0, rxPd := false, rxXor := 0x00,
                          rxPhase := .body },
      line := { u.line with rx := rest } }) ∧
    (s.fcc.rxPhase = .len1 → le16 (lo8 u.fcc.rxLen) b = 0 → step s = .next { u with
      fcc := { u.fcc with rxLen := 0, rxCnt := 0, rxPd := false, rxXor := 0x00,
                          resKind := .framing, rxPhase := .idle, chPhase := .done },
      line := { u.line with rx := rest } })

/-- R151. One raw body byte: a stuffing partner is dropped, any other byte is a logical byte, and the last one is
evaluated in the same event. -/
def Obligations.BodyByteReceived : Prop :=
  ∀ (s u : State) (b : Byte) (rest : List Byte) (g : Fcc), u = s.lineEvent s.env.current →
    s.env.current.rst = false → s.env.current.offer = true → s.fcc.chPhase = .recv → s.fcc.rxPhase = .body →
    u.line.rx = b :: rest →
    g = { u.fcc with
      rxb := if u.fcc.rxCnt.toNat < u.cfg.rxBufMax then u.fcc.rxb.write u.fcc.rxCnt.toNat b else u.fcc.rxb
      rxXor := u.fcc.rxXor ^^^ b
      rxCnt := u.fcc.rxCnt + 1
      rxPd := b == 0xAA } →
    (s.fcc.rxPd = true ∧ b = 0x00 →
      step s = .next { u with fcc := { u.fcc with rxPd := false }, line := { u.line with rx := rest } }) ∧
    (¬ (s.fcc.rxPd = true ∧ b = 0x00) → u.fcc.rxCnt + 1 ≠ u.fcc.rxLen →
      step s = .next { u with fcc := g, line := { u.line with rx := rest } }) ∧
    (¬ (s.fcc.rxPd = true ∧ b = 0x00) → u.fcc.rxCnt + 1 = u.fcc.rxLen →
      step s = .next { u with fcc := g.evaluate u.cfg.rxBufMax, line := { u.line with rx := rest } })

/-- R245, with R157, R159, R184 to R186. The evaluation: FramingError, then ChecksumError, then CommandMismatchError,
then success, and what each writes. -/
def Obligations.EvaluationOrder : Prop :=
  ∀ (f : Fcc) (rxBufMax : Nat),
    (f.rxLen.toNat < 6 ∨ rxBufMax < f.rxLen.toNat →
      f.evaluate rxBufMax = { f with resKind := .framing, rxPhase := .idle, chPhase := .done }) ∧
    (¬ (f.rxLen.toNat < 6 ∨ rxBufMax < f.rxLen.toNat) → f.rxb.read 4 = 0x00 ∧ f.rxXor ≠ 0x00 →
      f.evaluate rxBufMax = { f with resKind := .checksum, resCmd := le16 (f.rxb.read 2) (f.rxb.read 3),
                                     rxPhase := .idle, chPhase := .done }) ∧
    (¬ (f.rxLen.toNat < 6 ∨ rxBufMax < f.rxLen.toNat) → ¬ (f.rxb.read 4 = 0x00 ∧ f.rxXor ≠ 0x00) →
      f.op = .xfer → le16 (f.rxb.read 2) (f.rxb.read 3) ≠ f.chCmd →
      f.evaluate rxBufMax = { f with resKind := .mismatch, resCmd := le16 (f.rxb.read 2) (f.rxb.read 3),
                                     rxPhase := .idle, chPhase := .done }) ∧
    (¬ (f.rxLen.toNat < 6 ∨ rxBufMax < f.rxLen.toNat) → ¬ (f.rxb.read 4 = 0x00 ∧ f.rxXor ≠ 0x00) →
      f.op = .xfer → le16 (f.rxb.read 2) (f.rxb.read 3) = f.chCmd →
      f.evaluate rxBufMax = { f with resKind := .ok, resCmd := le16 (f.rxb.read 2) (f.rxb.read 3),
                                     resStatus := f.rxb.read 4, resDlen := f.rxLen - 6,
                                     rxPhase := .idle, chPhase := .done })

/-- R249, R244. An error outcome in one step, whichever it is: `RES_KIND` (and `RES_CMD` where its rule says so) and
the phases are written, exactly one RX byte more is gone, the TX side of LINE is untouched, and no other register
changes but those in which DEC has accepted that byte (R149, R151). -/
def Obligations.ErrorEntry : Prop :=
  ∀ s t u : State, u = s.lineEvent s.env.current → s.env.current.rst = false → s.fcc.chPhase = .recv →
    step s = .next t → t.fcc.chPhase = .done → t.fcc.resKind ≠ .ok →
    t.fcc.rxPhase = .idle ∧ t.fcc.rxReady = false ∧ t.fcc.rspValid = true ∧
    (t.fcc.resKind = .framing → t.fcc.resCmd = s.fcc.resCmd) ∧
    (t.fcc.resKind ≠ .framing → t.fcc.resCmd = le16 (t.fcc.rxb.read 2) (t.fcc.rxb.read 3)) ∧
    t.fcc.resStatus = s.fcc.resStatus ∧ t.fcc.resDlen = s.fcc.resDlen ∧
    (∃ b, u.line.rx = b :: t.line.rx) ∧ t.line.held = u.line.held ∧ t.line.sent = u.line.sent ∧
    t.line.flushes = u.line.flushes ∧ t.host = s.host ∧ t.cfg = s.cfg ∧
    t.fcc.chCmd = s.fcc.chCmd ∧ t.fcc.chLen = s.fcc.chLen ∧ t.fcc.txp = s.fcc.txp ∧
    t.fcc.txPhase = s.fcc.txPhase ∧ t.fcc.txIdx = s.fcc.txIdx ∧ t.fcc.txXor = s.fcc.txXor ∧
    t.fcc.op = s.fcc.op ∧ t.env = u.env ∧ t.fcc.rxHa = s.fcc.rxHa ∧
    (s.fcc.rxPhase = .len1 ∨ s.fcc.rxPhase = .body) ∧
    (s.fcc.rxPhase = .len1 → t.fcc.rxLen = 0 ∧ t.fcc.rxCnt = 0 ∧ t.fcc.rxXor = 0x00 ∧ t.fcc.rxPd = false ∧
      t.fcc.rxb = s.fcc.rxb) ∧
    (s.fcc.rxPhase = .body → ∀ b, u.line.rx = b :: t.line.rx →
      t.fcc.rxLen = s.fcc.rxLen ∧ t.fcc.rxCnt = s.fcc.rxCnt + 1 ∧ t.fcc.rxXor = s.fcc.rxXor ^^^ b ∧
      t.fcc.rxPd = (b == 0xAA) ∧ t.fcc.rxb = if s.fcc.rxCnt.toNat < s.cfg.rxBufMax
        then s.fcc.rxb.write s.fcc.rxCnt.toNat b else s.fcc.rxb)

/-- R188, R250. The result is taken: CH is idle, every other register and `RXB` keep their values, LINE is untouched,
and HOST has read what the port shows for the kind of the result (R39 to R42, R187); that it reads the valid fields, and
reads them in this event, is log 27. That with no procedure in progress nothing else of HOST changes, the session and
the handle neither, is log 22. -/
def Obligations.TakingTheResult : Prop :=
  ∀ s u : State, u = s.lineEvent s.env.current → s.env.current.rst = false → s.fcc.chPhase = .done →
    (s.env.current.take = true → ∃ r, step s = .next { u with
        fcc := { u.fcc with chPhase := .idle }, host := u.host.afterResult u.cfg r } ∧
      (s.fcc.resKind = .ok → r = .ok s.fcc.resCmd s.fcc.resStatus
        ((List.range s.fcc.resDlen.toNat).map fun i => s.fcc.rxb.read (5 + i))) ∧
      (s.fcc.resKind = .framing → r = .framing) ∧ (s.fcc.resKind = .checksum → r = .checksum s.fcc.resCmd) ∧
      (s.fcc.resKind = .mismatch → r = .mismatch s.fcc.resCmd) ∧
      (s.host.proc = none → u.host.afterResult u.cfg r = { u.host with lastXfer := some r })) ∧
    (s.env.current.take = false → step s = .next u)

/-- What LINE and DEVICE do at the start of every event, reset or not, which is what `u` stands for in every statement
about an event: some of the oldest held bytes leave, in order and none lost (R51, R53), the bytes that arrive stand
behind what LINE holds (R56), a LINE of finite depth takes those it has room for (log 11), exactly one input is used up
(log 4, log 29), and nothing else changes. Beyond that, a partner that does not answer leaves FCC as it is: the agent
has no step (R51, R52, R53, R254). -/
def Obligations.BlockedAgentsStay : Prop :=
  (∀ s u : State, u = s.lineEvent s.env.current →
    u.fcc = s.fcc ∧ u.host = s.host ∧ u.cfg = s.cfg ∧
    u.line.sent = s.line.sent ++ s.line.held.take s.env.current.leave ∧
    u.line.held = s.line.held.drop s.env.current.leave ∧
    u.line.sent ++ u.line.held = s.line.sent ++ s.line.held ∧ u.line.flushes = s.line.flushes ∧
    (s.cfg.lineDepth = none → u.line.rx = s.line.rx ++ s.env.current.arrive) ∧
    (∀ depth, s.cfg.lineDepth = some depth →
      u.line.rx = s.line.rx ++ s.env.current.arrive.take (depth - s.line.rx.length)) ∧
    (s.env.script = [] → s.env.current = s.env.rest ∧ u.env = s.env) ∧
    ∀ x xs, s.env.script = x :: xs → s.env.current = x ∧ u.env = ⟨xs, s.env.rest⟩) ∧
  ∀ s u : State, u = s.lineEvent s.env.current → s.env.current.rst = false → s.Inv →
    (s.fcc.chPhase = .send → s.env.current.txReady = false → step s = .next u) ∧
    (s.fcc.chPhase = .flush → s.env.current.flushAck = false → step s = .next u) ∧
    (s.fcc.chPhase = .recv → s.env.current.offer = false ∨ u.line.rx = [] → step s = .next u)

/-- R43. The output signals as functions of the registers; `RES_KIND` has the codes of R39. -/
def Obligations.OutputSignals : Prop :=
  ∀ f : Fcc, (f.reqReady = true ↔ f.chPhase = .idle) ∧ (f.busy = true ↔ f.chPhase ≠ .idle) ∧
    (f.rspValid = true ↔ f.chPhase = .done) ∧ (f.txValid = true ↔ f.txPhase ≠ .idle) ∧
    (f.resKind = .ok → f.rspKind = 0) ∧ (f.resKind = .framing → f.rspKind = 1) ∧
    (f.resKind = .checksum → f.rspKind = 2) ∧ (f.resKind = .mismatch → f.rspKind = 3) ∧
    f.rspCmd = f.resCmd ∧ f.rspStatus = f.resStatus ∧ f.rspLen = f.resDlen ∧
    f.rspData.length = f.resDlen.toNat ∧ ∀ i < f.resDlen.toNat, f.rspData[i]? = some (f.rxb.read (5 + i))

/-! ### Whole operations, with partners that answer at once -/

/-- R110, R122 (b), (e). ENCODE and FRAME_OUT from acceptance to end: the bytes handed to LINE are exactly `wire`, one
per event, and FCC is idle again. That ENCODE runs alone and ends idle is log 6, FRAME_OUT as its start log 7. -/
def Obligations.EncodeSendsTheFrame : Prop :=
  ∀ (i : Instr) (command : Word) (payload : List Byte) (s : State),
    i = .encode command payload ∨ i = .frameOut command payload →
    s.hostBusy = false → s.env = Env.ready → s.cfg.wf → s.fcc.txp.wf → payload.length ≤ s.cfg.payloadMax →
    ∃ t, exec i s = .next t ∧
      run (wire command payload).length t = .next { t with
        fcc := { t.fcc with chPhase := .idle, txPhase := .idle, txIdx := t.fcc.chLen + 4,
                            txXor := checksum command payload }
        line := { s.line with held := s.line.held ++ wire command payload } }

/-- R140, R165 (run alone: log 6). DECODE from its start to its end on what LINE holds: DECODE's result and position,
or DEC is stuck with every byte consumed. -/
def Obligations.DecodeReadsTheStream : Prop :=
  ∀ s : State, s.hostBusy = false → s.env = Env.ready → s.fcc.rxb.wf →
    ∃ t, exec .decode s = .next t ∧
      (∀ r rest, decodeStream s.cfg.rxBufMax s.line.rx = some (r, rest) →
        ∃ v, run (s.line.rx.length - rest.length) t = .next v ∧ v.fcc.chPhase = .done ∧
          v.fcc.readResult = decodeResult r ∧ v.line = { s.line with rx := rest } ∧ v.host = s.host) ∧
      (decodeStream s.cfg.rxBufMax s.line.rx = none →
        ∃ v, run s.line.rx.length t = .next v ∧ v.fcc.chPhase = .recv ∧ v.line = { s.line with rx := [] } ∧
          step v = .next v)

/-- R180, R190 (a), (b), (e), (g). XFER from acceptance to result: the bytes of ENCODE, one flush, one DECODE, the echo
check; or stuck where DECODE is. The result is a function of the operands and of what LINE holds. -/
def Obligations.XferIsEncodeFlushDecode : Prop :=
  ∀ (command : Word) (payload : List Byte) (s : State), s.hostBusy = false → s.env = Env.ready → s.cfg.wf →
    s.fcc.txp.wf → s.fcc.rxb.wf → payload.length ≤ s.cfg.payloadMax →
    ∃ t, exec (.xfer command payload) s = .next t ∧
      (∀ r rest, decodeStream s.cfg.rxBufMax s.line.rx = some (r, rest) →
        ∃ v, run ((wire command payload).length + 1 + (s.line.rx.length - rest.length)) t = .next v ∧
          v.fcc.chPhase = .done ∧ v.fcc.readResult = xferResult command r ∧
          v.line = { rx := rest, held := [], sent := s.line.sent ++ s.line.held ++ wire command payload,
                     flushes := s.line.flushes + 1 } ∧
          v.host = s.host ∧ v.cfg = s.cfg) ∧
      (decodeStream s.cfg.rxBufMax s.line.rx = none →
        ∃ v, run ((wire command payload).length + 1 + s.line.rx.length) t = .next v ∧ v.fcc.chPhase = .recv ∧
          v.line = { rx := [], held := [], sent := s.line.sent ++ s.line.held ++ wire command payload,
                     flushes := s.line.flushes + 1 } ∧
          step v = .next v)

/-- R82, R143, R156. A FRAME_IN that arrives (log 7) while DEC hunts on an empty, unbounded LINE: DEC takes the frame,
and HOST reads the result of its logical bytes; the partner of a final `AA` stays. -/
def Obligations.FrameInIsDecoded : Prop :=
  ∀ (noise logical : List Byte) (s : State), noiseOk noise = true → logical.length ≤ 65535 →
    s.env = Env.ready → s.cfg.lineDepth = none → s.fcc.rxb.wf →
    s.fcc.chPhase = .recv → s.fcc.rxPhase = .hunt → s.fcc.rxHa = false → s.line.rx = [] →
    ∃ t, exec (.frameIn noise logical) s = .next t ∧
      ∃ n v, run n t = .next v ∧ v.fcc.chPhase = .done ∧
        v.fcc.readResult = resultOf s.fcc.op s.fcc.chCmd (evaluate s.cfg.rxBufMax logical) ∧
        v.line = { s.line with rx := if logical.getLast? = some 0xAA then [0x00] else [] }

/-- R83, R88 on the RX side, with an empty, unbounded LINE (log 7). HDR takes a hunting DEC to the length field; ESC is one logical `AA` of the body, with
PendingDestuff cleared. -/
def Obligations.HdrAndEscAreTaken : Prop :=
  ∀ s : State, s.env = Env.ready → s.cfg.lineDepth = none → s.fcc.chPhase = .recv → s.line.rx = [] →
    (s.fcc.rxPhase = .hunt → ∃ t, exec .hdr s = .next t ∧
      run 2 t = .next { s with fcc := { s.fcc with rxPhase := .len0, rxHa := true } }) ∧
    (s.fcc.rxPhase = .body → s.fcc.rxPd = false → s.fcc.rxCnt + 1 ≠ s.fcc.rxLen → ∃ t, exec .esc s = .next t ∧
      run 2 t = .next { s with fcc := { s.fcc with
        rxb := if s.fcc.rxCnt.toNat < s.cfg.rxBufMax then s.fcc.rxb.write s.fcc.rxCnt.toNat 0xAA else s.fcc.rxb
        rxXor := s.fcc.rxXor ^^^ 0xAA
        rxCnt := s.fcc.rxCnt + 1
        rxPd := false } })

/-- R163, with an unbounded LINE. Whatever the schedule: where DEC, started on what LINE holds, has ended after some events in which bytes
arrived in any grouping, with LINE offering or not, HOST reads DECODE's result of the whole sequence of bytes, and what
is left is what DECODE leaves. -/
def Obligations.DecodeIsScheduleIndependent : Prop :=
  ∀ (xs : List Input) (s t : State), s.env.script = xs → s.cfg.lineDepth = none → s.fcc.rxb.wf →
    s.fcc.chPhase = .recv → s.fcc.rxPhase = .hunt → s.fcc.rxHa = false →
    (∀ x ∈ xs, x.rst = false ∧ x.take = false) → run xs.length s = .next t → t.fcc.chPhase = .done →
    ∃ r rest, decodeStream s.cfg.rxBufMax (s.line.rx ++ arrivals xs) = some (r, rest) ∧ t.line.rx = rest ∧
      t.fcc.readResult = resultOf s.fcc.op s.fcc.chCmd r

/-! ### The codec as functions -/

/-- R85. LE16 assembly, and the low byte of both fields of an outbound frame goes first. -/
def Obligations.Le16Assembly : Prop :=
  (∀ b0 b1 : Byte, (le16 b0 b1).toNat = b0.toNat + 256 * b1.toNat) ∧
  (∀ v : Word, lo8 v = v.extractLsb' 0 8 ∧ hi8 v = v.extractLsb' 8 8 ∧ le16 (lo8 v) (hi8 v) = v) ∧
  ∀ (command len : Word) (payload : List Byte), len = BitVec.ofNat 16 (5 + payload.length) →
    wire command payload = [0xAA, 0xBB, lo8 len, hi8 len] ++
      stuff ([0xFF, 0xFF, lo8 command, hi8 command] ++ payload) ++ stuff [checksum command payload]

/-- R88. Byte stuffing: its definition, its length, and, as the spec derives it from the definition, that it distributes
over concatenation. -/
def Obligations.ByteStuffing : Prop :=
  stuff [] = [] ∧
  (∀ (b : Byte) (t : List Byte), stuff (b :: t) = if b = 0xAA then [0xAA, 0x00] ++ stuff t else [b] ++ stuff t) ∧
  (∀ s : List Byte, (stuff s).length = s.length + s.count 0xAA) ∧
  ∀ s t : List Byte, stuff (s ++ t) = stuff s ++ stuff t

/-- R89, R143. Stuffing removal is the inverse of stuffing, also when DEC counts the logical bytes. -/
def Obligations.DestuffInvertsStuff : Prop :=
  ∀ s rest : List Byte, destuff false (stuff s) = s ∧
    takeBody s.length false (stuff s ++ rest) =
      some (s, if s.getLast? = some 0xAA then 0x00 :: rest else rest)

/-- R152, R153. The corners of stuffing removal, where DEC takes so many logical bytes from the Normal state: `AA` and
another byte, `AA 00 00`, `AA 00 AA 00`, `AA AA 00`, `00`; and in the event itself, a byte behind an `AA`. -/
def Obligations.StuffingRemovalCorners : Prop :=
  (∀ (n : Nat) (t : List Byte) (x : Byte), x ≠ 0x00 →
    takeBody (n + 2) false (0xAA :: x :: t) =
      (takeBody n (x == 0xAA) t).map (fun r => (0xAA :: x :: r.1, r.2)) ∧
    takeBody (n + 2) false (0xAA :: 0x00 :: 0x00 :: t) =
      (takeBody n false t).map (fun r => (0xAA :: 0x00 :: r.1, r.2)) ∧
    takeBody (n + 3) false (0xAA :: 0x00 :: 0xAA :: 0x00 :: t) =
      (takeBody (n + 1) false t).map (fun r => (0xAA :: 0xAA :: r.1, r.2)) ∧
    takeBody (n + 3) false (0xAA :: 0xAA :: 0x00 :: t) =
      (takeBody (n + 1) false t).map (fun r => (0xAA :: 0xAA :: r.1, r.2)) ∧
    takeBody (n + 1) false (0x00 :: t) = (takeBody n false t).map (fun r => (0x00 :: r.1, r.2))) ∧
  ∀ (f : Fcc) (rxBufMax : Nat) (b : Byte), f.rxPhase = .body → f.rxCnt + 1 ≠ f.rxLen →
    (f.rxPd = true → b = 0x00 → f.rxNext rxBufMax b = { f with rxPd := false }) ∧
    (f.rxPd = false ∨ b ≠ 0x00 → f.rxNext rxBufMax b = { f with
      rxb := if f.rxCnt.toNat < rxBufMax then f.rxb.write f.rxCnt.toNat b else f.rxb
      rxXor := f.rxXor ^^^ b
      rxCnt := f.rxCnt + 1
      rxPd := b == 0xAA })

/-- R90. The XOR-fold, whatever the order. -/
def Obligations.XorFold : Prop :=
  xor8 [] = 0x00 ∧ (∀ (s : List Byte) (b : Byte), xor8 (s ++ [b]) = xor8 s ^^^ b) ∧
  ∀ s t : List Byte, s.Perm t → xor8 s = xor8 t

/-- R91, as the spec derives it from R88 and R90. Stuffing bytes do not change the fold; the checksum of a request. -/
def Obligations.ChecksumIgnoresStuffing : Prop :=
  (∀ s : List Byte, xor8 (stuff s) = xor8 s) ∧
  ∀ (command : Word) (payload : List Byte),
    checksum command payload = xor8 (stuff ([0xFF, 0xFF, lo8 command, hi8 command] ++ payload)) ∧
    checksum command payload = lo8 command ^^^ hi8 command ^^^ xor8 payload

/-- R81. The outbound frame byte by byte. -/
def Obligations.OutboundFrame : Prop :=
  ∀ (command : Word) (payload : List Byte),
    wire command payload =
      [0xAA, 0xBB, BitVec.ofNat 8 (5 + payload.length), BitVec.ofNat 8 ((5 + payload.length) / 256)] ++
        stuff ([0xFF, 0xFF, lo8 command, hi8 command] ++ payload ++
          [xor8 ([0xFF, 0xFF, lo8 command, hi8 command] ++ payload)])

/-- R94, R122 (e), (f), as the spec derives them. The frame has `9 + L + k` bytes; behind the length field every `AA` is
followed by `00`, so the pair `AA BB` stands at index 0 only, or also at index 2 when the length is `0xBBAA`. -/
def Obligations.FrameLengthAndHeaderPair : Prop :=
  ∀ (command : Word) (payload : List Byte), payload.length ≤ 65530 →
    (wire command payload).length =
      9 + payload.length + ([lo8 command, hi8 command] ++ payload ++ [checksum command payload]).count 0xAA ∧
    (∀ i : Nat, 4 ≤ i → (wire command payload)[i]? = some 0xAA → (wire command payload)[i + 1]? = some 0x00) ∧
    ∀ i : Nat, (wire command payload)[i]? = some 0xAA → (wire command payload)[i + 1]? = some 0xBB →
      i = 0 ∨ (i = 2 ∧ payload.length = 48037)

/-- R161. Round trip: DECODE on a stream that begins with the frame of a request gives its command, status and data,
and leaves the partner of a checksum `AA`; of an empty payload it gives FramingError. -/
def Obligations.RoundTrip : Prop :=
  ∀ (rxBufMax : Nat) (command : Word) (payload rest left : List Byte),
    6 ≤ rxBufMax → payload.length ≤ 65530 → payload.length ≤ rxBufMax - 5 →
    left = (if checksum command payload = 0xAA then 0x00 :: rest else rest) →
    (∀ status data, payload = status :: data →
      decodeStream rxBufMax (wire command payload ++ rest) = some (.ok command status data, left)) ∧
    (payload = [] → decodeStream rxBufMax (wire command payload ++ rest) = some (.framing, left))

/-- R162, in the precise form the spec derives from R141. Noise without the pair `AA BB` in front of a header changes
nothing, whatever follows the header. -/
def Obligations.HeaderResync : Prop :=
  ∀ (rxBufMax : Nat) (z w : List Byte), (∀ i : Nat, ¬ (z[i]? = some 0xAA ∧ z[i + 1]? = some 0xBB)) →
    w[0]? = some 0xAA → w[1]? = some 0xBB → decodeStream rxBufMax (z ++ w) = decodeStream rxBufMax w

/-- R164, first two rows. In a frame with status `00` a logical byte other than the status that neither is nor becomes
`AA` is changed, be it by one bit or more: ChecksumError, always. The status changed to a nonzero value: the checksum
is no longer looked at. -/
def Obligations.ChecksumSensitivity : Prop :=
  ∀ (rxBufMax : Nat) (command : Word) (payload pre post rest : List Byte) (u v : Byte),
    payload.length ≤ 65530 → payload.length + 5 ≤ rxBufMax → payload.head? = some 0x00 →
    [0xFF, 0xFF, lo8 command, hi8 command] ++ payload ++ [checksum command payload] = pre ++ u :: post →
    u ≠ 0xAA → v ≠ 0xAA → u ≠ v →
    (pre.length ≠ 4 → ∃ rest',
      decodeStream rxBufMax ((wire command payload).take 4 ++ stuff pre ++ v :: stuff post ++ rest) =
        some (.checksum (le16 ((pre ++ v :: post).getD 2 0) ((pre ++ v :: post).getD 3 0)), rest')) ∧
    (pre.length = 4 → ∃ rest',
      decodeStream rxBufMax ((wire command payload).take 4 ++ stuff pre ++ v :: stuff post ++ rest) =
        some (.ok command v payload.tail, rest'))

/-! ### HOST's procedures: what a result does -/

/-- R210 to R230. The command and the payload of each XFER of a procedure. -/
def Obligations.ProcedurePayloads : Prop :=
  ∀ (cfg : Config) (cardType : Word) (serial : List Byte) (slot : KeySlot) (sector block : Nat)
    (key data : List Byte) (amount : Word),
    Act.request.xfer cfg = (cfg.codes.request, [0x52]) ∧
    (Act.anticoll cardType).xfer cfg = (cfg.codes.anticoll, [0x04]) ∧
    (cardType = cfg.cardTypes.ultralight → (Act.third cardType serial).xfer cfg = (cfg.codes.ulSelect, [])) ∧
    (cardType ≠ cfg.cardTypes.ultralight → (Act.third cardType serial).xfer cfg = (cfg.codes.select, serial)) ∧
    Act.halt.xfer cfg = (cfg.codes.halt, []) ∧
    (Act.auth slot sector key).xfer cfg = (cfg.codes.auth2, authRequest slot sector key) ∧
    (Act.probe slot sector key).xfer cfg = (cfg.codes.auth2, authRequest slot sector key) ∧
    (Act.read sector block).xfer cfg = (cfg.codes.readBlock, [BitVec.ofNat 8 (sector * 4 + block)]) ∧
    (Act.write sector block data).xfer cfg = (cfg.codes.writeBlock, BitVec.ofNat 8 (sector * 4 + block) :: data) ∧
    (Act.readBal sector block).xfer cfg = (cfg.codes.readBal, [BitVec.ofNat 8 (sector * 4 + block)]) ∧
    (Act.initBal sector block amount).xfer cfg =
      (cfg.codes.initBal, [BitVec.ofNat 8 (sector * 4 + block), lo8 amount, hi8 amount]) ∧
    (Act.incBal sector block amount).xfer cfg =
      (cfg.codes.incBal, [BitVec.ofNat 8 (sector * 4 + block), lo8 amount, hi8 amount]) ∧
    (Act.decBal sector block amount).xfer cfg =
      (cfg.codes.decBal, [BitVec.ofNat 8 (sector * 4 + block), lo8 amount, hi8 amount])

/-- A procedure in progress presents its next XFER when CH is idle (log 28: in the event in which HOST presents). -/
def Obligations.ProcedurePresentsItsNextXfer : Prop :=
  ∀ (s u : State) (p : Proc), u = s.lineEvent s.env.current → s.env.current.rst = false →
    s.env.current.present = true → s.fcc.chPhase = .idle → s.host.proc = some p →
    (p.act.xfer s.cfg).2.length ≤ s.cfg.payloadMax →
    step s = .next (u.accepted .xfer (p.act.xfer s.cfg).1 (p.act.xfer s.cfg).2)

/-- R210. `select()` with the three results OK, alone or at the head of another procedure (R222, R230): the card and
the session at its end (the card type is what `cardTypeOf` reads, log 14), and that the procedure goes on with its next
XFER, which for `findKeys` is the first try. -/
def Obligations.SelectRun : Prop :=
  ∀ (cfg : Config) (h : HostAgent) (goal : Goal) (rest : List Act) (c1 c2 c3 : Word)
    (d1 d2 d3 serial data : List Byte),
    h.proc = some { goal := goal, act := .request, rest := rest, data := data } →
    serial = (if cardTypeOf cfg d1 = cfg.cardTypes.ultralight then d3 else d2) →
    (h.afterResult cfg (.ok c1 0x00 d1)).session = .requested (cardTypeOf cfg d1) ∧
    (h.afterResults cfg [.ok c1 0x00 d1, .ok c2 0x00 d2]).session = .anticollided d2 ∧
    (goal = .select → rest = [] → h.afterResults cfg [.ok c1 0x00 d1, .ok c2 0x00 d2, .ok c3 0x00 d3] = { h with
      proc := none, session := .selected (cardTypeOf cfg d1) serial, card := some ⟨cardTypeOf cfg d1, serial⟩,
      lastXfer := some (.ok c3 0x00 d3), outcome := some (.selected (some ⟨cardTypeOf cfg d1, serial⟩)) }) ∧
    ∀ a more, rest = a :: more → h.afterResults cfg [.ok c1 0x00 d1, .ok c2 0x00 d2, .ok c3 0x00 d3] = { h with
      proc := some { goal := goal, act := a, rest := more, data := data },
      session := .selected (cardTypeOf cfg d1) serial, card := some ⟨cardTypeOf cfg d1, serial⟩,
      lastXfer := some (.ok c3 0x00 d3) }

/-- R211. `halt()` is the XFER of HALT with no payload; it ends with status and data whatever the status is, and the
session is `Idle`. That the handle is gone is R200 (valid until a `halt`) as log 21 models it. -/
def Obligations.HaltReports : Prop :=
  ∀ (cfg : Config) (h : HostAgent) (c : Word) (status : Byte) (data d : List Byte),
    Act.halt.xfer cfg = (cfg.codes.halt, []) ∧
    (h.proc = some { goal := .halt, act := .halt, rest := [], data := d } →
    h.afterResult cfg (.ok c status data) = { h with
      proc := none, session := .idle, card := none, lastXfer := some (.ok c status data),
      outcome := some (.halted status data) })

/-- R212, R213, R215, R221. `authenticate` ends in `Authenticated(sector)`, `readBlock` with the data; `writeBlock` and
the balance operations authenticate, then send their command, then end; that each of the four ends with the data of
its response, uninterpreted, is log 32. -/
def Obligations.AuthenticatedRuns : Prop :=
  ∀ (cfg : Config) (h : HostAgent) (slot : KeySlot) (sector block : Nat) (key data d1 d2 : List Byte)
    (amount c1 c2 : Word),
    (h.proc = some ⟨.authenticate sector, .auth slot sector key, [], []⟩ →
      h.afterResult cfg (.ok c1 0x00 d1) = { h with
        proc := none, session := .authenticated sector, lastXfer := some (.ok c1 0x00 d1),
        outcome := some (.authenticated sector) }) ∧
    (h.proc = some ⟨.readBlock, .read sector block, [], []⟩ →
      h.afterResult cfg (.ok c1 0x00 d1) = { h with
        proc := none, lastXfer := some (.ok c1 0x00 d1), outcome := some (.block d1) }) ∧
    (h.proc = some ⟨.writeBlock, .auth slot sector key, [.write sector block data], []⟩ →
      h.afterResults cfg [.ok c1 0x00 d1, .ok c2 0x00 d2] = { h with
        proc := none, session := .authenticated sector, lastXfer := some (.ok c2 0x00 d2), outcome := some .written }) ∧
    ∀ (op : BalanceOp) (a : Act), (op, a) ∈ [(BalanceOp.init, Act.initBal sector block amount),
        (.read, .readBal sector block), (.increase, .incBal sector block amount),
        (.decrease, .decBal sector block amount)] →
      h.proc = some ⟨.balance op, .auth slot sector key, [a], []⟩ →
      h.afterResults cfg [.ok c1 0x00 d1, .ok c2 0x00 d2] = { h with
        proc := none, session := .authenticated sector, lastXfer := some (.ok c2 0x00 d2),
        outcome := some (.balance op d2) }

/-- R214. `readSector`: the data of the blocks in order, concatenated; at the first block that fails it ends with the
error and no data, and reads no further block. The results are given by command and data. -/
def Obligations.ReadSectorRun : Prop :=
  ∀ (cfg : Config) (h : HostAgent) (sector : Nat) (key d0 : List Byte) (blocks : List Nat) (c0 : Word)
    (datas : List (Word × List Byte)) (r0 : XferResult), r0 = .ok c0 0x00 d0 →
    h.proc = some ⟨.readSector, .auth .A sector key, blocks.map (fun b => .read sector b), []⟩ →
    (datas.length = blocks.length → ∃ last,
      h.afterResults cfg (r0 :: datas.map fun d => .ok d.1 0x00 d.2) = { h with
        proc := none, session := .authenticated sector, lastXfer := some last,
        outcome := some (.sector (datas.map Prod.snd).flatten) }) ∧
    ∀ (c : Word) (status : Byte) (d : List Byte), datas.length < blocks.length → status ≠ 0x00 →
      h.afterResults cfg (r0 :: (datas.map fun d => .ok d.1 0x00 d.2) ++ [.ok c status d]) = { h with
        proc := none, session := .idle, card := none, lastXfer := some (.ok c status d),
        outcome := some (.failed (.read status)) }

/-- R204, R205, R247. A nonzero status ends a procedure with the error of the operation that failed, which carries the
code; the handle is gone and the session is `Idle`. Not asked of `dump` (R222), of `findKeys`' tries (R230), of HALT
(R211), of the third step of `select()` (log 15). -/
def Obligations.NonzeroStatusIsSurfaced : Prop :=
  ∀ (cfg : Config) (h : HostAgent) (p : Proc) (c : Word) (status : Byte) (data : List Byte) (e : HostError),
    h.proc = some p → status ≠ 0x00 → (∀ k n l g, p.goal ≠ .dump k n l g) →
    (match p.act with
      | .request => e = .noCard status
      | .anticoll _ => e = .anticollision status
      | .auth _ _ _ => e = .authentication status
      | .read _ _ => e = .read status
      | .write _ _ _ => e = .write status
      | .initBal _ _ _ => e = .balance .init status
      | .readBal _ _ => e = .balance .read status
      | .incBal _ _ _ => e = .balance .increase status
      | .decBal _ _ _ => e = .balance .decrease status
      | .third _ _ | .halt | .probe _ _ _ => False) →
    h.afterResult cfg (.ok c status data) = { h with
      proc := none, session := .idle, card := none, lastXfer := some (.ok c status data),
      outcome := some (.failed e) }

/-- R251 and the introduction of 43_host_session.md. An error of FCC ends a procedure with that error, but for `dump`
and the tries of `findKeys`; that the session is then `Idle` is D28 (R205), that the handle is gone log 21. In a try of
`findKeys` the configuration says whether it ends the procedure too or is one more failed attempt (log 16); what has
been reported before stays reported (R230). -/
def Obligations.FccErrorsPropagate : Prop :=
  ∀ (cfg : Config) (h : HostAgent) (p : Proc) (c : Word) (r : XferResult) (e : HostError),
    h.proc = some p → (∀ k n l g, p.goal ≠ .dump k n l g) →
    (r, e) ∈ [(XferResult.framing, HostError.framing), (.checksum c, .checksum), (.mismatch c, .mismatch)] →
    ((∀ sl n k, p.act ≠ .probe sl n k) ∨ cfg.findKeysGoesOn = false → h.afterResult cfg r = { h with
      proc := none, session := .idle, card := none, lastXfer := some r, outcome := some (.failed e) }) ∧
    ∀ sl n k, p.act = .probe sl n k → cfg.findKeysGoesOn = true →
      (∀ a rest, p.rest = a :: rest → h.afterResult cfg r = { h with
        proc := some { p with act := a, rest := rest }, lastXfer := some r, reports := h.reports ++ [(sl, k)] }) ∧
      (∀ keyA keyB, p.rest = [] → p.goal = .findKeys keyA keyB → h.afterResult cfg r = { h with
        proc := none, lastXfer := some r, outcome := some (.keys keyA keyB), reports := h.reports ++ [(sl, k)] })

/-- R222, D29. `dump`, whatever a result is. A failure of the re-select, of the authentication or of a block, by status
or by an error of FCC, skips the sector: the next one starts with `select()`, and behind the last one the dump ends with
the sectors it has read (session and handle at a failure: D28 and log 21). A block read is kept, the last block adds
the sector to what the dump returns. The dump never ends with an error, and its list grows by this sector or not at
all. -/
def Obligations.DumpNeverFails : Prop :=
  ∀ (cfg : Config) (h skipped : HostAgent) (key : List Byte) (sector : Nat) (later : List Nat)
    (got : List (Nat × List Byte)) (act : Act) (rest : List Act) (data : List Byte) (r : XferResult),
    h.proc = some ⟨.dump key sector later got, act, rest, data⟩ → (∀ sl n k, act ≠ .probe sl n k) → h.outcome = none →
    skipped = (match later with
      | [] => { h with
          proc := none, session := .idle, card := none, lastXfer := some r, outcome := some (.dumped got) }
      | next :: more => { h with
          proc := some ⟨.dump key next more got, .request,
            .auth .A next key :: cfg.dumpBlocks.map (fun b => .read next b), []⟩,
          session := .idle, card := none, lastXfer := some r, outcome := none }) →
    (r = .framing ∨ (∃ c, r = .checksum c) ∨ (∃ c, r = .mismatch c) → h.afterResult cfg r = skipped) ∧
    (∀ c status d, r = .ok c status d → status ≠ 0x00 →
      act = .request ∨ (∃ t, act = .anticoll t) ∨ (∃ t sn, act = .third t sn ∧ cfg.thirdStepRaises = true) ∨
        (∃ sl n k, act = .auth sl n k) ∨ (∃ n b, act = .read n b) → h.afterResult cfg r = skipped) ∧
    (∀ c d n b, r = .ok c 0x00 d → act = .read n b →
      (∀ a more, rest = a :: more → h.afterResult cfg r = { h with
        proc := some ⟨.dump key sector later got, a, more, data ++ d⟩, lastXfer := some r }) ∧
      (rest = [] → later = [] → h.afterResult cfg r = { h with
        proc := none, lastXfer := some r, outcome := some (.dumped (got ++ [(sector, data ++ d)])) }) ∧
      (∀ next more, rest = [] → later = next :: more → h.afterResult cfg r = { h with
        proc := some ⟨.dump key next more (got ++ [(sector, data ++ d)]), .request,
          .auth .A next key :: cfg.dumpBlocks.map (fun b => .read next b), []⟩,
        session := .idle, card := none, lastXfer := some r, outcome := none })) ∧
    ∃ got', (got' = got ∨ ∃ d, got' = got ++ [(sector, d)]) ∧
      ((∃ s l a acts d, (h.afterResult cfg r).proc = some ⟨.dump key s l got', a, acts, d⟩ ∧
          (h.afterResult cfg r).outcome = none) ∨
        ((h.afterResult cfg r).proc = none ∧ (h.afterResult cfg r).outcome = some (.dumped got')))

/-- R222, R210, R214. One sector of `dump` with every result OK, from `select()` to the last of the blocks the
configuration names (log 17; card type: log 14): the dump has the sector with the data of its blocks in order, and goes
on with `select()` for the next sector, or ends. -/
def Obligations.DumpSectorRun : Prop :=
  ∀ (cfg : Config) (h : HostAgent) (key d1 d2 d3 d4 serial sectorData : List Byte) (c1 c2 c3 c4 : Word) (sector : Nat)
    (later : List Nat) (got : List (Nat × List Byte)) (datas : List (Word × List Byte)) (rs : List XferResult),
    h.proc = some ⟨.dump key sector later got, .request,
      .auth .A sector key :: cfg.dumpBlocks.map (fun b => .read sector b), []⟩ →
    datas.length = cfg.dumpBlocks.length →
    serial = (if cardTypeOf cfg d1 = cfg.cardTypes.ultralight then d3 else d2) →
    rs = [.ok c1 0x00 d1, .ok c2 0x00 d2, .ok c3 0x00 d3, .ok c4 0x00 d4] ++ datas.map (fun d => .ok d.1 0x00 d.2) →
    sectorData = (datas.map Prod.snd).flatten →
    (later = [] → h.afterResults cfg rs = { h with
      proc := none, session := .authenticated sector, card := some ⟨cardTypeOf cfg d1, serial⟩,
      lastXfer := rs.getLast?, outcome := some (.dumped (got ++ [(sector, sectorData)])) }) ∧
    ∀ next more, later = next :: more → h.afterResults cfg rs = { h with
      proc := some ⟨.dump key next more (got ++ [(sector, sectorData)]), .request,
        .auth .A next key :: cfg.dumpBlocks.map (fun b => .read next b), []⟩,
      session := .idle, card := none, lastXfer := rs.getLast?, outcome := none }

/-- R230, R231. The tries of `findKeys` after `select()`, whatever each try's command, status and data are, a key found
for neither slot, for one or for both: with each slot the candidates are tried in list order up to the first with status
0, which is the key found; the tries as Key B do not depend on those as Key A; with no key found there is no error; every
failed attempt is reported (their order: log 31). That session and handle stay is log 16. With no candidate at all
`findKeys` ends right after `select()`, with no key and no error (card type: log 14). -/
def Obligations.FindKeysRun : Prop :=
  (∀ (cfg : Config) (h : HostAgent) (sector : Nat) (candidates : List (List Byte)) (failedA failedB : List Try)
    (foundA foundB : Option Try) (tries : List Try) (first : Act) (acts : List Act),
    TriesOf candidates failedA foundA → TriesOf candidates failedB foundB →
    tries = failedA ++ foundA.toList ++ failedB ++ foundB.toList →
    first :: acts = candidates.map (fun k => Act.probe .A sector k) ++ candidates.map (fun k => Act.probe .B sector k) →
    h.proc = some { goal := .findKeys none none, act := first, rest := acts, data := [] } →
    h.afterResults cfg (tries.map Try.result) = { h with
      proc := none, lastXfer := (tries.map Try.result).getLast?,
      outcome := some (.keys (foundA.map Try.key) (foundB.map Try.key)),
      reports := h.reports ++ (failedA.map fun t => (KeySlot.A, t.key)) ++ failedB.map fun t => (KeySlot.B, t.key) }) ∧
  ∀ (cfg : Config) (h : HostAgent) (c1 c2 c3 : Word) (d1 d2 d3 serial : List Byte),
    h.proc = some { goal := .findKeys none none, act := .request, rest := [], data := [] } →
    serial = (if cardTypeOf cfg d1 = cfg.cardTypes.ultralight then d3 else d2) →
    h.afterResults cfg [.ok c1 0x00 d1, .ok c2 0x00 d2, .ok c3 0x00 d3] = { h with
      proc := none, session := .selected (cardTypeOf cfg d1) serial, card := some ⟨cardTypeOf cfg d1, serial⟩,
      lastXfer := some (.ok c3 0x00 d3), outcome := some (.keys none none) }

/-! ### Decoding and fetching -/

/-- R81, R82, R83, R88, R95, R124, R166. A few words written out from the encodings, on the ports where they stand. -/
def Obligations.WordsDecode : Prop :=
  (∀ cfg : Config,
    decode cfg .req [0x06, 0x01, 0x0A] = .ok (.cmdBeep 0x0A) ∧
    decode cfg .tx [0xAA, 0xBB, 0x06, 0x00, 0xFF, 0xFF, 0x06, 0x01, 0x0A, 0x0D] = .ok (.frameOut 0x0106 [0x0A]) ∧
    decode cfg .tx [0xAA, 0xBB, 0x06, 0x00, 0xFF, 0xFF, 0x06, 0x01, 0x0A, 0xE9] = .error .badChecksum ∧
    decode cfg .rx [0x13, 0xAA, 0xBB, 0x07, 0x00, 0xFF, 0xFF, 0x06, 0x01, 0x00, 0xAA, 0x00, 0xAD] =
      .ok (.frameIn [0x13] [0xFF, 0xFF, 0x06, 0x01, 0x00, 0xAA, 0xAD]) ∧
    decode cfg .rx [0xAA, 0xBB] = .ok .hdr ∧ decode cfg .rx [0xAA, 0x00] = .ok .esc) ∧
  decodeTableWord 24 0x0A0106 = some (.cmdBeep 0x0A) ∧ decodeTableWord 16 0xBBAA = some .hdr ∧
  decodeTableWord 16 0x00AA = some .esc

/-- R81, R82, R88, R95, R100. Decode and encode agree for every well-formed instruction that has words, with every
operand at every value; the words of an XFER whose command is a device command's may name that command, which is the
same request. -/
def Obligations.DecodeOfEncode : Prop :=
  ∀ (cfg : Config) (i : Instr) (port : Port) (words : List Byte), cfg.wf → i.wf = true →
    encode cfg i = some (port, words) →
    ((∀ c p, i ≠ .xfer c p) → decode cfg port words = .ok i) ∧
    (∀ c p, i = .xfer c p → (∀ d, cfg.code d ≠ c) → decode cfg port words = .ok i) ∧
    ∃ j, decode cfg port words = .ok j ∧ encode cfg j = some (port, words)

/-- The step runs the decoded instruction: where HOST presents words that decode to an instruction in range, or the
instruction itself, the step is `exec` of it in the state that LINE and DEVICE have left, with the item gone from
HOST's agenda; every well-formed instruction is in range, and the ranges are those of R201, R202 and R82. A call out of
range is refused (R201, R202, U20, log 19); bytes of the RX stream that are no instruction arrive at LINE (R55, R97), as
many as a LINE of finite depth has room for (log 11); words that no agent can present on the request port or the TX
stream are refused by name (log 8). The host's way to place words makes the next step such a one (log 5). -/
def Obligations.StepRunsTheInstruction : Prop :=
  (∀ (s u v : State) (item : Item) (rest : List Item),
    u = s.lineEvent s.env.current → s.env.current.rst = false → s.env.current.present = true →
    s.fcc.chPhase = .idle → s.host.proc = none → s.host.agenda = item :: rest →
    v = { u with host := { u.host with agenda := rest } } →
    (∀ i, item = .op i ∨ (∃ port words, item = .words port words ∧ decode s.cfg port words = .ok i) →
      (inRange i = true → step s = exec i v) ∧ (inRange i = false → step s = .refused .outOfRange)) ∧
    ∀ port words e, item = .words port words → decode s.cfg port words = .error e →
      (port = .rx → s.cfg.lineDepth = none → step s = .next (v.holding words)) ∧
      (∀ depth, port = .rx → s.cfg.lineDepth = some depth →
        step s = .next (v.holding (words.take (depth - v.line.rx.length)))) ∧
      (port ≠ .rx → step s = .refused (.undecodable e))) ∧
  (∀ i : Instr, i.wf = true → inRange i = true) ∧
  (∀ (sector block : Nat) (slot : KeySlot) (key data noise logical : List Byte) (amount : Word) (blocks : List Nat)
    (candidates : List (List Byte)),
    (∀ i ∈ [Instr.cmdReadBlock sector block, .cmdWriteBlock sector block data, .cmdInitBal sector block amount,
        .cmdReadBal sector block, .cmdIncBal sector block amount, .cmdDecBal sector block amount],
      inRange i = true ↔ sector < 16 ∧ block < 4) ∧
    (∀ i ∈ [Instr.cmdAuth2 slot sector key, .authenticate sector key slot],
      inRange i = true ↔ sector < 16 ∧ key.length = 6) ∧
    (inRange (.readBlock block) = true ↔ block < 4) ∧
    (inRange (.readSector sector key blocks) = true ↔ sector < 16 ∧ key.length = 6 ∧ ∀ b ∈ blocks, b < 4) ∧
    (∀ i ∈ [Instr.writeBlock slot sector key block data, .initBalance slot sector key block amount,
        .readBalance slot sector key block, .increaseBalance slot sector key block amount,
        .decreaseBalance slot sector key block amount],
      inRange i = true ↔ sector < 16 ∧ key.length = 6 ∧ block < 4) ∧
    (inRange (.dump key) = true ↔ key.length = 6) ∧
    (inRange (.findKeys sector candidates) = true ↔ sector < 16 ∧ ∀ k ∈ candidates, k.length = 6) ∧
    (inRange (.frameIn noise logical) = true ↔ logical.length ≤ 65535)) ∧
  ∀ (s : State) (nbits w : Nat) (i : Instr), inRange i = true →
    decode s.cfg (tablePlace nbits w).1 (tablePlace nbits w).2 = .ok i →
    step (s.withFetchWord nbits w) = exec i { s with
      fcc := { s.fcc with chPhase := .idle, txPhase := .idle, rxPhase := .idle },
      host := { s.host with proc := none } }

/-! ### Invariants and rules of the whole machine -/

/-- The buffers: what is written is read back, no other index changes, and the canonical form is kept (R30, R31). -/
def Obligations.BufferLaws : Prop :=
  ∀ (m : Memory) (a : Nat) (v : Byte) (bytes : List Byte), m.wf →
    ((m.write a v).wf ∧ ∀ i, (m.write a v).read i = if i = a then v else m.read i) ∧
    ((m.writeBytes a bytes).wf ∧ ∀ i, (m.writeBytes a bytes).read i =
      if a ≤ i ∧ i < a + bytes.length then bytes.getD (i - a) 0 else m.read i) ∧
    ∀ m' : Memory, m'.wf → (∀ i, m.read i = m'.read i) → m = m'

/-- The invariant holds after reset, whatever the free values of the configuration are (R8, R24, R205). -/
def Obligations.InvAfterReset : Prop := State.reset.Inv

/-- R24, R26 to R28, R30 to R36, R39 to R42, R200, R205. Every step keeps the invariant: the phases agree, the counters
and folds are those of the bytes sent and accepted, the buffers keep their form and size, the result registers hold
what their kind says, HOST's handle and session agree. -/
def Obligations.StepKeepsInv : Prop :=
  ∀ s t : State, s.Inv → step s = .next t → t.Inv

/-- Log 23. In a state that meets the invariant no step ends in a fault. -/
def Obligations.NoFaultUnderInv : Prop :=
  ∀ (s : State) (r : Fault), s.Inv → step s ≠ .fault r

/-- R24, R63, R64, R189 (c). Order: CH stays or goes to the next of its phases, or, for ENCODE and DECODE alone (log 6),
from `C_SEND` back to `C_IDLE` and from `C_IDLE` to `C_RECV`; in `C_SEND` at most one TX
byte is sent, in `C_FLUSH` LINE is flushed, in `C_RECV` at most one RX byte is taken, a result is delivered only in
`C_DONE`, and nothing else is sent, taken or delivered. -/
def Obligations.EventOrder : Prop :=
  ∀ s t u : State, u = s.lineEvent s.env.current → s.env.current.rst = false → step s = .next t →
    (s.fcc.chPhase = .idle →
      (t.fcc.chPhase = .idle ∨ t.fcc.chPhase = .send ∨ (t.fcc.chPhase = .recv ∧ t.fcc.op = .decode)) ∧
      (∃ b, t.line = { u.line with rx := u.line.rx ++ b }) ∧ t.host.lastXfer = s.host.lastXfer ∧
      t.host.reports = s.host.reports) ∧
    (s.fcc.chPhase = .send →
      (t.fcc.chPhase = .send ∨ t.fcc.chPhase = .flush ∨ (t.fcc.chPhase = .idle ∧ s.fcc.op = .encode)) ∧
      (t.line = u.line ∧ t.fcc = s.fcc ∨ ∃ b, t.line = { u.line with held := u.line.held ++ [b] }) ∧
      t.host = s.host) ∧
    (s.fcc.chPhase = .flush →
      (t.fcc = s.fcc ∧ t.line = u.line ∨ t.fcc.chPhase = .recv ∧ t.line = { u.line with
        sent := u.line.sent ++ u.line.held, held := [], flushes := u.line.flushes + 1 }) ∧ t.host = s.host) ∧
    (s.fcc.chPhase = .recv →
      (t.fcc.chPhase = .recv ∨ t.fcc.chPhase = .done) ∧
      (t.line = u.line ∧ t.fcc = s.fcc ∨ ∃ b, u.line.rx = b :: t.line.rx ∧ t.line = { u.line with rx := t.line.rx }) ∧
      t.host = s.host) ∧
    (s.fcc.chPhase = .done →
      (t.fcc = s.fcc ∧ t.host = s.host ∨ t.fcc = { s.fcc with chPhase := .idle }) ∧ t.line = u.line)

/-- R66, R288. What HOST would present does not reach an operation in flight: two machines that differ only in HOST go
through the same FCC and LINE while FCC is busy. -/
def Obligations.HostCannotReachAnOperationInFlight : Prop :=
  ∀ (s s' t t' : State) (n : Nat), s'.fcc = s.fcc → s'.line = s.line → s'.env = s.env → s'.cfg = s.cfg →
    (∀ k ≤ n, ∃ v, run k s = .next v ∧ v.fcc.busy = true) → run n s = .next t → run n s' = .next t' →
    t'.fcc = t.fcc ∧ t'.line = t.line

end Statements
end

