-- ==== Sys2Proof/Laws/Codec.lean ====
section
/-! SUPPORT. The codec as functions: fields, folds, stuffing and its removal, the header hunt. -/

namespace Sys2Proof.Machine

theorem lo8_toNat (v : Word) : (lo8 v).toNat = v.toNat % 256 := by simp [lo8, BitVec.extractLsb'_toNat]

theorem hi8_toNat (v : Word) : (hi8 v).toNat = v.toNat / 256 := by
  have := v.isLt
  simp only [hi8, BitVec.extractLsb'_toNat, Nat.shiftRight_eq_div_pow]
  omega

theorem le16_toNat (b0 b1 : Byte) : (le16 b0 b1).toNat = b0.toNat + 256 * b1.toNat := by
  have h0 := b0.isLt
  have h1 := b1.isLt
  simp only [le16, BitVec.toNat_add, BitVec.toNat_mul, BitVec.toNat_setWidth, BitVec.toNat_ofNat]
  omega

/-- A field sent low byte first is assembled to itself (R85). -/
@[simp] theorem le16_lo8_hi8 (v : Word) : le16 (lo8 v) (hi8 v) = v := by
  apply BitVec.eq_of_toNat_eq
  rw [le16_toNat, lo8_toNat, hi8_toNat]
  omega

@[simp] theorem lo8_le16 (b0 b1 : Byte) : lo8 (le16 b0 b1) = b0 := by
  apply BitVec.eq_of_toNat_eq
  have := b0.isLt
  rw [lo8_toNat, le16_toNat]
  omega

@[simp] theorem hi8_le16 (b0 b1 : Byte) : hi8 (le16 b0 b1) = b1 := by
  apply BitVec.eq_of_toNat_eq
  have := b0.isLt
  rw [hi8_toNat, le16_toNat]
  omega

@[simp] theorem xor8_nil : xor8 [] = 0 := rfl

theorem foldl_xor (s : List Byte) (a : Byte) : s.foldl (fun acc b => acc ^^^ b) a = a ^^^ xor8 s := by
  induction s generalizing a with
  | nil => simp [xor8]
  | cons b t ih => simp only [xor8, List.foldl_cons] at *; rw [ih, ih (0 ^^^ b)]; simp [BitVec.xor_assoc]

@[simp] theorem xor8_cons (b : Byte) (s : List Byte) : xor8 (b :: s) = b ^^^ xor8 s := by
  rw [xor8, List.foldl_cons, foldl_xor]; simp

theorem xor8_append (s t : List Byte) : xor8 (s ++ t) = xor8 s ^^^ xor8 t := by
  induction s with
  | nil => simp
  | cons b s ih => simp [ih, BitVec.xor_assoc]

theorem xor8_snoc (s : List Byte) (b : Byte) : xor8 (s ++ [b]) = xor8 s ^^^ b := by simp [xor8_append]

@[simp] theorem stuff_nil : stuff [] = [] := rfl

theorem stuff_cons (b : Byte) (t : List Byte) :
    stuff (b :: t) = (if b = escByte then [escByte, stuffByte] else [b]) ++ stuff t := by
  rw [stuff]; split <;> rfl

theorem stuff_append (s t : List Byte) : stuff (s ++ t) = stuff s ++ stuff t := by
  induction s with
  | nil => rfl
  | cons b s ih => simp [stuff_cons, ih]

/-- The stuffing bytes do not change the fold (R91). -/
theorem xor8_stuff (s : List Byte) : xor8 (stuff s) = xor8 s := by
  induction s with
  | nil => rfl
  | cons b s ih =>
    rw [stuff_cons, xor8_append, ih, xor8_cons]
    split
    · rename_i h; simp [h]
    · simp

/-- The length of a stuffed sequence (R88). -/
theorem stuff_length (s : List Byte) : (stuff s).length = s.length + s.count escByte := by
  induction s with
  | nil => rfl
  | cons b s ih =>
    rw [stuff_cons]
    by_cases h : b = escByte
    · subst h; simp [ih]; omega
    · have h' : ¬ b = 170#8 := h
      have hc : List.count (170#8) (b :: s) = List.count (170#8) s := by simp [h']
      simp [h', ih, hc]; omega

/-- Stuffing removal gives back what was stuffed (R89). -/
theorem destuff_stuff (s : List Byte) : destuff false (stuff s) = s := by
  induction s with
  | nil => rfl
  | cons b s ih =>
    rw [stuff_cons]
    by_cases h : b = escByte
    · subst h; simp [destuff, ih]
    · have hb : (b == 170#8) = false := by simpa using h
      simp [show ¬ b = 170#8 from h, destuff, hb, ih]

/-- The last byte of a sequence is stuffed, so its partner is left when the count is reached (R156). -/
def partner (s : List Byte) : List Byte := if s.getLast? = some escByte then [stuffByte] else []

/-- The body taken from the wire image of a sequence is the sequence, and what is left is the partner of a final `AA`
and the rest of the stream (R143, R156). -/
theorem takeBody_stuff (s rest : List Byte) :
    takeBody s.length false (stuff s ++ rest) = some (s, partner s ++ rest) := by
  induction s with
  | nil => simp [takeBody, partner]
  | cons b s ih =>
    rw [stuff_cons]
    by_cases h : b = escByte
    · subst h
      cases s with
      | nil => simp [takeBody, partner]
      | cons c s' =>
        have key : takeBody (c :: s').length true (stuffByte :: (stuff (c :: s') ++ rest)) =
            takeBody (c :: s').length false (stuff (c :: s') ++ rest) := by
          simp [takeBody]
        simp only [if_true, List.cons_append, List.nil_append, List.length_cons]
        rw [takeBody]
        simp only [Bool.false_eq_true, false_and, if_false, beq_self_eq_true]
        rw [show s'.length + 1 = (c :: s').length from rfl, key, ih]
        simp [partner]
    · have hb : (b == escByte) = false := by simpa using h
      simp only [if_neg h, List.cons_append, List.nil_append, List.length_cons]
      rw [takeBody]
      simp only [Bool.false_eq_true, false_and, if_false, hb, ih]
      cases s with
      | nil => simp [partner, show ¬ b = 170#8 from h]
      | cons c s' => simp [partner]

/-- The body taken has the length asked for, and the bytes taken and left are those of the stream. -/
theorem takeBody_length {n : Nat} {pd : Bool} {t : List Byte} {r : List Byte × List Byte}
    (h : takeBody n pd t = some r) : r.1.length = n ∧ r.2.length ≤ t.length := by
  induction t generalizing n pd r with
  | nil =>
    cases n with
    | zero => cases h; exact ⟨rfl, le_rfl⟩
    | succ n => cases h
  | cons b t ih =>
    cases n with
    | zero => cases h; exact ⟨rfl, le_rfl⟩
    | succ n =>
      rw [takeBody] at h
      split at h
      · have := ih h
        exact ⟨this.1, by simp only [List.length_cons]; omega⟩
      · cases hr : takeBody n (b == escByte) t with
        | none => rw [hr] at h; cases h
        | some r' =>
          rw [hr] at h
          cases h
          have := ih hr
          exact ⟨by simp [this.1], by simp only [List.length_cons]; omega⟩

/-- Noise before a header does not matter (R141, R162). -/
theorem hunt_noise (z : List Byte) (ha : Bool) (rest : List Byte)
    (hz : ∀ i, z[i]? = some hdr0 → z[i + 1]? ≠ some hdr1) (h0 : ha = true → z[0]? ≠ some hdr1) :
    hunt ha (z ++ hdr0 :: hdr1 :: rest) = some rest := by
  induction z generalizing ha with
  | nil => cases ha <;> simp [hunt]
  | cons b z ih =>
    have hb : ¬ (ha = true ∧ b = hdr1) := fun h => h0 h.1 (by simp [h.2])
    rw [List.cons_append, hunt, if_neg hb]
    refine ih _ (fun i hi => ?_) (fun h1 => ?_)
    · exact hz (i + 1) (by simpa using hi)
    · have : b = hdr0 := by simpa using h1
      simpa using hz 0 (by simp [this])

/-- Noise as the instruction FRAME_IN carries it has no pair `AA BB` in it. -/
theorem noiseOk_get {z : List Byte} (hz : noiseOk z = true) : ∀ i : Nat, z[i]? = some hdr0 → z[i + 1]? ≠ some hdr1 := by
  induction z with
  | nil => simp
  | cons b t ih =>
    simp only [noiseOk, Bool.and_eq_true, Bool.not_eq_true', Bool.and_eq_false_iff, beq_eq_false_iff_ne] at hz
    intro i hi
    cases i with
    | zero =>
      simp only [List.getElem?_cons_zero, Option.some.injEq] at hi
      rcases hz.1 with h | h
      · exact absurd hi h
      · cases t <;> simp_all
    | succ i => exact ih hz.2 i (by simpa using hi)

/-- DECODE on a whole inbound frame: the evaluation of its logical bytes; the partner of a final `AA` and what follows
are left (R140, R156). -/
theorem decodeStream_inWire (m : Nat) (noise logical rest : List Byte) (hz : noiseOk noise = true)
    (hl : logical.length ≤ 65535) :
    decodeStream m (inWire noise logical ++ rest) = some (evaluate m logical, partner logical ++ rest) := by
  have e : inWire noise logical ++ rest = noise ++ hdr0 :: hdr1 :: (lo8 (BitVec.ofNat 16 logical.length) ::
      hi8 (BitVec.ofNat 16 logical.length) :: (stuff logical ++ rest)) := by simp [inWire]
  rw [decodeStream, e, hunt_noise _ _ _ (noiseOk_get hz) (by simp)]
  have : (BitVec.ofNat 16 logical.length).toNat = logical.length := by rw [BitVec.toNat_ofNat]; omega
  simp only [le16_lo8_hi8, this, takeBody_stuff, Option.map_some]

theorem hunt_append {ha : Bool} {t rest : List Byte} (b : List Byte) (h : hunt ha t = some rest) :
    hunt ha (t ++ b) = some (rest ++ b) := by
  induction t generalizing ha with
  | nil => cases ha <;> cases h
  | cons c t ih =>
    rw [hunt] at h
    rw [List.cons_append, hunt]
    split at h
    · rename_i hc; rw [if_pos hc]; cases h; rfl
    · rename_i hc; rw [if_neg hc]; exact ih h

theorem takeBody_append {n : Nat} {pd : Bool} {t : List Byte} {r : List Byte × List Byte} (b : List Byte)
    (h : takeBody n pd t = some r) : takeBody n pd (t ++ b) = some (r.1, r.2 ++ b) := by
  induction t generalizing n pd r with
  | nil =>
    cases n with
    | zero => cases h; cases b <;> rfl
    | succ n => cases h
  | cons c t ih =>
    cases n with
    | zero => cases h; rfl
    | succ n =>
      rw [takeBody] at h
      rw [List.cons_append, takeBody]
      split at h
      · rename_i hc; rw [if_pos hc]; exact ih h
      · rename_i hc
        rw [if_neg hc]
        cases hr : takeBody n (c == escByte) t with
        | none => rw [hr] at h; cases h
        | some r' => rw [hr] at h; cases h; rw [ih hr]; rfl

/-- What follows in the stream does not change a result of DECODE, and is left. -/
theorem decodeStream_append {m : Nat} {t : List Byte} {r : DecodeResult} {rest : List Byte} (b : List Byte)
    (h : decodeStream m t = some (r, rest)) : decodeStream m (t ++ b) = some (r, rest ++ b) := by
  unfold decodeStream at h ⊢
  cases hh : hunt false t with
  | none => rw [hh] at h; cases h
  | some u =>
    rw [hunt_append b hh]
    rw [hh] at h
    match u with
    | [] => cases h
    | [_] => cases h
    | n0 :: n1 :: v =>
      simp only [List.cons_append] at h ⊢
      cases hr : takeBody (le16 n0 n1).toNat false v with
      | none => rw [hr] at h; cases h
      | some q => rw [hr] at h; rw [takeBody_append b hr]; cases h; rfl

/-- Every `AA` of a stuffed sequence is followed by `00` (R88). -/
theorem stuff_get (s : List Byte) :
    ∀ i : Nat, (stuff s)[i]? = some escByte → (stuff s)[i + 1]? = some stuffByte := by
  induction s with
  | nil => simp
  | cons b s ih =>
    intro i hi
    rw [stuff_cons] at hi ⊢
    by_cases h : b = escByte
    · rw [if_pos h] at hi ⊢
      match i with
      | 0 => rfl
      | 1 => simp at hi
      | i + 2 => simpa using ih i (by simpa using hi)
    · rw [if_neg h] at hi ⊢
      match i with
      | 0 => simp at hi; exact absurd hi h
      | i + 1 => simpa using ih i (by simpa using hi)

/-- The outbound frame has the shape of an inbound one (R80). -/
theorem wire_eq_inWire (c : Word) (p : List Byte) : wire c p = inWire [] (body c p ++ [checksum c p]) := by
  have : (body c p ++ [checksum c p]).length = 5 + p.length := by simp [body]; omega
  rw [wire, inWire, this, stuff_append, lengthField]
  simp

end Sys2Proof.Machine
end

