-- ==== Sys2Proof/Laws/Config.lean ====
section
/-! SUPPORT. The configuration after reset meets R8: the codes picked are pairwise distinct, whatever the free values
are. -/

namespace Sys2Proof.Config

/-- Among the first `fuel + 1` codes from `start` on one is unused, if fewer than `fuel + 1` are used, and `pickCode`
ends on one. -/
theorem pickCode_eq (used : List Word) (start : Word) (fuel : Nat) :
    ∃ k ≤ fuel, pickCode used start fuel = start + BitVec.ofNat 16 k ∧
      ((∀ j < k, start + BitVec.ofNat 16 j ∈ used) ∧
        (k < fuel → start + BitVec.ofNat 16 k ∉ used)) := by
  induction fuel generalizing start with
  | zero => exact ⟨0, le_rfl, by simp [pickCode], by simp⟩
  | succ fuel ih =>
    unfold pickCode
    split
    · rename_i hs
      obtain ⟨k, hk, he, h1, h2⟩ := ih (start + 1)
      have e : ∀ j, start + 1 + BitVec.ofNat 16 j = start + BitVec.ofNat 16 (j + 1) := fun j => by
        rw [BitVec.add_assoc]; congr 1
        apply BitVec.eq_of_toNat_eq; simp [BitVec.toNat_add]; omega
      refine ⟨k + 1, by omega, by rw [he, e], fun j hj => ?_, fun hlt => ?_⟩
      · cases j with
        | zero => simpa using hs
        | succ j => rw [← e]; exact h1 j (by omega)
      · rw [← e]; exact h2 (by omega)
    · rename_i hs
      exact ⟨0, by omega, by simp, by simp, fun _ => by simpa using hs⟩

theorem pickCode_not_mem {used : List Word} {start : Word} {fuel : Nat} (h : used.length < fuel)
    (hf : fuel ≤ 65536) : pickCode used start fuel ∉ used := by
  obtain ⟨k, hk, he, h1, h2⟩ := pickCode_eq used start fuel
  rw [he]
  by_cases hlt : k < fuel
  · exact h2 hlt
  · exfalso
    have hk' : k = fuel := by omega
    subst hk'
    have hnd : ((List.range k).map fun j => start + BitVec.ofNat 16 j).Nodup := by
      refine List.Nodup.map_on ?_ List.nodup_range
      intro a ha b hb hab
      have ha := List.mem_range.1 ha
      have hb := List.mem_range.1 hb
      have := congrArg BitVec.toNat ((BitVec.add_right_inj start).1 hab)
      simp only [BitVec.toNat_ofNat] at this
      omega
    have hsub : ((List.range k).map fun j => start + BitVec.ofNat 16 j) ⊆ used := by
      intro x hx
      obtain ⟨j, hj, rfl⟩ := List.mem_map.1 hx
      exact h1 j (List.mem_range.1 hj)
    have := (List.subperm_of_subset hnd hsub).length_le
    simp at this
    omega

theorem pickCodes_spec (f : DeviceCmd → Word) (ds : List DeviceCmd) (used : List Word) (hu : used.Nodup)
    (hl : used.length + ds.length ≤ 31) :
    (pickCodes f ds used).Nodup ∧ (pickCodes f ds used).length = used.length + ds.length ∧
      (pickCodes f ds used).take used.length = used := by
  induction ds generalizing used with
  | nil => exact ⟨hu, rfl, by simp [pickCodes]⟩
  | cons d ds ih =>
    simp only [List.length_cons] at hl
    have hn := pickCode_not_mem (used := used) (start := f d) (fuel := 32) (by omega) (by omega)
    obtain ⟨h1, h2, h3⟩ := ih (used ++ [pickCode used (f d) 32])
      (List.Nodup.append hu (List.nodup_singleton _) (by simpa using hn)) (by simp; omega)
    refine ⟨h1, by rw [pickCodes, h2]; simp; omega, ?_⟩
    rw [pickCodes]
    have := congrArg (List.take used.length) h3
    rw [List.take_take, List.take_left] at this
    simpa using this

/-- A list of nineteen codes, entry by entry. -/
theorem getD_nineteen (l : List Word) (h : l.length = 19) :
    [l.getD 0 0, l.getD 1 0, l.getD 2 0, l.getD 3 0, l.getD 4 0, l.getD 5 0, l.getD 6 0,
      l.getD 7 0, l.getD 8 0, l.getD 9 0, l.getD 10 0, l.getD 11 0, l.getD 12 0, l.getD 13 0,
      l.getD 14 0, l.getD 15 0, l.getD 16 0, l.getD 17 0, l.getD 18 0] = l :=
  match l, h with
  | [_, _, _, _, _, _, _, _, _, _, _, _, _, _, _, _, _, _, _], _ => rfl

/-- The codes after reset in the order of the commands. -/
theorem reset_codes : DeviceCmd.all.map reset.code = openCodes := by
  obtain ⟨-, h2, h3⟩ := pickCodes_spec openCode DeviceCmd.all.tail [0x0106] (by simp) (by decide)
  change openCodes.length = 19 at h2
  change openCodes.take 1 = [0x0106] at h3
  have h0 : openCodes.getD 0 0 = 0x0106 := by
    rw [← List.take_append_drop 1 openCodes, h3]; rfl
  conv_rhs => rw [← getD_nineteen openCodes h2]
  simp only [DeviceCmd.all, List.map_cons, List.map_nil, code, reset, h0]

/-- The configuration after reset is legal (R8). -/
theorem reset_wf : reset.wf := by
  refine ⟨le_rfl, by decide, le_rfl, ?_⟩
  rw [reset_codes]
  exact (pickCodes_spec openCode DeviceCmd.all.tail [0x0106] (by simp) (by decide)).1

end Sys2Proof.Config
end

