-- ==== Sys2Proof/Laws/Memory.lean ====
section
/-! SUPPORT. The buffers: read after write, the canonical form, equal reads are equal buffers. -/

namespace Sys2Proof.Machine

@[simp] theorem Memory.read_nil (a : Nat) : Memory.read [] a = unwritten := rfl

theorem Memory.read_of_forall_ne {m : Memory} {a : Nat} (h : ∀ c ∈ m, c.1 ≠ a) : m.read a = unwritten := by
  induction m with
  | nil => rfl
  | cons c t ih =>
    obtain ⟨k, v⟩ := c
    have hk : k ≠ a := h (k, v) (by simp)
    simp only [Memory.read, if_neg hk]
    exact ih fun d hd => h d (by simp [hd])

theorem Memory.wf_cons {k : Nat} {v : Byte} {t : Memory} :
    Memory.wf ((k, v) :: t) ↔ (∀ c ∈ t, k < c.1) ∧ v ≠ unwritten ∧ t.wf := by
  simp only [Memory.wf, List.pairwise_cons, List.mem_cons, forall_eq_or_imp]
  tauto

/-- A write is read back at its index and changes no other index. -/
theorem Memory.read_write {m : Memory} (hm : m.wf) (a : Nat) (v : Byte) (b : Nat) :
    (m.write a v).read b = if b = a then v else m.read b := by
  induction m with
  | nil =>
    by_cases hv : v = unwritten
    · simp [Memory.write, hv]
    · rw [Memory.write, if_neg hv]
      by_cases hb : b = a
      · simp [Memory.read, hb]
      · simp [Memory.read, hb, Ne.symm hb]
  | cons c t ih =>
    obtain ⟨k, w⟩ := c
    obtain ⟨hk, -, ht⟩ := Memory.wf_cons.1 hm
    have far : ∀ x, x ≤ k → Memory.read t x = unwritten := fun x hx =>
      Memory.read_of_forall_ne fun c hc => by have := hk c hc; omega
    unfold Memory.write
    split
    · rename_i hlt
      split
      · rename_i hv
        by_cases hb : b = a
        · subst hb
          simp [Memory.read, far b (by omega), hv, show k ≠ b by omega]
        · simp [hb]
      · by_cases hb : b = a
        · simp [Memory.read, hb]
        · simp [Memory.read, hb, Ne.symm hb]
    · split
      · rename_i hak
        subst hak
        split
        · rename_i hv
          by_cases hb : b = a
          · subst hb
            simp [far b (by omega), hv]
          · simp [Memory.read, hb, Ne.symm hb]
        · by_cases hb : b = a
          · simp [Memory.read, hb]
          · simp [Memory.read, hb, Ne.symm hb]
      · rename_i h1 h2
        by_cases hb : k = b
        · subst hb
          simp [Memory.read, show k ≠ a by omega]
        · simp [Memory.read, hb, ih ht]

theorem Memory.mem_write {m : Memory} {a : Nat} {v : Byte} {c : Host.Cell} (h : c ∈ m.write a v) :
    c = (a, v) ∨ c ∈ m := by
  induction m with
  | nil => unfold Memory.write at h; split at h <;> simp_all
  | cons d t ih =>
    obtain ⟨k, w⟩ := d
    unfold Memory.write at h
    split at h
    · split at h <;> simp_all
    · split at h
      · split at h <;> (simp_all; try tauto)
      · rcases List.mem_cons.1 h with h | h
        · simp [h]
        · rcases ih h with h | h <;> simp [h]

/-- Every write keeps the canonical form. -/
theorem Memory.write_wf {m : Memory} (hm : m.wf) (a : Nat) (v : Byte) : (m.write a v).wf := by
  induction m with
  | nil =>
    unfold Memory.write
    split
    · exact ⟨List.Pairwise.nil, by simp⟩
    · rename_i hv
      exact Memory.wf_cons.2 ⟨by simp, hv, List.Pairwise.nil, by simp⟩
  | cons c t ih =>
    obtain ⟨k, w⟩ := c
    obtain ⟨hk, hw, ht⟩ := Memory.wf_cons.1 hm
    unfold Memory.write
    split
    · rename_i hlt
      split
      · exact hm
      · rename_i hv
        refine Memory.wf_cons.2 ⟨fun c hc => ?_, hv, hm⟩
        rcases List.mem_cons.1 hc with rfl | hc
        · exact hlt
        · have := hk c hc; omega
    · split
      · rename_i hak
        subst hak
        split
        · exact ht
        · rename_i hv
          exact Memory.wf_cons.2 ⟨hk, hv, ht⟩
      · refine Memory.wf_cons.2 ⟨fun c hc => ?_, hw, ih ht⟩
        rcases Memory.mem_write hc with rfl | hc
        · omega
        · exact hk c hc

theorem Memory.write_size {m : Memory} {n a : Nat} {v : Byte} (hm : ∀ c ∈ m, c.1 < n) (ha : a < n) :
    ∀ c ∈ m.write a v, c.1 < n := by
  intro c hc
  rcases Memory.mem_write hc with rfl | hc
  · exact ha
  · exact hm c hc

theorem Memory.writeBytes_wf {m : Memory} (hm : m.wf) (a : Nat) (bytes : List Byte) : (m.writeBytes a bytes).wf := by
  induction bytes generalizing m a with
  | nil => exact hm
  | cons b t ih => exact ih (Memory.write_wf hm a b) (a + 1)

theorem Memory.writeBytes_size {m : Memory} {n a : Nat} {bytes : List Byte} (hm : ∀ c ∈ m, c.1 < n)
    (ha : a + bytes.length ≤ n) : ∀ c ∈ m.writeBytes a bytes, c.1 < n := by
  induction bytes generalizing m a with
  | nil => exact hm
  | cons b t ih =>
    simp only [List.length_cons] at ha
    exact ih (Memory.write_size hm (by omega)) (by omega)

/-- Bytes written are read back, and no other index changes. -/
theorem Memory.read_writeBytes {m : Memory} (hm : m.wf) (a : Nat) (bytes : List Byte) (i : Nat) :
    (m.writeBytes a bytes).read i = if a ≤ i ∧ i < a + bytes.length then bytes.getD (i - a) 0 else m.read i := by
  induction bytes generalizing m a with
  | nil => simp [Memory.writeBytes, show ¬ (a ≤ i ∧ i < a) by omega]
  | cons b t ih =>
    rw [Memory.writeBytes, ih (Memory.write_wf hm a b), Memory.read_write hm]
    by_cases h0 : i = a
    · subst h0
      simp
    · by_cases h1 : a + 1 ≤ i ∧ i < a + 1 + t.length
      · rw [if_pos h1, if_pos (by simp only [List.length_cons]; omega), show i - a = (i - (a + 1)) + 1 by omega]
        simp
      · rw [if_neg h1, if_neg h0, if_neg (by simp only [List.length_cons]; omega)]

/-- Two buffers in canonical form that read the same at every index are the same list. -/
theorem Memory.eq_of_read_eq {m m' : Memory} (hm : m.wf) (hm' : m'.wf) (h : ∀ a, m.read a = m'.read a) : m = m' := by
  induction m generalizing m' with
  | nil =>
    cases m' with
    | nil => rfl
    | cons c t =>
      obtain ⟨k, v⟩ := c
      have := h k
      simp only [Memory.read, if_true] at this
      exact absurd this.symm (Memory.wf_cons.1 hm').2.1
  | cons c t ih =>
    obtain ⟨k, v⟩ := c
    obtain ⟨hk, hv, ht⟩ := Memory.wf_cons.1 hm
    cases m' with
    | nil =>
      have := h k
      simp only [Memory.read, if_true] at this
      exact absurd this hv
    | cons c' t' =>
      obtain ⟨k', v'⟩ := c'
      obtain ⟨hk', hv', ht'⟩ := Memory.wf_cons.1 hm'
      have out : ∀ x, x ≤ k → Memory.read t x = unwritten := fun x hx =>
        Memory.read_of_forall_ne fun c hc => by have := hk c hc; omega
      have out' : ∀ x, x ≤ k' → Memory.read t' x = unwritten := fun x hx =>
        Memory.read_of_forall_ne fun c hc => by have := hk' c hc; omega
      have hkk : k = k' := by
        rcases Nat.lt_trichotomy k k' with hlt | heq | hgt
        · have := h k
          simp only [Memory.read, if_true, if_neg (show k' ≠ k by omega), out' k (by omega)] at this
          exact absurd this hv
        · exact heq
        · have := h k'
          simp only [Memory.read, if_true, if_neg (show k ≠ k' by omega), out k' (by omega)] at this
          exact absurd this.symm hv'
      subst hkk
      have hvv : v = v' := by simpa [Memory.read] using h k
      subst hvv
      refine congrArg _ (ih ht ht' fun a => ?_)
      by_cases ha : k = a
      · subst ha
        rw [out k le_rfl, out' k le_rfl]
      · simpa [Memory.read, ha] using h a

end Sys2Proof.Machine
end

