-- ==== Sys2Proof/Laws/State.lean ====
section
/-! SUPPORT. One lemma per field per update of the state, each true by rfl. -/

namespace Sys2Proof.Machine

/-! ### Parameters and output signals -/

@[simp] theorem typeCode_ultralight (c : Config) : c.typeCode .ultralight = c.cardTypes.ultralight := rfl
@[simp] theorem typeCode_oneK (c : Config) : c.typeCode .oneK = c.cardTypes.oneK := rfl
@[simp] theorem typeCode_fourK (c : Config) : c.typeCode .fourK = c.cardTypes.fourK := rfl
@[simp] theorem typeCode_desfire (c : Config) : c.typeCode .desfire = c.cardTypes.desfire := rfl
@[simp] theorem typeCode_pro (c : Config) : c.typeCode .pro = c.cardTypes.pro := rfl
@[simp] theorem Fcc.rspCmd_eq (f : Fcc) : f.rspCmd = f.resCmd := rfl
@[simp] theorem Fcc.rspStatus_eq (f : Fcc) : f.rspStatus = f.resStatus := rfl
@[simp] theorem Fcc.rspLen_eq (f : Fcc) : f.rspLen = f.resDlen := rfl

/-! ### Fcc -/

@[simp] theorem Fcc.encStart_chPhase (f : Fcc) : (f.encStart).chPhase = f.chPhase := rfl
@[simp] theorem Fcc.encStart_txPhase (f : Fcc) : (f.encStart).txPhase = .hdr0 := rfl
@[simp] theorem Fcc.encStart_rxPhase (f : Fcc) : (f.encStart).rxPhase = f.rxPhase := rfl
@[simp] theorem Fcc.encStart_chCmd (f : Fcc) : (f.encStart).chCmd = f.chCmd := rfl
@[simp] theorem Fcc.encStart_chLen (f : Fcc) : (f.encStart).chLen = f.chLen := rfl
@[simp] theorem Fcc.encStart_txp (f : Fcc) : (f.encStart).txp = f.txp := rfl
@[simp] theorem Fcc.encStart_txIdx (f : Fcc) : (f.encStart).txIdx = 0 := rfl
@[simp] theorem Fcc.encStart_txXor (f : Fcc) : (f.encStart).txXor = 0 := rfl
@[simp] theorem Fcc.encStart_rxHa (f : Fcc) : (f.encStart).rxHa = f.rxHa := rfl
@[simp] theorem Fcc.encStart_rxLen (f : Fcc) : (f.encStart).rxLen = f.rxLen := rfl
@[simp] theorem Fcc.encStart_rxCnt (f : Fcc) : (f.encStart).rxCnt = f.rxCnt := rfl
@[simp] theorem Fcc.encStart_rxPd (f : Fcc) : (f.encStart).rxPd = f.rxPd := rfl
@[simp] theorem Fcc.encStart_rxXor (f : Fcc) : (f.encStart).rxXor = f.rxXor := rfl
@[simp] theorem Fcc.encStart_rxb (f : Fcc) : (f.encStart).rxb = f.rxb := rfl
@[simp] theorem Fcc.encStart_resKind (f : Fcc) : (f.encStart).resKind = f.resKind := rfl
@[simp] theorem Fcc.encStart_resCmd (f : Fcc) : (f.encStart).resCmd = f.resCmd := rfl
@[simp] theorem Fcc.encStart_resStatus (f : Fcc) : (f.encStart).resStatus = f.resStatus := rfl
@[simp] theorem Fcc.encStart_resDlen (f : Fcc) : (f.encStart).resDlen = f.resDlen := rfl
@[simp] theorem Fcc.encStart_op (f : Fcc) : (f.encStart).op = f.op := rfl

@[simp] theorem Fcc.encDone_chPhase (f : Fcc) : (f.encDone).chPhase = if f.op = .encode then .idle else .flush := rfl
@[simp] theorem Fcc.encDone_txPhase (f : Fcc) : (f.encDone).txPhase = .idle := rfl
@[simp] theorem Fcc.encDone_rxPhase (f : Fcc) : (f.encDone).rxPhase = f.rxPhase := rfl
@[simp] theorem Fcc.encDone_chCmd (f : Fcc) : (f.encDone).chCmd = f.chCmd := rfl
@[simp] theorem Fcc.encDone_chLen (f : Fcc) : (f.encDone).chLen = f.chLen := rfl
@[simp] theorem Fcc.encDone_txp (f : Fcc) : (f.encDone).txp = f.txp := rfl
@[simp] theorem Fcc.encDone_txIdx (f : Fcc) : (f.encDone).txIdx = f.txIdx := rfl
@[simp] theorem Fcc.encDone_txXor (f : Fcc) : (f.encDone).txXor = f.txXor := rfl
@[simp] theorem Fcc.encDone_rxHa (f : Fcc) : (f.encDone).rxHa = f.rxHa := rfl
@[simp] theorem Fcc.encDone_rxLen (f : Fcc) : (f.encDone).rxLen = f.rxLen := rfl
@[simp] theorem Fcc.encDone_rxCnt (f : Fcc) : (f.encDone).rxCnt = f.rxCnt := rfl
@[simp] theorem Fcc.encDone_rxPd (f : Fcc) : (f.encDone).rxPd = f.rxPd := rfl
@[simp] theorem Fcc.encDone_rxXor (f : Fcc) : (f.encDone).rxXor = f.rxXor := rfl
@[simp] theorem Fcc.encDone_rxb (f : Fcc) : (f.encDone).rxb = f.rxb := rfl
@[simp] theorem Fcc.encDone_resKind (f : Fcc) : (f.encDone).resKind = f.resKind := rfl
@[simp] theorem Fcc.encDone_resCmd (f : Fcc) : (f.encDone).resCmd = f.resCmd := rfl
@[simp] theorem Fcc.encDone_resStatus (f : Fcc) : (f.encDone).resStatus = f.resStatus := rfl
@[simp] theorem Fcc.encDone_resDlen (f : Fcc) : (f.encDone).resDlen = f.resDlen := rfl
@[simp] theorem Fcc.encDone_op (f : Fcc) : (f.encDone).op = f.op := rfl

@[simp] theorem Fcc.rspTake_chPhase (f : Fcc) : (f.rspTake).chPhase = .idle := rfl
@[simp] theorem Fcc.rspTake_txPhase (f : Fcc) : (f.rspTake).txPhase = f.txPhase := rfl
@[simp] theorem Fcc.rspTake_rxPhase (f : Fcc) : (f.rspTake).rxPhase = f.rxPhase := rfl
@[simp] theorem Fcc.rspTake_chCmd (f : Fcc) : (f.rspTake).chCmd = f.chCmd := rfl
@[simp] theorem Fcc.rspTake_chLen (f : Fcc) : (f.rspTake).chLen = f.chLen := rfl
@[simp] theorem Fcc.rspTake_txp (f : Fcc) : (f.rspTake).txp = f.txp := rfl
@[simp] theorem Fcc.rspTake_txIdx (f : Fcc) : (f.rspTake).txIdx = f.txIdx := rfl
@[simp] theorem Fcc.rspTake_txXor (f : Fcc) : (f.rspTake).txXor = f.txXor := rfl
@[simp] theorem Fcc.rspTake_rxHa (f : Fcc) : (f.rspTake).rxHa = f.rxHa := rfl
@[simp] theorem Fcc.rspTake_rxLen (f : Fcc) : (f.rspTake).rxLen = f.rxLen := rfl
@[simp] theorem Fcc.rspTake_rxCnt (f : Fcc) : (f.rspTake).rxCnt = f.rxCnt := rfl
@[simp] theorem Fcc.rspTake_rxPd (f : Fcc) : (f.rspTake).rxPd = f.rxPd := rfl
@[simp] theorem Fcc.rspTake_rxXor (f : Fcc) : (f.rspTake).rxXor = f.rxXor := rfl
@[simp] theorem Fcc.rspTake_rxb (f : Fcc) : (f.rspTake).rxb = f.rxb := rfl
@[simp] theorem Fcc.rspTake_resKind (f : Fcc) : (f.rspTake).resKind = f.resKind := rfl
@[simp] theorem Fcc.rspTake_resCmd (f : Fcc) : (f.rspTake).resCmd = f.resCmd := rfl
@[simp] theorem Fcc.rspTake_resStatus (f : Fcc) : (f.rspTake).resStatus = f.resStatus := rfl
@[simp] theorem Fcc.rspTake_resDlen (f : Fcc) : (f.rspTake).resDlen = f.resDlen := rfl
@[simp] theorem Fcc.rspTake_op (f : Fcc) : (f.rspTake).op = f.op := rfl

@[simp] theorem Fcc.decStart_chPhase (f : Fcc) : (f.decStart).chPhase = f.chPhase := rfl
@[simp] theorem Fcc.decStart_txPhase (f : Fcc) : (f.decStart).txPhase = f.txPhase := rfl
@[simp] theorem Fcc.decStart_rxPhase (f : Fcc) : (f.decStart).rxPhase = .hunt := rfl
@[simp] theorem Fcc.decStart_chCmd (f : Fcc) : (f.decStart).chCmd = f.chCmd := rfl
@[simp] theorem Fcc.decStart_chLen (f : Fcc) : (f.decStart).chLen = f.chLen := rfl
@[simp] theorem Fcc.decStart_txp (f : Fcc) : (f.decStart).txp = f.txp := rfl
@[simp] theorem Fcc.decStart_txIdx (f : Fcc) : (f.decStart).txIdx = f.txIdx := rfl
@[simp] theorem Fcc.decStart_txXor (f : Fcc) : (f.decStart).txXor = f.txXor := rfl
@[simp] theorem Fcc.decStart_rxHa (f : Fcc) : (f.decStart).rxHa = false := rfl
@[simp] theorem Fcc.decStart_rxLen (f : Fcc) : (f.decStart).rxLen = f.rxLen := rfl
@[simp] theorem Fcc.decStart_rxCnt (f : Fcc) : (f.decStart).rxCnt = f.rxCnt := rfl
@[simp] theorem Fcc.decStart_rxPd (f : Fcc) : (f.decStart).rxPd = false := rfl
@[simp] theorem Fcc.decStart_rxXor (f : Fcc) : (f.decStart).rxXor = f.rxXor := rfl
@[simp] theorem Fcc.decStart_rxb (f : Fcc) : (f.decStart).rxb = f.rxb := rfl
@[simp] theorem Fcc.decStart_resKind (f : Fcc) : (f.decStart).resKind = f.resKind := rfl
@[simp] theorem Fcc.decStart_resCmd (f : Fcc) : (f.decStart).resCmd = f.resCmd := rfl
@[simp] theorem Fcc.decStart_resStatus (f : Fcc) : (f.decStart).resStatus = f.resStatus := rfl
@[simp] theorem Fcc.decStart_resDlen (f : Fcc) : (f.decStart).resDlen = f.resDlen := rfl
@[simp] theorem Fcc.decStart_op (f : Fcc) : (f.decStart).op = f.op := rfl

@[simp] theorem Fcc.receive_chPhase (f : Fcc) : (f.receive).chPhase = .recv := rfl
@[simp] theorem Fcc.receive_txPhase (f : Fcc) : (f.receive).txPhase = f.txPhase := rfl
@[simp] theorem Fcc.receive_rxPhase (f : Fcc) : (f.receive).rxPhase = .hunt := rfl
@[simp] theorem Fcc.receive_chCmd (f : Fcc) : (f.receive).chCmd = f.chCmd := rfl
@[simp] theorem Fcc.receive_chLen (f : Fcc) : (f.receive).chLen = f.chLen := rfl
@[simp] theorem Fcc.receive_txp (f : Fcc) : (f.receive).txp = f.txp := rfl
@[simp] theorem Fcc.receive_txIdx (f : Fcc) : (f.receive).txIdx = f.txIdx := rfl
@[simp] theorem Fcc.receive_txXor (f : Fcc) : (f.receive).txXor = f.txXor := rfl
@[simp] theorem Fcc.receive_rxHa (f : Fcc) : (f.receive).rxHa = false := rfl
@[simp] theorem Fcc.receive_rxLen (f : Fcc) : (f.receive).rxLen = f.rxLen := rfl
@[simp] theorem Fcc.receive_rxCnt (f : Fcc) : (f.receive).rxCnt = f.rxCnt := rfl
@[simp] theorem Fcc.receive_rxPd (f : Fcc) : (f.receive).rxPd = false := rfl
@[simp] theorem Fcc.receive_rxXor (f : Fcc) : (f.receive).rxXor = f.rxXor := rfl
@[simp] theorem Fcc.receive_rxb (f : Fcc) : (f.receive).rxb = f.rxb := rfl
@[simp] theorem Fcc.receive_resKind (f : Fcc) : (f.receive).resKind = f.resKind := rfl
@[simp] theorem Fcc.receive_resCmd (f : Fcc) : (f.receive).resCmd = f.resCmd := rfl
@[simp] theorem Fcc.receive_resStatus (f : Fcc) : (f.receive).resStatus = f.resStatus := rfl
@[simp] theorem Fcc.receive_resDlen (f : Fcc) : (f.receive).resDlen = f.resDlen := rfl
@[simp] theorem Fcc.receive_op (f : Fcc) : (f.receive).op = f.op := rfl

@[simp] theorem Fcc.raise_chPhase (k : ResKind) (c : Option Word) (f : Fcc) : (f.raise k c).chPhase = .done := rfl
@[simp] theorem Fcc.raise_txPhase (k : ResKind) (c : Option Word) (f : Fcc) : (f.raise k c).txPhase = f.txPhase := rfl
@[simp] theorem Fcc.raise_rxPhase (k : ResKind) (c : Option Word) (f : Fcc) : (f.raise k c).rxPhase = .idle := rfl
@[simp] theorem Fcc.raise_chCmd (k : ResKind) (c : Option Word) (f : Fcc) : (f.raise k c).chCmd = f.chCmd := rfl
@[simp] theorem Fcc.raise_chLen (k : ResKind) (c : Option Word) (f : Fcc) : (f.raise k c).chLen = f.chLen := rfl
@[simp] theorem Fcc.raise_txp (k : ResKind) (c : Option Word) (f : Fcc) : (f.raise k c).txp = f.txp := rfl
@[simp] theorem Fcc.raise_txIdx (k : ResKind) (c : Option Word) (f : Fcc) : (f.raise k c).txIdx = f.txIdx := rfl
@[simp] theorem Fcc.raise_txXor (k : ResKind) (c : Option Word) (f : Fcc) : (f.raise k c).txXor = f.txXor := rfl
@[simp] theorem Fcc.raise_rxHa (k : ResKind) (c : Option Word) (f : Fcc) : (f.raise k c).rxHa = f.rxHa := rfl
@[simp] theorem Fcc.raise_rxLen (k : ResKind) (c : Option Word) (f : Fcc) : (f.raise k c).rxLen = f.rxLen := rfl
@[simp] theorem Fcc.raise_rxCnt (k : ResKind) (c : Option Word) (f : Fcc) : (f.raise k c).rxCnt = f.rxCnt := rfl
@[simp] theorem Fcc.raise_rxPd (k : ResKind) (c : Option Word) (f : Fcc) : (f.raise k c).rxPd = f.rxPd := rfl
@[simp] theorem Fcc.raise_rxXor (k : ResKind) (c : Option Word) (f : Fcc) : (f.raise k c).rxXor = f.rxXor := rfl
@[simp] theorem Fcc.raise_rxb (k : ResKind) (c : Option Word) (f : Fcc) : (f.raise k c).rxb = f.rxb := rfl
@[simp] theorem Fcc.raise_resKind (k : ResKind) (c : Option Word) (f : Fcc) : (f.raise k c).resKind = k := rfl
@[simp] theorem Fcc.raise_resCmd (k : ResKind) (c : Option Word) (f : Fcc) : (f.raise k c).resCmd = c.getD f.resCmd := rfl
@[simp] theorem Fcc.raise_resStatus (k : ResKind) (c : Option Word) (f : Fcc) : (f.raise k c).resStatus = f.resStatus := rfl
@[simp] theorem Fcc.raise_resDlen (k : ResKind) (c : Option Word) (f : Fcc) : (f.raise k c).resDlen = f.resDlen := rfl
@[simp] theorem Fcc.raise_op (k : ResKind) (c : Option Word) (f : Fcc) : (f.raise k c).op = f.op := rfl

@[simp] theorem Fcc.accept_chPhase (m : Nat) (b : Byte) (f : Fcc) : (f.accept m b).chPhase = f.chPhase := rfl
@[simp] theorem Fcc.accept_txPhase (m : Nat) (b : Byte) (f : Fcc) : (f.accept m b).txPhase = f.txPhase := rfl
@[simp] theorem Fcc.accept_rxPhase (m : Nat) (b : Byte) (f : Fcc) : (f.accept m b).rxPhase = f.rxPhase := rfl
@[simp] theorem Fcc.accept_chCmd (m : Nat) (b : Byte) (f : Fcc) : (f.accept m b).chCmd = f.chCmd := rfl
@[simp] theorem Fcc.accept_chLen (m : Nat) (b : Byte) (f : Fcc) : (f.accept m b).chLen = f.chLen := rfl
@[simp] theorem Fcc.accept_txp (m : Nat) (b : Byte) (f : Fcc) : (f.accept m b).txp = f.txp := rfl
@[simp] theorem Fcc.accept_txIdx (m : Nat) (b : Byte) (f : Fcc) : (f.accept m b).txIdx = f.txIdx := rfl
@[simp] theorem Fcc.accept_txXor (m : Nat) (b : Byte) (f : Fcc) : (f.accept m b).txXor = f.txXor := rfl
@[simp] theorem Fcc.accept_rxHa (m : Nat) (b : Byte) (f : Fcc) : (f.accept m b).rxHa = f.rxHa := rfl
@[simp] theorem Fcc.accept_rxLen (m : Nat) (b : Byte) (f : Fcc) : (f.accept m b).rxLen = f.rxLen := rfl
@[simp] theorem Fcc.accept_rxCnt (m : Nat) (b : Byte) (f : Fcc) : (f.accept m b).rxCnt = f.rxCnt + 1 := rfl
@[simp] theorem Fcc.accept_rxPd (m : Nat) (b : Byte) (f : Fcc) : (f.accept m b).rxPd = pending b := rfl
@[simp] theorem Fcc.accept_rxXor (m : Nat) (b : Byte) (f : Fcc) : (f.accept m b).rxXor = fold f.rxXor b := rfl
@[simp] theorem Fcc.accept_rxb (m : Nat) (b : Byte) (f : Fcc) : (f.accept m b).rxb = if f.rxCnt.toNat < m then f.rxb.write f.rxCnt.toNat b else f.rxb := rfl
@[simp] theorem Fcc.accept_resKind (m : Nat) (b : Byte) (f : Fcc) : (f.accept m b).resKind = f.resKind := rfl
@[simp] theorem Fcc.accept_resCmd (m : Nat) (b : Byte) (f : Fcc) : (f.accept m b).resCmd = f.resCmd := rfl
@[simp] theorem Fcc.accept_resStatus (m : Nat) (b : Byte) (f : Fcc) : (f.accept m b).resStatus = f.resStatus := rfl
@[simp] theorem Fcc.accept_resDlen (m : Nat) (b : Byte) (f : Fcc) : (f.accept m b).resDlen = f.resDlen := rfl
@[simp] theorem Fcc.accept_op (m : Nat) (b : Byte) (f : Fcc) : (f.accept m b).op = f.op := rfl

@[simp] theorem Fcc.latch_chPhase (op : Operation) (c : Word) (p : List Byte) (f : Fcc) : (f.latch op c p).chPhase = .send := rfl
@[simp] theorem Fcc.latch_txPhase (op : Operation) (c : Word) (p : List Byte) (f : Fcc) : (f.latch op c p).txPhase = .hdr0 := rfl
@[simp] theorem Fcc.latch_rxPhase (op : Operation) (c : Word) (p : List Byte) (f : Fcc) : (f.latch op c p).rxPhase = f.rxPhase := rfl
@[simp] theorem Fcc.latch_chCmd (op : Operation) (c : Word) (p : List Byte) (f : Fcc) : (f.latch op c p).chCmd = c := rfl
@[simp] theorem Fcc.latch_chLen (op : Operation) (c : Word) (p : List Byte) (f : Fcc) : (f.latch op c p).chLen = BitVec.ofNat 16 p.length := rfl
@[simp] theorem Fcc.latch_txp (op : Operation) (c : Word) (p : List Byte) (f : Fcc) : (f.latch op c p).txp = f.txp.writeBytes 0 p := rfl
@[simp] theorem Fcc.latch_txIdx (op : Operation) (c : Word) (p : List Byte) (f : Fcc) : (f.latch op c p).txIdx = 0 := rfl
@[simp] theorem Fcc.latch_txXor (op : Operation) (c : Word) (p : List Byte) (f : Fcc) : (f.latch op c p).txXor = 0 := rfl
@[simp] theorem Fcc.latch_rxHa (op : Operation) (c : Word) (p : List Byte) (f : Fcc) : (f.latch op c p).rxHa = f.rxHa := rfl
@[simp] theorem Fcc.latch_rxLen (op : Operation) (c : Word) (p : List Byte) (f : Fcc) : (f.latch op c p).rxLen = f.rxLen := rfl
@[simp] theorem Fcc.latch_rxCnt (op : Operation) (c : Word) (p : List Byte) (f : Fcc) : (f.latch op c p).rxCnt = f.rxCnt := rfl
@[simp] theorem Fcc.latch_rxPd (op : Operation) (c : Word) (p : List Byte) (f : Fcc) : (f.latch op c p).rxPd = f.rxPd := rfl
@[simp] theorem Fcc.latch_rxXor (op : Operation) (c : Word) (p : List Byte) (f : Fcc) : (f.latch op c p).rxXor = f.rxXor := rfl
@[simp] theorem Fcc.latch_rxb (op : Operation) (c : Word) (p : List Byte) (f : Fcc) : (f.latch op c p).rxb = f.rxb := rfl
@[simp] theorem Fcc.latch_resKind (op : Operation) (c : Word) (p : List Byte) (f : Fcc) : (f.latch op c p).resKind = f.resKind := rfl
@[simp] theorem Fcc.latch_resCmd (op : Operation) (c : Word) (p : List Byte) (f : Fcc) : (f.latch op c p).resCmd = f.resCmd := rfl
@[simp] theorem Fcc.latch_resStatus (op : Operation) (c : Word) (p : List Byte) (f : Fcc) : (f.latch op c p).resStatus = f.resStatus := rfl
@[simp] theorem Fcc.latch_resDlen (op : Operation) (c : Word) (p : List Byte) (f : Fcc) : (f.latch op c p).resDlen = f.resDlen := rfl
@[simp] theorem Fcc.latch_op (op : Operation) (c : Word) (p : List Byte) (f : Fcc) : (f.latch op c p).op = op := rfl

/-! ### Line -/

@[simp] theorem Line.put_rx (b : Byte) (l : Line) : (l.put b).rx = l.rx := rfl
@[simp] theorem Line.put_held (b : Byte) (l : Line) : (l.put b).held = l.held ++ [b] := rfl
@[simp] theorem Line.put_sent (b : Byte) (l : Line) : (l.put b).sent = l.sent := rfl
@[simp] theorem Line.put_flushes (b : Byte) (l : Line) : (l.put b).flushes = l.flushes := rfl

@[simp] theorem Line.flushed_rx (l : Line) : (l.flushed).rx = l.rx := rfl
@[simp] theorem Line.flushed_held (l : Line) : (l.flushed).held = [] := rfl
@[simp] theorem Line.flushed_sent (l : Line) : (l.flushed).sent = l.sent ++ l.held := rfl
@[simp] theorem Line.flushed_flushes (l : Line) : (l.flushed).flushes = l.flushes + 1 := rfl

@[simp] theorem Line.leave_rx (n : Nat) (l : Line) : (l.leave n).rx = l.rx := rfl
@[simp] theorem Line.leave_held (n : Nat) (l : Line) : (l.leave n).held = l.held.drop n := rfl
@[simp] theorem Line.leave_sent (n : Nat) (l : Line) : (l.leave n).sent = l.sent ++ l.held.take n := rfl
@[simp] theorem Line.leave_flushes (n : Nat) (l : Line) : (l.leave n).flushes = l.flushes := rfl

@[simp] theorem Line.arrive_rx (d : Option Nat) (bs : List Byte) (l : Line) : (l.arrive d bs).rx = l.rx ++ (match d with | none => bs | some k => bs.take (k - l.rx.length)) := rfl
@[simp] theorem Line.arrive_held (d : Option Nat) (bs : List Byte) (l : Line) : (l.arrive d bs).held = l.held := rfl
@[simp] theorem Line.arrive_sent (d : Option Nat) (bs : List Byte) (l : Line) : (l.arrive d bs).sent = l.sent := rfl
@[simp] theorem Line.arrive_flushes (d : Option Nat) (bs : List Byte) (l : Line) : (l.arrive d bs).flushes = l.flushes := rfl

/-! ### HostAgent -/

@[simp] theorem HostAgent.abandon_agenda (h : HostAgent) : (h.abandon).agenda = h.agenda := rfl
@[simp] theorem HostAgent.abandon_proc (h : HostAgent) : (h.abandon).proc = none := rfl
@[simp] theorem HostAgent.abandon_session (h : HostAgent) : (h.abandon).session = .idle := rfl
@[simp] theorem HostAgent.abandon_card (h : HostAgent) : (h.abandon).card = none := rfl
@[simp] theorem HostAgent.abandon_lastXfer (h : HostAgent) : (h.abandon).lastXfer = h.lastXfer := rfl
@[simp] theorem HostAgent.abandon_outcome (h : HostAgent) : (h.abandon).outcome = h.outcome := rfl
@[simp] theorem HostAgent.abandon_reports (h : HostAgent) : (h.abandon).reports = h.reports := rfl

@[simp] theorem HostAgent.finish_agenda (o : HostOutcome) (h : HostAgent) : (h.finish o).agenda = h.agenda := rfl
@[simp] theorem HostAgent.finish_proc (o : HostOutcome) (h : HostAgent) : (h.finish o).proc = none := rfl
@[simp] theorem HostAgent.finish_session (o : HostOutcome) (h : HostAgent) : (h.finish o).session = h.session := rfl
@[simp] theorem HostAgent.finish_card (o : HostOutcome) (h : HostAgent) : (h.finish o).card = h.card := rfl
@[simp] theorem HostAgent.finish_lastXfer (o : HostOutcome) (h : HostAgent) : (h.finish o).lastXfer = h.lastXfer := rfl
@[simp] theorem HostAgent.finish_outcome (o : HostOutcome) (h : HostAgent) : (h.finish o).outcome = some o := rfl
@[simp] theorem HostAgent.finish_reports (o : HostOutcome) (h : HostAgent) : (h.finish o).reports = h.reports := rfl

@[simp] theorem HostAgent.report_agenda (sl : KeySlot) (k : List Byte) (h : HostAgent) : (h.report sl k).agenda = h.agenda := rfl
@[simp] theorem HostAgent.report_proc (sl : KeySlot) (k : List Byte) (h : HostAgent) : (h.report sl k).proc = h.proc := rfl
@[simp] theorem HostAgent.report_session (sl : KeySlot) (k : List Byte) (h : HostAgent) : (h.report sl k).session = h.session := rfl
@[simp] theorem HostAgent.report_card (sl : KeySlot) (k : List Byte) (h : HostAgent) : (h.report sl k).card = h.card := rfl
@[simp] theorem HostAgent.report_lastXfer (sl : KeySlot) (k : List Byte) (h : HostAgent) : (h.report sl k).lastXfer = h.lastXfer := rfl
@[simp] theorem HostAgent.report_outcome (sl : KeySlot) (k : List Byte) (h : HostAgent) : (h.report sl k).outcome = h.outcome := rfl
@[simp] theorem HostAgent.report_reports (sl : KeySlot) (k : List Byte) (h : HostAgent) : (h.report sl k).reports = h.reports ++ [(sl, k)] := rfl

/-! ### State -/

@[simp] theorem State.bytesArrive_cfg (bs : List Byte) (s : State) : (s.bytesArrive bs).cfg = s.cfg := rfl
@[simp] theorem State.bytesArrive_fcc (bs : List Byte) (s : State) : (s.bytesArrive bs).fcc = s.fcc := rfl
@[simp] theorem State.bytesArrive_host (bs : List Byte) (s : State) : (s.bytesArrive bs).host = s.host := rfl
@[simp] theorem State.bytesArrive_env (bs : List Byte) (s : State) : (s.bytesArrive bs).env = s.env := rfl
@[simp] theorem State.bytesArrive_line (bs : List Byte) (s : State) : (s.bytesArrive bs).line = s.line.arrive s.cfg.lineDepth bs := rfl

@[simp] theorem State.lineEvent_cfg (x : Input) (s : State) : (s.lineEvent x).cfg = s.cfg := rfl
@[simp] theorem State.lineEvent_fcc (x : Input) (s : State) : (s.lineEvent x).fcc = s.fcc := rfl
@[simp] theorem State.lineEvent_line (x : Input) (s : State) : (s.lineEvent x).line = (s.line.leave x.leave).arrive s.cfg.lineDepth x.arrive := rfl
@[simp] theorem State.lineEvent_host (x : Input) (s : State) : (s.lineEvent x).host = s.host := rfl
@[simp] theorem State.lineEvent_env (x : Input) (s : State) : (s.lineEvent x).env = s.env.advance := rfl

@[simp] theorem State.rstEvent_cfg (s : State) : (s.rstEvent).cfg = s.cfg := rfl
@[simp] theorem State.rstEvent_fcc (s : State) : (s.rstEvent).fcc = Fcc.reset := rfl
@[simp] theorem State.rstEvent_line (s : State) : (s.rstEvent).line = s.line := rfl
@[simp] theorem State.rstEvent_host (s : State) : (s.rstEvent).host = s.host.abandon := rfl
@[simp] theorem State.rstEvent_env (s : State) : (s.rstEvent).env = s.env := rfl

@[simp] theorem State.sendByte_cfg (s : State) : (s.sendByte).cfg = s.cfg := rfl
@[simp] theorem State.sendByte_fcc (s : State) : (s.sendByte).fcc = s.fcc.txNext := rfl
@[simp] theorem State.sendByte_line (s : State) : (s.sendByte).line = s.line.put s.fcc.txData := rfl
@[simp] theorem State.sendByte_host (s : State) : (s.sendByte).host = s.host := rfl
@[simp] theorem State.sendByte_env (s : State) : (s.sendByte).env = s.env := rfl

@[simp] theorem State.flushEvent_cfg (s : State) : (s.flushEvent).cfg = s.cfg := rfl
@[simp] theorem State.flushEvent_fcc (s : State) : (s.flushEvent).fcc = s.fcc.receive := rfl
@[simp] theorem State.flushEvent_line (s : State) : (s.flushEvent).line = s.line.flushed := rfl
@[simp] theorem State.flushEvent_host (s : State) : (s.flushEvent).host = s.host := rfl
@[simp] theorem State.flushEvent_env (s : State) : (s.flushEvent).env = s.env := rfl

@[simp] theorem State.takeEvent_cfg (s : State) : (s.takeEvent).cfg = s.cfg := rfl
@[simp] theorem State.takeEvent_fcc (s : State) : (s.takeEvent).fcc = s.fcc.rspTake := rfl
@[simp] theorem State.takeEvent_line (s : State) : (s.takeEvent).line = s.line := rfl
@[simp] theorem State.takeEvent_host (s : State) : (s.takeEvent).host = s.host.afterResult s.cfg s.fcc.readResult := rfl
@[simp] theorem State.takeEvent_env (s : State) : (s.takeEvent).env = s.env := rfl

@[simp] theorem State.waits_cfg (i : Instr) (s : State) : (s.waits i).cfg = s.cfg := rfl
@[simp] theorem State.waits_fcc (i : Instr) (s : State) : (s.waits i).fcc = s.fcc := rfl
@[simp] theorem State.waits_line (i : Instr) (s : State) : (s.waits i).line = s.line := rfl
@[simp] theorem State.waits_host (i : Instr) (s : State) : (s.waits i).host = { s.host with agenda := .op i :: s.host.agenda } := rfl
@[simp] theorem State.waits_env (i : Instr) (s : State) : (s.waits i).env = s.env := rfl

@[simp] theorem State.acceptRequest_cfg (op : Operation) (c : Word) (p : List Byte) (s : State) : (s.acceptRequest op c p).cfg = s.cfg := rfl
@[simp] theorem State.acceptRequest_fcc (op : Operation) (c : Word) (p : List Byte) (s : State) : (s.acceptRequest op c p).fcc = s.fcc.latch op c p := rfl
@[simp] theorem State.acceptRequest_line (op : Operation) (c : Word) (p : List Byte) (s : State) : (s.acceptRequest op c p).line = s.line := rfl
@[simp] theorem State.acceptRequest_host (op : Operation) (c : Word) (p : List Byte) (s : State) : (s.acceptRequest op c p).host = s.host := rfl
@[simp] theorem State.acceptRequest_env (op : Operation) (c : Word) (p : List Byte) (s : State) : (s.acceptRequest op c p).env = s.env := rfl

/-! ### The RX byte event -/

theorem State.takeByte_nil {s : State} (h : s.line.rx = []) : s.takeByte = s := by simp [State.takeByte, h]

theorem State.takeByte_cons {s : State} {b : Byte} {t : List Byte} (h : s.line.rx = b :: t) :
    s.takeByte = { s with fcc := s.fcc.rxNext s.cfg.rxBufMax b, line := { s.line with rx := t } } := by
  simp [State.takeByte, h]

@[simp] theorem State.takeByte_cfg (s : State) : s.takeByte.cfg = s.cfg := by unfold State.takeByte; split <;> rfl
@[simp] theorem State.takeByte_host (s : State) : s.takeByte.host = s.host := by unfold State.takeByte; split <;> rfl
@[simp] theorem State.takeByte_env (s : State) : s.takeByte.env = s.env := by unfold State.takeByte; split <;> rfl

end Sys2Proof.Machine
end

