-- ==== Sys2Proof/Laws/Step.lean ====
section
/-! SUPPORT. What one step does in each phase, and runs of steps. -/

namespace Sys2Proof.Machine

theorem step_eq (s : State) : step s = inputEvent s.env.current s := rfl

@[simp] theorem run_zero (s : State) : run 0 s = .next s := rfl

theorem run_succ_of_next {s t : State} (n : Nat) (h : step s = .next t) : run (n + 1) s = run n t := by
  have h' : Sys2Proof.core.step s = .next t := h
  have e := Host.Core.run.eq_2 Sys2Proof.core s n
  rw [h'] at e
  exact e

theorem run_succ_of_fault {s : State} {r : Fault} (n : Nat) (h : step s = .fault r) : run (n + 1) s = .fault r := by
  have h' : Sys2Proof.core.step s = .fault r := h
  have e := Host.Core.run.eq_2 Sys2Proof.core s n
  rw [h'] at e
  exact e

theorem run_succ_of_refused {s : State} {r : Refusal} (n : Nat) (h : step s = .refused r) :
    run (n + 1) s = .refused r := by
  have h' : Sys2Proof.core.step s = .refused r := h
  have e := Host.Core.run.eq_2 Sys2Proof.core s n
  rw [h'] at e
  exact e

theorem run_add_of_next {s t : State} (m n : Nat) (h : run m s = .next t) : run (m + n) s = run n t := by
  induction m generalizing s with
  | zero => cases h; rw [Nat.zero_add]
  | succ m ih =>
    cases hs : step s with
    | next u =>
      rw [run_succ_of_next m hs] at h
      rw [Nat.succ_add, run_succ_of_next _ hs, ih h]
    | fault r => rw [run_succ_of_fault m hs] at h; cases h
    | refused r => rw [run_succ_of_refused m hs] at h; cases h

/-- A machine whose inputs are all `ready` sees nothing arrive or leave by itself. -/
theorem lineEvent_ready {s : State} (h : s.env = Env.ready) : s.lineEvent Input.ready = s := by
  obtain ⟨cfg, fcc, ⟨rx, held, sent, fl⟩, host, env⟩ := s
  subst h
  simp only [State.lineEvent, Line.leave, Line.arrive, Input.ready, Env.advance, Env.ready]
  cases cfg.lineDepth <;> simp

theorem step_ready {s : State} (h : s.env = Env.ready) : step s = phaseEvent Input.ready s := by
  have hc : s.env.current = Input.ready := by rw [h]; rfl
  rw [step_eq, hc, inputEvent, lineEvent_ready h]
  rfl

theorem step_send {s : State} (he : s.env = Env.ready) (hc : s.fcc.chPhase = .send) (ht : s.fcc.txPhase ≠ .idle) :
    step s = .next s.sendByte := by
  rw [step_ready he, phaseEvent, hc]
  simp [ht, Input.ready]

theorem step_flush {s : State} (he : s.env = Env.ready) (hc : s.fcc.chPhase = .flush) :
    step s = .next s.flushEvent := by
  rw [step_ready he, phaseEvent, hc]
  simp [Input.ready]

theorem step_recv {s : State} (he : s.env = Env.ready) (hc : s.fcc.chPhase = .recv) (hr : s.fcc.rxPhase ≠ .idle) :
    step s = .next s.takeByte := by
  rw [step_ready he, phaseEvent, hc]
  simp [hr, Input.ready]

theorem step_done {s : State} (he : s.env = Env.ready) (hc : s.fcc.chPhase = .done) :
    step s = .next s.takeEvent := by
  rw [step_ready he, phaseEvent, hc]
  simp [Input.ready]

theorem step_idle {s : State} (he : s.env = Env.ready) (hc : s.fcc.chPhase = .idle) : step s = hostEvent s := by
  rw [step_ready he, phaseEvent, hc]
  simp [Input.ready]

/-- Every well-formed instruction is in range: what the fetch refuses is never of the spec's form. -/
theorem inRange_of_wf {i : Instr} (h : i.wf = true) : inRange i = true := by
  cases i <;> simp_all [Instr.wf, inRange]

end Sys2Proof.Machine
end

