-- ==== Sys2Proof/Laws/Dec.lean ====
section
/-! SUPPORT. DEC: the sequencer takes from the stream what DECODE takes, and its result registers hold DECODE's result. -/

namespace Sys2Proof.Machine

/-- DEC takes bytes of a stream until it is idle: where it ends, and what is left. -/
def Fcc.takes (m : Nat) : List Byte → Fcc → Fcc × List Byte
  | [], f => (f, [])
  | b :: t, f => if f.rxPhase = .idle then (f, b :: t) else Fcc.takes m t (f.rxNext m b)

theorem Fcc.takes_nil (m : Nat) (f : Fcc) : Fcc.takes m [] f = (f, []) := rfl

theorem Fcc.takes_cons (m : Nat) (b : Byte) (t : List Byte) {f : Fcc} (h : f.rxPhase ≠ .idle) :
    Fcc.takes m (b :: t) f = Fcc.takes m t (f.rxNext m b) := by
  rw [Fcc.takes, if_neg h]

theorem Fcc.takes_idle (m : Nat) (s : List Byte) {f : Fcc} (h : f.rxPhase = .idle) : Fcc.takes m s f = (f, s) := by
  cases s with
  | nil => rfl
  | cons b t => rw [Fcc.takes, if_pos h]

theorem Fcc.takes_length_le (m : Nat) (t : List Byte) (f : Fcc) : (Fcc.takes m t f).2.length ≤ t.length := by
  induction t generalizing f with
  | nil => simp [Fcc.takes]
  | cons c t ih =>
    rw [Fcc.takes]
    split
    · exact le_rfl
    · exact le_trans (ih _) (by simp)

/-! ### The evaluation -/

theorem Fcc.decoded_phases (f : Fcc) : f.decoded.rxPhase = .idle ∧ f.decoded.chPhase = .done := by
  unfold Fcc.decoded
  split <;> exact ⟨rfl, rfl⟩

theorem Fcc.evaluate_phases (m : Nat) (f : Fcc) : (f.evaluate m).rxPhase = .idle ∧ (f.evaluate m).chPhase = .done := by
  unfold Fcc.evaluate
  split
  · exact ⟨rfl, rfl⟩
  · split
    · exact ⟨rfl, rfl⟩
    · exact f.decoded_phases

/-- What the evaluation leaves alone: every register but `RES_*` and the two phases. -/
theorem Fcc.evaluate_fields (m : Nat) (f : Fcc) :
    (f.evaluate m).txPhase = f.txPhase ∧ (f.evaluate m).chCmd = f.chCmd ∧ (f.evaluate m).chLen = f.chLen ∧
      (f.evaluate m).txp = f.txp ∧ (f.evaluate m).rxLen = f.rxLen ∧ (f.evaluate m).rxb = f.rxb ∧
      (f.evaluate m).op = f.op ∧ (f.evaluate m).rxCnt = f.rxCnt ∧ (f.evaluate m).rxXor = f.rxXor := by
  unfold Fcc.evaluate Fcc.decoded
  split
  · simp
  · split
    · simp
    · split <;> simp

/-- An error is raised in one of two ways: without a command, or with the frame's (R241 to R243). -/
theorem Fcc.evaluate_error {m : Nat} {f : Fcc} (h : (f.evaluate m).resKind ≠ .ok) :
    f.evaluate m = f.raise .framing none ∨
      ∃ k, k ≠ .framing ∧ f.evaluate m = f.raise k (some f.rxCommand) := by
  unfold Fcc.evaluate Fcc.decoded at *
  split at h
  · rename_i h1; exact .inl (if_pos h1)
  · rename_i h1
    rw [if_neg h1]
    split at h
    · rename_i h2; exact .inr ⟨.checksum, by simp, if_pos h2⟩
    · rename_i h2
      rw [if_neg h2]
      split at h
      · rename_i h3; exact .inr ⟨.mismatch, by simp, if_pos h3⟩
      · exact absurd rfl h

/-- While DEC runs on, CH stays. -/
theorem Fcc.rxNext_chPhase {m : Nat} {b : Byte} {f : Fcc} (h : (f.rxNext m b).rxPhase ≠ .idle) :
    (f.rxNext m b).chPhase = f.chPhase := by
  unfold Fcc.rxNext at *
  split at h <;> simp_all only
  · split <;> rfl
  · split at h
    · exact absurd (Fcc.evaluate_phases _ _).1 h
    · simp_all
  · split
    · rfl
    · split at h
      · simp_all
      · split at h
        · exact absurd (Fcc.evaluate_phases _ _).1 h
        · simp_all

/-- Where DEC ends in a byte event, it is by the evaluation, of registers in which nothing of CH, of ENC or of the
result has changed. -/
theorem Fcc.rxNext_done {m : Nat} {b : Byte} {f : Fcc} (hc : f.chPhase = .recv) (hp : f.rxPhase ≠ .idle)
    (h : (f.rxNext m b).chPhase = .done) :
    ∃ g : Fcc, f.rxNext m b = g.evaluate m ∧ g.resCmd = f.resCmd ∧ g.resStatus = f.resStatus ∧ g.resDlen = f.resDlen ∧
      g.chCmd = f.chCmd ∧ g.chLen = f.chLen ∧ g.txp = f.txp ∧ g.txPhase = f.txPhase ∧ g.txIdx = f.txIdx ∧
      g.txXor = f.txXor := by
  unfold Fcc.rxNext at h ⊢
  split at h
  · contradiction
  · split at h <;> simp [hc] at h
  · simp [hc] at h
  · simp only at h ⊢
    split at h
    · rename_i hz; rw [if_pos hz]; exact ⟨_, rfl, by simp⟩
    · simp [hc] at h
  · split at h
    · simp [hc] at h
    · split at h
      · rename_i hz hz'
        exact ⟨f.accept m b, by simp only [if_neg hz, if_pos hz'], rfl, rfl, rfl, rfl, rfl, rfl, rfl, rfl, rfl⟩
      · simp [hc] at h

/-! ### Runs -/

/-- With a LINE that offers, DEC's events are steps: after as many as bytes are taken, the machine stands where
`takes` says (R52, R163). -/
theorem run_of_takes (stream : List Byte) :
    ∀ {s : State}, s.line.rx = stream → s.env = Env.ready → s.fcc.chPhase = .recv → s.fcc.rxPhase ≠ .idle →
      run (stream.length - (s.fcc.takes s.cfg.rxBufMax stream).2.length) s =
        .next { s with fcc := (s.fcc.takes s.cfg.rxBufMax stream).1,
                       line := { s.line with rx := (s.fcc.takes s.cfg.rxBufMax stream).2 } } := by
  induction stream with
  | nil =>
    intro s hs _ _ _
    obtain ⟨cfg, fcc, ⟨rx, held, sent, fl⟩, host, env⟩ := s
    simp only at hs
    subst hs
    simp [Fcc.takes_nil]
  | cons b t ih =>
    intro s hs he hc hr
    have hstep := step_recv he hc hr
    rw [State.takeByte_cons hs] at hstep
    rw [Fcc.takes_cons _ _ _ hr]
    by_cases hi : (s.fcc.rxNext s.cfg.rxBufMax b).rxPhase = .idle
    · rw [Fcc.takes_idle _ _ hi, List.length_cons, Nat.add_sub_cancel_left, run_succ_of_next 0 hstep]
      rfl
    · have hrec := ih (s := { s with fcc := s.fcc.rxNext s.cfg.rxBufMax b, line := { s.line with rx := t } }) rfl he
        (by rw [← hc]; exact Fcc.rxNext_chPhase hi) hi
      have hle := Fcc.takes_length_le s.cfg.rxBufMax t (s.fcc.rxNext s.cfg.rxBufMax b)
      rw [List.length_cons, Nat.succ_sub hle, run_succ_of_next _ hstep]
      exact hrec

/-! ### The hunt -/

theorem takes_hunt (m : Nat) (stream : List Byte) :
    ∀ f : Fcc, f.rxPhase = .hunt →
      match hunt f.rxHa stream with
      | some rest => Fcc.takes m stream f = Fcc.takes m rest { f with rxHa := true, rxPhase := .len0 }
      | none => ∃ ha, Fcc.takes m stream f = ({ f with rxHa := ha }, []) := by
  induction stream with
  | nil => intro f _; exact ⟨f.rxHa, rfl⟩
  | cons b t ih =>
    intro f hp
    have hne : f.rxPhase ≠ .idle := by rw [hp]; decide
    rw [hunt]
    by_cases hb : f.rxHa = true ∧ b = hdr1
    · have hnext : f.rxNext m b = { f with rxHa := true, rxPhase := .len0 } := by
        obtain ⟨h1, h2⟩ := hb
        simp [Fcc.rxNext, hp, headerSeen, h1, h2]
      rw [if_pos hb]
      simp only
      rw [Fcc.takes_cons _ _ _ hne, hnext]
    · have hseen : headerSeen f.rxHa b = false := by
        simp only [headerSeen, Bool.and_eq_false_iff, beq_eq_false_iff_ne]
        cases h : f.rxHa
        · exact .inl rfl
        · exact .inr fun h2 => hb ⟨h, h2⟩
      have hnext : f.rxNext m b = { f with rxHa := hunted b } := by simp [Fcc.rxNext, hp, hseen]
      rw [if_neg hb, Fcc.takes_cons _ _ _ hne, hnext]
      exact ih { f with rxHa := hunted b } hp

/-! ### The body -/

/-- DEC accepts logical bytes in turn. -/
def Fcc.acceptAll (m : Nat) (l : List Byte) (f : Fcc) : Fcc := l.foldl (fun g b => g.accept m b) f

theorem Fcc.acceptAll_cons (m : Nat) (b : Byte) (l : List Byte) (f : Fcc) :
    f.acceptAll m (b :: l) = (f.accept m b).acceptAll m l := rfl

theorem takes_body (m : Nat) (stream : List Byte) :
    ∀ f : Fcc, f.rxPhase = .body → f.rxCnt.toNat < f.rxLen.toNat →
      match takeBody (f.rxLen.toNat - f.rxCnt.toNat) f.rxPd stream with
      | some r => Fcc.takes m stream f = ((f.acceptAll m r.1).evaluate m, r.2)
      | none => (Fcc.takes m stream f).2 = [] ∧ (Fcc.takes m stream f).1.rxPhase = .body ∧
          (Fcc.takes m stream f).1.chPhase = f.chPhase := by
  induction stream with
  | nil =>
    intro f hp hlt
    obtain ⟨k, hk⟩ : ∃ k, f.rxLen.toNat - f.rxCnt.toNat = k + 1 := ⟨f.rxLen.toNat - f.rxCnt.toNat - 1, by omega⟩
    rw [hk]
    exact ⟨rfl, hp, rfl⟩
  | cons b t ih =>
    intro f hp hlt
    have hne : f.rxPhase ≠ .idle := by rw [hp]; decide
    obtain ⟨k, hk⟩ : ∃ k, f.rxLen.toNat - f.rxCnt.toNat = k + 1 := ⟨f.rxLen.toNat - f.rxCnt.toNat - 1, by omega⟩
    rw [hk, takeBody, Fcc.takes_cons _ _ _ hne]
    by_cases hb : f.rxPd = true ∧ b = stuffByte
    · have hnext : f.rxNext m b = { f with rxPd := false } := by
        obtain ⟨h1, h2⟩ := hb
        simp [Fcc.rxNext, hp, isPartner, h1, h2]
      rw [if_pos hb, hnext]
      have := ih { f with rxPd := false } hp hlt
      simp only [hk] at this
      revert this
      cases hr : takeBody (k + 1) false t with
      | none => exact id
      | some r =>
        intro h
        rw [h]
        have hlen := (takeBody_length hr).1
        have hl : (Fcc.acceptAll m r.1 { f with rxPd := false }).evaluate m = (f.acceptAll m r.1).evaluate m := by
          cases hr1 : r.1 with
          | nil => rw [hr1] at hlen; cases hlen
          | cons c l => rfl
        rw [hl]
    · have hpart : isPartner f.rxPd b = false := by
        simp only [isPartner, Bool.and_eq_false_iff, beq_eq_false_iff_ne]
        cases h : f.rxPd
        · exact .inl rfl
        · exact .inr fun h2 => hb ⟨h, h2⟩
      have hcnt : (f.accept m b).rxCnt.toNat = f.rxCnt.toNat + 1 := by
        have := f.rxLen.isLt
        rw [Fcc.accept_rxCnt, BitVec.toNat_add]; simp; omega
      rw [if_neg hb]
      by_cases hend : (f.accept m b).rxCnt = f.rxLen
      · have hk0 : k = 0 := by have := congrArg BitVec.toNat hend; omega
        have hnext : f.rxNext m b = (f.accept m b).evaluate m := by
          simp only [Fcc.rxNext, hp, hpart, Bool.false_eq_true, if_false, if_pos hend]
        subst hk0
        rw [hnext, Fcc.takes_idle _ _ (Fcc.evaluate_phases _ _).1, takeBody]
        rfl
      · have hlt' : (f.accept m b).rxCnt.toNat < (f.accept m b).rxLen.toNat := by
          rw [hcnt, Fcc.accept_rxLen]
          have : (f.accept m b).rxCnt.toNat ≠ f.rxLen.toNat := fun h => hend (BitVec.eq_of_toNat_eq h)
          omega
        have hnext : f.rxNext m b = f.accept m b := by
          simp only [Fcc.rxNext, hp, hpart, Bool.false_eq_true, if_false, if_neg hend]
        have hk' : (f.accept m b).rxLen.toNat - (f.accept m b).rxCnt.toNat = k := by
          rw [hcnt, Fcc.accept_rxLen]; omega
        have := ih (f.accept m b) hp hlt'
        rw [hk', Fcc.accept_rxPd] at this
        rw [hnext]
        change (match takeBody k (b == escByte) t with | some r => _ | none => _) at this
        revert this
        cases takeBody k (b == escByte) t with
        | none => exact id
        | some r => exact id

/-! ### The registers at the end of the body -/

theorem Fcc.acceptAll_spec (m : Nat) (l : List Byte) :
    ∀ f : Fcc, f.rxCnt.toNat + l.length < 65536 →
      (f.acceptAll m l).rxCnt.toNat = f.rxCnt.toNat + l.length ∧ (f.acceptAll m l).rxXor = f.rxXor ^^^ xor8 l ∧
      (f.rxCnt.toNat + l.length ≤ m → (f.acceptAll m l).rxb = f.rxb.writeBytes f.rxCnt.toNat l) ∧
      (f.acceptAll m l).rxLen = f.rxLen ∧ (f.acceptAll m l).chCmd = f.chCmd ∧ (f.acceptAll m l).op = f.op := by
  induction l with
  | nil => intro f _; simp [Fcc.acceptAll, Memory.writeBytes]
  | cons b l ih =>
    intro f hlt
    simp only [List.length_cons] at hlt
    have hcnt : (f.accept m b).rxCnt.toNat = f.rxCnt.toNat + 1 := by
      rw [Fcc.accept_rxCnt, BitVec.toNat_add]; simp; omega
    obtain ⟨h1, h2, h3, h4, h5, h6⟩ := ih (f.accept m b) (by omega)
    rw [Fcc.acceptAll_cons]
    refine ⟨by rw [h1, hcnt, List.length_cons]; omega, ?_, fun hm => ?_, h4, h5, h6⟩
    · rw [h2]; simp [fold, BitVec.xor_assoc]
    · simp only [List.length_cons] at hm
      rw [h3 (by omega), hcnt, Fcc.accept_rxb, if_pos (by omega)]
      rfl

theorem xor8_eq_zero_iff (l : List Byte) (h : l ≠ []) :
    xor8 l = 0 ↔ xor8 (l.take (l.length - 1)) = l.getD (l.length - 1) 0 := by
  obtain ⟨i, x, rfl⟩ : ∃ i x, l = i ++ [x] := ⟨l.dropLast, l.getLast h, (List.dropLast_append_getLast h).symm⟩
  have ht : (i ++ [x]).take ((i ++ [x]).length - 1) = i := by simp
  have hg : (i ++ [x]).getD ((i ++ [x]).length - 1) 0 = x := by simp [List.getD_eq_getElem?_getD]
  rw [ht, hg, xor8_snoc]
  exact BitVec.xor_eq_zero_iff

/-- The evaluation computes DECODE's result from the registers (R36, R157 to R160). -/
theorem Fcc.evaluate_spec (m : Nat) (g : Fcc) (buf : List Byte) (hlen : g.rxLen.toNat = buf.length)
    (hxor : g.rxXor = xor8 buf) (hbuf : buf.length ≤ m → ∀ i < buf.length, g.rxb.read i = buf.getD i 0) :
    (g.evaluate m).readResult = resultOf g.op g.chCmd (Sys2Proof.Machine.evaluate m buf) := by
  unfold Fcc.evaluate Sys2Proof.Machine.evaluate
  by_cases hf : buf.length < 6 ∨ m < buf.length
  · have : framingFails g.rxLen m = true := by simpa [framingFails, hlen] using hf
    rw [if_pos this, if_pos hf]
    unfold resultOf
    split <;> rfl
  · have hnf : framingFails g.rxLen m = false := by
      simp only [framingFails, hlen, Bool.or_eq_false_iff, decide_eq_false_iff_not]
      exact not_or.1 hf
    have h6 : 6 ≤ buf.length := by omega
    have hm : buf.length ≤ m := by omega
    have hr := hbuf hm
    have hst : g.rxStatus = buf.getD 4 0 := hr 4 (by omega)
    have hcmd : g.rxCommand = le16 (buf.getD 2 0) (buf.getD 3 0) := by
      rw [Fcc.rxCommand, hr 2 (by omega), hr 3 (by omega)]
    rw [if_neg (by simp [hnf]), if_neg hf]
    have hne : buf ≠ [] := by rintro rfl; simp at h6
    by_cases hc : buf.getD 4 0 = statusOk ∧ xor8 (buf.take (buf.length - 1)) ≠ buf.getD (buf.length - 1) 0
    · have : checksumFails g.rxStatus g.rxXor = true := by
        simp only [checksumFails, hst, hc.1, hxor, beq_self_eq_true, Bool.true_and, bne_iff_ne, ne_eq]
        exact fun h => hc.2 ((xor8_eq_zero_iff buf hne).1 h)
      rw [if_pos this, if_pos hc, hcmd]
      unfold resultOf
      split <;> rfl
    · have : ¬ checksumFails g.rxStatus g.rxXor = true := by
        simp only [checksumFails, hst, hxor, Bool.and_eq_true, beq_iff_eq, bne_iff_ne, ne_eq]
        exact fun h => hc ⟨h.1, fun h' => h.2 ((xor8_eq_zero_iff buf hne).2 h')⟩
      rw [if_neg this, if_neg hc]
      have hdl : (g.rxLen - 6).toNat = buf.length - 6 := by
        have := g.rxLen.isLt
        rw [BitVec.toNat_sub, hlen]
        simp
        omega
      have hdata : (List.range (g.rxLen - 6).toNat).map (fun i => g.rxb.read (5 + i)) =
          (buf.drop 5).take (buf.length - 6) := by
        rw [hdl]
        apply List.ext_getElem
        · simp; omega
        · intro i h1 h2
          simp only [List.length_map, List.length_range] at h1
          have hi : 5 + i < buf.length := by omega
          simp [hr (5 + i) hi, List.getD_eq_getElem?_getD, hi]
      unfold Fcc.decoded resultOf
      by_cases hop : g.op = .decode
      · rw [if_neg (by simp [hop]), if_pos hop]
        simp only [Fcc.readResult, decodeResult, Fcc.rspCmd, Fcc.rspStatus, Fcc.rspData, hst, hcmd, hdata]
      · rw [if_neg hop]
        by_cases hecho : g.rxCommand = g.chCmd
        · rw [if_neg (by simp [hecho])]
          simp only [Fcc.readResult, xferResult, Fcc.rspCmd, Fcc.rspStatus, Fcc.rspData, hst, hdata]
          rw [if_pos (by rw [← hcmd, hecho]), hcmd]
        · rw [if_pos ⟨hop, hecho⟩]
          simp only [Fcc.readResult, xferResult, Fcc.rspCmd, Fcc.raise_resKind, Fcc.raise_resCmd, Option.getD_some]
          rw [if_neg (by rw [← hcmd]; exact hecho), hcmd]

/-! ### The whole of DECODE -/

/-- From the start of DEC on a stream: it ends with DECODE's result and leaves what DECODE leaves, or the stream ends
first and DEC is still asking (R140, R146 to R160, R165). -/
theorem takes_decode (m : Nat) (stream : List Byte) (f : Fcc) (hw : f.rxb.wf) (hc : f.chPhase = .recv)
    (hp : f.rxPhase = .hunt) (hha : f.rxHa = false) :
    match decodeStream m stream with
    | some (r, rest) => (Fcc.takes m stream f).2 = rest ∧ (Fcc.takes m stream f).1.chPhase = .done ∧
        (Fcc.takes m stream f).1.rxPhase = .idle ∧ (Fcc.takes m stream f).1.readResult = resultOf f.op f.chCmd r
    | none => (Fcc.takes m stream f).2 = [] ∧ (Fcc.takes m stream f).1.chPhase = .recv ∧
        (Fcc.takes m stream f).1.rxPhase ≠ .idle := by
  have hh := takes_hunt m stream f hp
  rw [hha] at hh
  unfold decodeStream
  cases hhunt : hunt false stream with
  | none =>
    rw [hhunt] at hh
    obtain ⟨ha, h⟩ := hh
    simp only [h]
    exact ⟨trivial, hc, by simp [hp]⟩
  | some rest =>
    rw [hhunt] at hh
    simp only at hh
    rw [hh]
    match rest with
    | [] => exact ⟨rfl, hc, by simp [Fcc.takes_nil]⟩
    | [n0] => exact ⟨rfl, hc, by simp [Fcc.takes, Fcc.rxNext]⟩
    | n0 :: n1 :: t =>
      simp only
      rw [Fcc.takes_cons _ _ _ (by simp)]
      have hn0 : Fcc.rxNext m n0 { f with rxHa := true, rxPhase := .len0 } =
          { f with rxHa := true, rxLen := le16 n0 (hi8 f.rxLen), rxPhase := .len1 } := rfl
      rw [hn0, Fcc.takes_cons _ _ _ (by simp)]
      let g : Fcc := { f with rxHa := true, rxPhase := .len1, rxLen := le16 n0 n1, rxCnt := 0, rxPd := false,
                              rxXor := 0x00 }
      have hn1 : Fcc.rxNext m n1 { f with rxHa := true, rxLen := le16 n0 (hi8 f.rxLen), rxPhase := .len1 } =
          if le16 n0 n1 = 0#16 then g.evaluate m else { g with rxPhase := .body } := by
        simp [Fcc.rxNext, g]
      rw [hn1]
      by_cases hz : le16 n0 n1 = 0#16
      · have hz' : (le16 n0 n1).toNat = 0 := by rw [hz]; rfl
        rw [if_pos hz, Fcc.takes_idle _ _ (Fcc.evaluate_phases _ _).1, hz', takeBody]
        refine ⟨rfl, (Fcc.evaluate_phases _ _).2, (Fcc.evaluate_phases _ _).1, ?_⟩
        exact Fcc.evaluate_spec m g [] hz' rfl (by simp)
      · rw [if_neg hz]
        have hpos : 0 < (le16 n0 n1).toNat := by
          rcases Nat.eq_zero_or_pos (le16 n0 n1).toNat with h | h
          · exact absurd (BitVec.eq_of_toNat_eq (by rw [h]; rfl)) hz
          · exact h
        have hb := takes_body m t { g with rxPhase := .body } rfl hpos
        have hn : ({ g with rxPhase := .body } : Fcc).rxLen.toNat - ({ g with rxPhase := .body } : Fcc).rxCnt.toNat =
            (le16 n0 n1).toNat := Nat.sub_zero _
        rw [hn] at hb
        change (match takeBody (le16 n0 n1).toNat false t with | some r => _ | none => _) at hb
        cases hr : takeBody (le16 n0 n1).toNat false t with
        | none =>
          rw [hr] at hb
          simp only [Option.map_none]
          exact ⟨hb.1, hb.2.2.trans hc, by rw [hb.2.1]; decide⟩
        | some r =>
          rw [hr] at hb
          simp only [Option.map_some] at hb ⊢
          have hlen := (takeBody_length hr).1
          have hlt := (le16 n0 n1).isLt
          obtain ⟨h1, h2, h3, h4, h5, h6⟩ := Fcc.acceptAll_spec m r.1 { g with rxPhase := .body }
            (by show (0 : Word).toNat + _ < _
                rw [hlen]; simpa using hlt)
          rw [hb]
          refine ⟨rfl, (Fcc.evaluate_phases _ _).2, (Fcc.evaluate_phases _ _).1, ?_⟩
          have := Fcc.evaluate_spec m (Fcc.acceptAll m r.1 { g with rxPhase := .body }) r.1 (by rw [h4, hlen])
            (by rw [h2]; show (0 : Byte) ^^^ _ = _; simp)
            (by
              intro hm i hi
              rw [h3 (by show (0 : Word).toNat + _ ≤ _; simpa using hm)]
              show (f.rxb.writeBytes (0 : Word).toNat r.1).read i = _
              rw [show (0 : Word).toNat = 0 from rfl, Memory.read_writeBytes hw, if_pos (by omega)]
              simp)
          rw [h5, h6] at this
          exact this

end Sys2Proof.Machine
end

