-- ==== Sys2Proof/Laws/Decode.lean ====
section
/-! SUPPORT. The parts of the decoder: the header in front of a frame, the command of a code, the instruction of a
command and a payload. -/

namespace Sys2Proof

open Sys2Proof.Machine

theorem splitHeader_noise (z t : List Byte) (hz : noiseOk z = true) :
    splitHeader (z ++ hdr0 :: hdr1 :: t) = some (z, t) := by
  induction z with
  | nil => simp [splitHeader]
  | cons b z ih =>
    simp only [noiseOk, Bool.and_eq_true, Bool.not_eq_true', Bool.and_eq_false_iff, beq_eq_false_iff_ne] at hz
    rw [List.cons_append, splitHeader, if_neg, ih hz.2]
    · rfl
    · rintro ⟨rfl, h⟩
      rcases hz.1 with h' | h'
      · exact h' rfl
      · cases z with
        | nil => simp at h
        | cons c z => simp at h h'; exact h' h

/-- Codes that are pairwise distinct name their command (R8, R95). -/
theorem find_code {cfg : Config} (hw : cfg.wf) (d : DeviceCmd) :
    DeviceCmd.all.find? (fun e => cfg.code e == cfg.code d) = some d := by
  have hmem : d ∈ DeviceCmd.all := by cases d <;> decide
  have hex : (DeviceCmd.all.find? (fun e => cfg.code e == cfg.code d)).isSome :=
    List.find?_isSome.2 ⟨d, hmem, by simp⟩
  obtain ⟨e, he⟩ := Option.isSome_iff_exists.1 hex
  rw [he]
  have h2 := List.find?_some he
  rw [List.inj_on_of_nodup_map hw.2.2.2 (List.mem_of_find?_eq_some he) hmem (by simpa using h2)]

theorem blockByte_of_splitBlock {b : Byte} {x : Nat × Nat} (h : splitBlock b = some x) : blockByte x.1 x.2 = b := by
  unfold splitBlock at h
  split at h
  · cases h
    apply BitVec.eq_of_toNat_eq
    simp only [blockByte, BitVec.toNat_ofNat]; omega
  · cases h

/-- The instruction of a command and a payload stands for that command and that payload (R95). -/
theorem commandOf_of_ofCommand {d : DeviceCmd} {p : List Byte} {j : Instr} (h : ofCommand d p = some j) :
    commandOf j = some (d, p) := by
  unfold ofCommand at h
  split at h
  case h_13 =>
    split at h
    · rename_i sel b key
      split at h
      · rename_i hc
        have hb : blockByte (b.toNat / 4) 0 = b := by
          apply BitVec.eq_of_toNat_eq
          simp only [blockByte, BitVec.toNat_ofNat]; omega
        split at h
        · rename_i hs; cases h; simp [commandOf, auth2Payload, keySelector, hb, hs]
        · split at h
          · rename_i hs; cases h; simp [commandOf, auth2Payload, keySelector, hb, hs]
          · cases h
      · cases h
    · cases h
  all_goals try (split at h)
  all_goals first
    | (cases h; done)
    | (cases h; rfl)
    | (cases h; simp_all [commandOf]; done)
    | (simp only [Option.map_eq_some_iff] at h
       obtain ⟨x, hx, rfl⟩ := h
       simp [commandOf, writePayload, amountPayload, blockByte_of_splitBlock hx])

end Sys2Proof
end

