-- ==== Sys2Proof/Laws/Enc.lean ====
section
/-! SUPPORT. ENC: the bytes the sequencer hands over are the frame of ENCODE. -/

namespace Sys2Proof.Machine

/-- ENC hands over these bytes, one event each, from the first state to the second. -/
inductive Emits : Fcc → List Byte → Fcc → Prop
  | done (f : Fcc) : Emits f [] f
  | byte {f g : Fcc} {out : List Byte} : f.txPhase ≠ .idle → Emits f.txNext out g → Emits f (f.txData :: out) g

theorem Emits.trans {f g h : Fcc} {a b : List Byte} (h1 : Emits f a g) (h2 : Emits g b h) : Emits f (a ++ b) h := by
  induction h1 with
  | done f => exact h2
  | byte hp _ ih => exact .byte hp (ih h2)

theorem Emits.one {f : Fcc} (h : f.txPhase ≠ .idle) : Emits f [f.txData] f.txNext := .byte h (.done _)

/-- While ENC runs on, CH stays. -/
theorem Fcc.txNext_chPhase {f : Fcc} (h : f.txNext.txPhase ≠ .idle) : f.txNext.chPhase = f.chPhase := by
  unfold Fcc.txNext at *
  split <;> simp_all
  split <;> simp_all

theorem Fcc.txNext_fields (f : Fcc) :
    f.txNext.rxPhase = f.rxPhase ∧ f.txNext.chCmd = f.chCmd ∧ f.txNext.chLen = f.chLen ∧ f.txNext.txp = f.txp ∧
      f.txNext.op = f.op := by
  unfold Fcc.txNext
  split <;> simp
  split <;> simp

/-- Bytes handed over by ENC are taken by a LINE that is ready, one step each (R51, R182). -/
theorem run_of_emits {f g : Fcc} {out : List Byte} (h : Emits f out g) :
    ∀ {s : State}, s.fcc = f → s.env = Env.ready → f.chPhase = .send →
      run out.length s = .next { s with fcc := g, line := { s.line with held := s.line.held ++ out } } := by
  induction h with
  | done f =>
    intro s hs he hc
    subst hs
    simp
  | @byte f g out hp hrest ih =>
    intro s hs he hc
    have hstep := step_send he (by rw [hs, hc]) (by rw [hs]; exact hp)
    rw [List.length_cons, run_succ_of_next _ hstep]
    by_cases hi : f.txNext.txPhase = .idle
    · cases hrest with
      | done => simp [State.sendByte, hs, Line.put]
      | byte hp' _ => exact absurd hi hp'
    · rw [ih (s := s.sendByte) (by simp [hs]) (by simp [he]) (by rw [Fcc.txNext_chPhase hi, hc])]
      simp [State.sendByte, hs, Line.put]

/-- From the body phase on: the bytes not yet sent, stuffed, then the checksum, stuffed (R119 to R121). -/
theorem emits_body (rest : List Byte) (hne : rest ≠ []) :
    ∀ f : Fcc, f.txPhase = .body → f.txIdx.toNat + rest.length = f.chLen.toNat + 4 → f.chLen.toNat + 4 < 65536 →
      (∀ j (hj : j < rest.length), f.bodyByte (f.txIdx + BitVec.ofNat 16 j) = rest[j]) →
      Emits f (stuff rest ++ stuff [f.txXor ^^^ xor8 rest])
        { f with txIdx := f.chLen + 4, txXor := f.txXor ^^^ xor8 rest }.encDone := by
  induction rest with
  | nil => exact absurd rfl hne
  | cons b rest ih =>
    intro f hp hlen hlt hb
    have hb0 : f.bodyByte f.txIdx = b := by
      have h := hb 0 (by simp)
      rw [List.getElem_cons_zero] at h
      simpa using h
    have hdata : f.txData = b := by simp [Fcc.txData, hp, hb0]
    have hadv : (f.txIdx + 1).toNat = f.txIdx.toNat + 1 := by
      simp only [List.length_cons] at hlen
      rw [BitVec.toNat_add]; simp; omega
    let g : Fcc := { f with txXor := fold f.txXor b, txIdx := f.txIdx + 1 }
    have hgb : ∀ i, g.bodyByte i = f.bodyByte i := fun i => rfl
    have hnext : f.txNext = { g with txPhase := if b = escByte then .bstuff else g.afterBody } := by
      simp [Fcc.txNext, hp, hb0, g]
    -- what ENC does from `g` once the stuffing is out
    have tail : Emits { g with txPhase := g.afterBody } (stuff rest ++ stuff [fold f.txXor b ^^^ xor8 rest])
        { f with txIdx := f.chLen + 4, txXor := fold f.txXor b ^^^ xor8 rest }.encDone := by
      cases rest with
      | nil =>
        have hend : f.txIdx + 1 = f.chLen + 4 := by
          apply BitVec.eq_of_toNat_eq
          rw [hadv, BitVec.toNat_add]
          simp only [List.length_cons, List.length_nil] at hlen
          simp; omega
        have hphase : g.afterBody = .csum := if_pos hend
        rw [hphase]
        have hnil : fold f.txXor b ^^^ xor8 [] = fold f.txXor b := by simp
        rw [hnil, stuff_nil, List.nil_append]
        by_cases hx : fold f.txXor b = escByte
        · rw [stuff_cons, if_pos hx, stuff_nil, List.append_nil]
          have e1 : Emits { g with txPhase := .csum } [fold f.txXor b] { g with txPhase := .cstuff } := by
            have := Emits.one (f := { g with txPhase := .csum }) (by simp)
            simpa [Fcc.txNext, Fcc.txData, g, hx] using this
          have e2 : Emits { g with txPhase := .cstuff } [stuffByte] { g with txPhase := .cstuff }.encDone := by
            have := Emits.one (f := { g with txPhase := .cstuff }) (by simp)
            simpa [Fcc.txNext, Fcc.txData] using this
          have := e1.trans e2
          rw [hx] at this
          rw [hx, ← hend]
          simpa [Fcc.encDone, g, hx] using this
        · rw [stuff_cons, if_neg hx, stuff_nil, List.append_nil, ← hend]
          have := Emits.one (f := { g with txPhase := .csum }) (by simp)
          have hx' : ¬ fold f.txXor b = 170#8 := hx
          simpa [Fcc.txNext, Fcc.txData, g, hx', Fcc.encDone] using this
      | cons c rest' =>
        have hmid : ¬ f.txIdx + 1 = f.chLen + 4 := by
          intro h
          have := congrArg BitVec.toNat h
          rw [hadv, BitVec.toNat_add] at this
          simp only [List.length_cons] at hlen
          simp at this; omega
        have hphase : g.afterBody = .body := if_neg hmid
        rw [hphase]
        refine ih (by simp) { g with txPhase := .body } rfl ?_ hlt ?_
        · show (f.txIdx + 1).toNat + _ = f.chLen.toNat + 4
          rw [hadv]; simp only [List.length_cons] at hlen ⊢; omega
        · intro j hj
          have := hb (j + 1) (by simpa using hj)
          rw [List.getElem_cons_succ] at this
          rw [← this]
          show f.bodyByte (f.txIdx + 1 + BitVec.ofNat 16 j) = _
          congr 1
          apply BitVec.eq_of_toNat_eq
          rw [BitVec.toNat_add, hadv, BitVec.toNat_add, BitVec.toNat_ofNat, BitVec.toNat_ofNat]
          omega
    have hfold : fold f.txXor b ^^^ xor8 rest = f.txXor ^^^ xor8 (b :: rest) := by
      simp [fold, BitVec.xor_assoc]
    rw [hfold] at tail
    have head := Emits.one (f := f) (by simp [hp])
    rw [hdata, hnext] at head
    by_cases he : b = escByte
    · rw [if_pos he] at head
      have mid : Emits { g with txPhase := .bstuff } [stuffByte] { g with txPhase := g.afterBody } := by
        have := Emits.one (f := { g with txPhase := .bstuff }) (by simp)
        simpa [Fcc.txNext, Fcc.txData, Fcc.afterBody] using this
      have := (head.trans mid).trans tail
      rw [stuff_cons, if_pos he]
      simpa [he] using this
    · rw [if_neg he] at head
      have := head.trans tail
      rw [stuff_cons, if_neg he]
      simpa using this

/-- From the acceptance of a request ENC hands over exactly the frame of ENCODE (R110, R114 to R121, R122 b). -/
theorem emits_latch (op : Operation) (command : Word) (payload : List Byte) (f : Fcc) (hw : f.txp.wf)
    (hl : payload.length ≤ 65530) :
    Emits (f.latch op command payload) (wire command payload)
      { f.latch op command payload with
          txIdx := (f.latch op command payload).chLen + 4, txXor := checksum command payload }.encDone := by
  let g := f.latch op command payload
  have hlenN : g.chLen.toNat = payload.length := by
    show (BitVec.ofNat 16 payload.length).toNat = _
    rw [BitVec.toNat_ofNat]; omega
  have hfield : g.lengthField = lengthField payload := by
    apply BitVec.eq_of_toNat_eq
    show (5 + BitVec.ofNat 16 payload.length).toNat = (BitVec.ofNat 16 (5 + payload.length)).toNat
    rw [BitVec.toNat_add, BitVec.toNat_ofNat, BitVec.toNat_ofNat]
    simp
  have e0 : Emits g [hdr0] { g with txPhase := .hdr1 } := Emits.one (f := g) (by simp [g])
  have e1 : Emits { g with txPhase := .hdr1 } [hdr1] { g with txPhase := .len0 } := Emits.one (by simp)
  have e2 : Emits { g with txPhase := .len0 } [lo8 g.lengthField] { g with txPhase := .len1 } := Emits.one (by simp)
  have e3 : Emits { g with txPhase := .len1 } [hi8 g.lengthField] { g with txPhase := .body } := Emits.one (by simp)
  have e4 := emits_body (body command payload) (by simp [body]) { g with txPhase := .body } rfl
    (by show (0 : Word).toNat + _ = g.chLen.toNat + 4
        rw [hlenN]; simp [body])
    (by show g.chLen.toNat + 4 < _
        omega)
    (by
      intro j hj
      show g.bodyByte (0 + BitVec.ofNat 16 j) = _
      have hj' : j < payload.length + 4 := by
        have h : (body command payload).length = payload.length + 4 := by simp [body]
        omega
      have hn : (0 + BitVec.ofNat 16 j : Word).toNat = j := by
        rw [BitVec.toNat_add, BitVec.toNat_ofNat]; simp; omega
      unfold Fcc.bodyByte
      rw [hn]
      match j with
      | 0 => rfl
      | 1 => rfl
      | 2 => rfl
      | 3 => rfl
      | n + 4 =>
        show (f.txp.writeBytes 0 payload).read n = _
        rw [Memory.read_writeBytes hw, if_pos (by omega)]
        have : n < payload.length := by omega
        simp [body, List.getD_eq_getElem?_getD, this])
  have hx : ({ g with txPhase := .body } : Fcc).txXor ^^^ xor8 (body command payload) = checksum command payload := by
    show (0 : Byte) ^^^ _ = _
    rw [checksum, xor8_stuff]; simp
  rw [hx] at e4
  have := (((e0.trans e1).trans e2).trans e3).trans e4
  rw [hfield] at this
  rw [wire, List.append_assoc]
  exact this

end Sys2Proof.Machine
end

