-- ==== Sys2Proof/Laws/Inv.lean ====
section
/-! SUPPORT. The invariant of FCC and of HOST, kept by each event. -/

namespace Sys2Proof.Machine

/-! ### The folds as lists -/

theorem Fcc.bodySent_next (f : Fcc) (x : Byte) (ph : TxPhase) (h : f.txIdx.toNat + 1 < 65536) :
    ({ f with txXor := x, txIdx := f.txIdx + 1, txPhase := ph } : Fcc).bodySent =
      f.bodySent ++ [f.bodyByte f.txIdx] := by
  have hn : (f.txIdx + 1).toNat = f.txIdx.toNat + 1 := by
    rw [BitVec.toNat_add]; simp; omega
  simp only [Fcc.bodySent, hn, List.range_succ, List.map_append, List.map_cons, List.map_nil, BitVec.ofNat_toNat,
    BitVec.setWidth_eq]
  rfl

theorem Fcc.accepted_accept {m : Nat} {b : Byte} {f : Fcc} (hw : f.rxb.wf) (h : f.rxCnt.toNat + 1 < 65536)
    (hm : f.rxCnt.toNat < m) : (f.accept m b).accepted = f.accepted ++ [b] := by
  have hn : (f.rxCnt + 1).toNat = f.rxCnt.toNat + 1 := by
    rw [BitVec.toNat_add]; simp; omega
  simp only [Fcc.accepted, Fcc.accept_rxCnt, Fcc.accept_rxb, if_pos hm, hn, List.range_succ, List.map_append,
    List.map_cons, List.map_nil]
  congr 1
  · apply List.map_congr_left
    intro i hi
    rw [Memory.read_write hw, if_neg (by have := List.mem_range.1 hi; omega)]
  · rw [Memory.read_write hw, if_pos rfl]

/-! ### FCC -/

theorem Fcc.inv_reset (cfg : Config) : Fcc.reset.Inv cfg where
  txPhase := by decide
  rxPhase := by decide
  txpForm := by decide
  txpSize := by simp [Fcc.reset]
  rxbForm := by decide
  rxbSize := by simp [Fcc.reset]
  chLen := by simp [Fcc.reset]
  tx := trivial
  rx := trivial
  res := by intro h; exact absurd h (by decide)
  opSend := by intro h; exact absurd h (by decide)
  opFlush := by intro h; exact absurd h (by decide)
  opRecv := by intro h; exact absurd h (by decide)

/-- The acceptance of a request keeps the invariant (R181). -/
theorem Fcc.inv_latch {cfg : Config} {f : Fcc} (hf : f.Inv cfg) (hmax : cfg.payloadMax ≤ 65530)
    {op : Operation} {c : Word} {p : List Byte} (hop : op ≠ .decode) (hi : f.chPhase = .idle)
    (hp : p.length ≤ cfg.payloadMax) : (f.latch op c p).Inv cfg := by
  have hr : f.rxPhase = .idle := by
    by_contra h
    have := hf.rxPhase.1 h
    rw [hi] at this
    cases this
  exact
    { txPhase := by simp
      rxPhase := by simp [hr]
      txpForm := Memory.writeBytes_wf hf.txpForm _ _
      txpSize := Memory.writeBytes_size hf.txpSize (by omega)
      rxbForm := hf.rxbForm
      rxbSize := hf.rxbSize
      chLen := by rw [Fcc.latch_chLen, BitVec.toNat_ofNat]; omega
      tx := ⟨rfl, rfl⟩
      rx := by simp [Fcc.RxInv, hr]
      res := by simp
      opSend := by simpa using hop
      opFlush := by simp
      opRecv := by simp }

/-- The start of DEC keeps the invariant (R146, R183). -/
theorem Fcc.inv_receive {cfg : Config} {f : Fcc} (hf : f.Inv cfg) (hn : f.chPhase ≠ .send) {op : Operation}
    (hop : op ≠ .encode) : ({ f.receive with op := op } : Fcc).Inv cfg := by
  have ht : f.txPhase = .idle := by
    by_contra h
    exact hn (hf.txPhase.1 h)
  exact
    { txPhase := by simp [ht]
      rxPhase := by simp
      txpForm := hf.txpForm
      txpSize := hf.txpSize
      rxbForm := hf.rxbForm
      rxbSize := hf.rxbSize
      chLen := hf.chLen
      tx := by simp [Fcc.TxInv, ht]
      rx := rfl
      res := by simp
      opSend := by simp
      opFlush := by simp
      opRecv := by simpa using hop }

theorem Fcc.inv_rspTake {cfg : Config} {f : Fcc} (hf : f.Inv cfg) (hd : f.chPhase = .done) : f.rspTake.Inv cfg := by
  have ht : f.txPhase = .idle := by
    by_contra h
    have := hf.txPhase.1 h
    rw [hd] at this
    cases this
  have hr : f.rxPhase = .idle := by
    by_contra h
    have := hf.rxPhase.1 h
    rw [hd] at this
    cases this
  exact
    { txPhase := by simp [ht]
      rxPhase := by simp [hr]
      txpForm := hf.txpForm
      txpSize := hf.txpSize
      rxbForm := hf.rxbForm
      rxbSize := hf.rxbSize
      chLen := hf.chLen
      tx := by simp [Fcc.TxInv, ht]
      rx := by simp [Fcc.RxInv, hr]
      res := by simp
      opSend := by simp
      opFlush := by simp
      opRecv := by simp }

/-- ENC registers changed within `C_SEND`: what is left to show. -/
theorem Fcc.inv_send_of {cfg : Config} {f : Fcc} (hf : f.Inv cfg) (hs : f.chPhase = .send) {ph : TxPhase} {i : Word}
    {x : Byte} (hph : ph ≠ .idle) (htx : ({ f with txPhase := ph, txIdx := i, txXor := x } : Fcc).TxInv) :
    ({ f with txPhase := ph, txIdx := i, txXor := x } : Fcc).Inv cfg where
  txPhase := by simp [hph, hs]
  rxPhase := by simpa using hf.rxPhase
  txpForm := hf.txpForm
  txpSize := hf.txpSize
  rxbForm := hf.rxbForm
  rxbSize := hf.rxbSize
  chLen := hf.chLen
  tx := htx
  rx := hf.rx
  res := by simp [hs]
  opSend := fun _ => hf.opSend hs
  opFlush := by simp [hs]
  opRecv := by simp [hs]

theorem Fcc.inv_encDone {cfg : Config} {f : Fcc} (hf : f.Inv cfg) (hs : f.chPhase = .send) : f.encDone.Inv cfg := by
  have hr : f.rxPhase = .idle := by
    by_contra h
    have := hf.rxPhase.1 h
    rw [hs] at this
    cases this
  have hop := hf.opSend hs
  have hph : f.encDone.chPhase = .idle ∨ (f.encDone.chPhase = .flush ∧ f.op = .xfer) := by
    rw [Fcc.encDone_chPhase]
    cases h : f.op <;> simp_all
  exact
    { txPhase := by rcases hph with h | h <;> simp [h, -Fcc.encDone_chPhase]
      rxPhase := by rcases hph with h | h <;> simp [h, hr, -Fcc.encDone_chPhase]
      txpForm := hf.txpForm
      txpSize := hf.txpSize
      rxbForm := hf.rxbForm
      rxbSize := hf.rxbSize
      chLen := hf.chLen
      tx := trivial
      rx := by simp [Fcc.RxInv, hr]
      res := by rcases hph with h | h <;> simp [h, -Fcc.encDone_chPhase]
      opSend := by rcases hph with h | h <;> simp [h, -Fcc.encDone_chPhase]
      opFlush := by rcases hph with h | h <;> simp [h, -Fcc.encDone_chPhase]
      opRecv := by rcases hph with h | h <;> simp [h, -Fcc.encDone_chPhase] }

/-- Every TX byte event keeps the invariant (R115 to R121). -/
theorem Fcc.inv_txNext {cfg : Config} {f : Fcc} (hf : f.Inv cfg) (hmax : cfg.payloadMax ≤ 65530)
    (hs : f.chPhase = .send) : f.txNext.Inv cfg := by
  have hlen := hf.chLen
  have htx := hf.tx
  have after : ∀ g : Fcc, g.txIdx.toNat ≤ g.chLen.toNat + 4 → g.chLen.toNat ≤ 65530 →
      (g.txIdx = g.chLen + 4 ↔ g.txIdx.toNat = g.chLen.toNat + 4) := by
    intro g h1 h2
    rw [← BitVec.toNat_inj, BitVec.toNat_add]
    simp
    omega
  unfold Fcc.txNext
  unfold Fcc.TxInv at htx
  cases hp : f.txPhase <;> rw [hp] at htx <;> simp only at htx ⊢
  case idle => exact hf
  case hdr0 => exact Fcc.inv_send_of hf hs (by decide) htx
  case hdr1 => exact Fcc.inv_send_of hf hs (by decide) htx
  case len0 => exact Fcc.inv_send_of hf hs (by decide) htx
  case len1 =>
    refine Fcc.inv_send_of hf hs (by decide) ⟨?_, ?_⟩
    · rw [htx.1]; simp
    · show f.txXor = xor8 (Fcc.bodySent { f with txPhase := .body })
      rw [htx.2]
      simp [Fcc.bodySent, htx.1]
  case body =>
    obtain ⟨hlt, hx⟩ := htx
    have hn : (f.txIdx + 1).toNat = f.txIdx.toNat + 1 := by
      rw [BitVec.toNat_add]; simp; omega
    have hsent : ∀ ph, fold f.txXor (f.bodyByte f.txIdx) = xor8 (Fcc.bodySent
        { f with txXor := fold f.txXor (f.bodyByte f.txIdx), txIdx := f.txIdx + 1, txPhase := ph }) := by
      intro ph
      rw [Fcc.bodySent_next _ _ _ (by omega), xor8_snoc, ← hx]
      rfl
    by_cases hb : f.bodyByte f.txIdx = escByte
    · rw [if_pos hb]
      refine Fcc.inv_send_of hf hs (by decide) ⟨?_, ?_, ?_, hsent .bstuff⟩
      · show 0 < (f.txIdx + 1).toNat
        omega
      · show (f.txIdx + 1).toNat ≤ f.chLen.toNat + 4
        omega
      · have : f.txIdx + 1 - 1 = f.txIdx := by bv_omega
        show Fcc.bodyByte _ (f.txIdx + 1 - 1) = _
        rw [this]
        exact hb
    · rw [if_neg hb]
      unfold Fcc.afterBody
      by_cases he : f.txIdx + 1 = f.chLen + 4
      · simp only [he, if_true]
        rw [← he]
        refine Fcc.inv_send_of hf hs (by decide) ⟨?_, hsent .csum⟩
        have := (after { f with txIdx := f.txIdx + 1 } (by show (f.txIdx + 1).toNat ≤ f.chLen.toNat + 4; omega)
          (by show f.chLen.toNat ≤ _; omega)).1 he
        exact this
      · simp only [he, if_false]
        refine Fcc.inv_send_of hf hs (by decide) ⟨?_, hsent .body⟩
        have := mt (after { f with txIdx := f.txIdx + 1 } (by show (f.txIdx + 1).toNat ≤ f.chLen.toNat + 4; omega)
          (by show f.chLen.toNat ≤ _; omega)).2 he
        change ¬ (f.txIdx + 1).toNat = f.chLen.toNat + 4 at this
        show (f.txIdx + 1).toNat < f.chLen.toNat + 4
        omega
  case bstuff =>
    obtain ⟨h0, hle, hb, hx⟩ := htx
    unfold Fcc.afterBody
    by_cases he : f.txIdx = f.chLen + 4
    · rw [if_pos he]
      exact Fcc.inv_send_of hf hs (by decide) ⟨(after f hle (by omega)).1 he, hx⟩
    · rw [if_neg he]
      refine Fcc.inv_send_of hf hs (by decide) ⟨?_, hx⟩
      have := mt (after f hle (by omega)).2 he
      show f.txIdx.toNat < f.chLen.toNat + 4
      omega
  case csum =>
    by_cases hx : f.txXor = escByte
    · rw [if_pos hx]
      exact Fcc.inv_send_of hf hs (by decide) ⟨htx.1, htx.2, hx⟩
    · rw [if_neg hx]
      exact Fcc.inv_encDone hf hs
  case cstuff => exact Fcc.inv_encDone hf hs

/-- DEC has ended: what is left to show. -/
theorem Fcc.inv_evaluate {cfg : Config} {f : Fcc} (ht : f.txPhase = .idle)
    (h1 : f.txp.wf) (h2 : ∀ c ∈ f.txp, c.1 < cfg.payloadMax) (h3 : f.rxb.wf) (h4 : ∀ c ∈ f.rxb, c.1 < cfg.rxBufMax)
    (h5 : f.chLen.toNat ≤ cfg.payloadMax) : (f.evaluate cfg.rxBufMax).Inv cfg := by
  obtain ⟨hp1, hp2⟩ := Fcc.evaluate_phases cfg.rxBufMax f
  obtain ⟨e1, e2, e3, e4, e5, e6, e7, -, -⟩ := Fcc.evaluate_fields cfg.rxBufMax f
  exact
    { txPhase := by simp [e1, ht, hp2]
      rxPhase := by simp [hp1, hp2]
      txpForm := by rw [e4]; exact h1
      txpSize := by rw [e4]; exact h2
      rxbForm := by rw [e6]; exact h3
      rxbSize := by rw [e6]; exact h4
      chLen := by rw [e3]; exact h5
      tx := by simp [Fcc.TxInv, e1, ht]
      rx := by simp [Fcc.RxInv, hp1]
      res := by
        intro _
        unfold Fcc.evaluate
        split
        · rename_i h
          simpa [framingFails, Fcc.ResInv] using h
        · rename_i hfr
          split
          · rename_i h
            simp only [checksumFails, Bool.and_eq_true, beq_iff_eq] at h
            exact ⟨rfl, h.1⟩
          · unfold Fcc.decoded
            split
            · rename_i h
              exact ⟨rfl, h.2, h.1⟩
            · rename_i h
              simp only [framingFails, Bool.or_eq_true, decide_eq_true_eq, not_or, not_lt] at hfr
              refine ⟨rfl, rfl, ?_, hfr.2, ?_⟩
              · show (f.rxLen - 6).toNat + 6 = f.rxLen.toNat
                have := f.rxLen.isLt
                rw [BitVec.toNat_sub]; simp; omega
              · intro hop
                by_contra hne
                exact h ⟨hop, hne⟩
      opSend := by simp [hp2]
      opFlush := by simp [hp2]
      opRecv := by simp [hp2] }

/-- Every RX byte event keeps the invariant (R147 to R160). -/
theorem Fcc.inv_rxNext {cfg : Config} {f : Fcc} (hf : f.Inv cfg) (b : Byte) :
    (f.rxNext cfg.rxBufMax b).Inv cfg := by
  by_cases hr : f.rxPhase = .idle
  · unfold Fcc.rxNext; rw [hr]; exact hf
  have hc := hf.rxPhase.1 hr
  have ht : f.txPhase = .idle := by
    by_contra h
    have := hf.txPhase.1 h
    rw [hc] at this
    cases this
  have hrx := hf.rx
  -- DEC goes on with other registers of its own
  have goOn : ∀ g : Fcc, g.chPhase = .recv → g.rxPhase ≠ .idle → g.txPhase = .idle → g.txp = f.txp → g.chLen = f.chLen →
      g.op = f.op → g.rxb.wf → (∀ c ∈ g.rxb, c.1 < cfg.rxBufMax) → g.RxInv cfg.rxBufMax → g.Inv cfg := by
    intro g g1 g2 g3 g4 g5 g6 g7 g8 g9
    exact
      { txPhase := by simp [g1, g3]
        rxPhase := by simp [g1, g2]
        txpForm := by rw [g4]; exact hf.txpForm
        txpSize := by rw [g4]; exact hf.txpSize
        rxbForm := g7
        rxbSize := g8
        chLen := by rw [g5]; exact hf.chLen
        tx := by simp [Fcc.TxInv, g3]
        rx := g9
        res := by simp [g1]
        opSend := by simp [g1]
        opFlush := by simp [g1]
        opRecv := by rw [g6]; exact fun _ => hf.opRecv hc }
  unfold Fcc.RxInv at hrx
  unfold Fcc.rxNext
  cases hp : f.rxPhase <;> rw [hp] at hrx <;> simp only at hrx ⊢
  case idle => exact absurd hp hr
  case hunt =>
    split
    · rename_i h
      simp only [headerSeen, Bool.and_eq_true] at h
      exact goOn _ hc (by simp) ht rfl rfl rfl hf.rxbForm hf.rxbSize ⟨hrx, h.1⟩
    · exact goOn _ hc (by simp) ht rfl rfl rfl hf.rxbForm hf.rxbSize (by simp [Fcc.RxInv, hrx])
  case len0 =>
    exact goOn _ hc (by simp) ht rfl rfl rfl hf.rxbForm hf.rxbSize hrx
  case len1 =>
    split
    · exact Fcc.inv_evaluate ht hf.txpForm hf.txpSize hf.rxbForm hf.rxbSize hf.chLen
    · rename_i hz
      refine goOn _ hc (by simp) ht rfl rfl rfl hf.rxbForm hf.rxbSize ⟨?_, fun _ => ⟨rfl, by simp⟩⟩
      rcases Nat.eq_zero_or_pos (le16 (lo8 f.rxLen) b).toNat with h | h
      · exact absurd (BitVec.eq_of_toNat_eq (by rw [h]; rfl)) hz
      · exact h
  case body =>
    obtain ⟨hlt, hfold⟩ := hrx
    have hw : (f.accept cfg.rxBufMax b).rxb.wf := by
      rw [Fcc.accept_rxb]
      split
      · exact Memory.write_wf hf.rxbForm _ _
      · exact hf.rxbForm
    have hsz : ∀ c ∈ (f.accept cfg.rxBufMax b).rxb, c.1 < cfg.rxBufMax := by
      rw [Fcc.accept_rxb]
      split
      · rename_i h; exact Memory.write_size hf.rxbSize h
      · exact hf.rxbSize
    split
    · exact goOn _ hc (by simp) ht rfl rfl rfl hf.rxbForm hf.rxbSize
        (by simp only [Fcc.RxInv]; exact ⟨hlt, fun h => ⟨(hfold h).1, by simp⟩⟩)
    · split
      · exact Fcc.inv_evaluate ht hf.txpForm hf.txpSize hw hsz hf.chLen
      · rename_i hend
        have hcnt : (f.accept cfg.rxBufMax b).rxCnt.toNat = f.rxCnt.toNat + 1 := by
          have := f.rxLen.isLt
          rw [Fcc.accept_rxCnt, BitVec.toNat_add]; simp; omega
        have hne : (f.accept cfg.rxBufMax b).rxCnt.toNat ≠ f.rxLen.toNat :=
          fun h => hend (BitVec.eq_of_toNat_eq h)
        have hl := f.rxLen.isLt
        refine goOn _ hc (by simp [hp]) ht rfl rfl rfl hw hsz ?_
        simp only [Fcc.RxInv, Fcc.accept_rxPhase, hp]
        refine ⟨by rw [hcnt, Fcc.accept_rxLen]; omega, fun hm => ⟨?_, fun hpd => ⟨by omega, ?_⟩⟩⟩
        · rw [hcnt] at hm
          rw [Fcc.accepted_accept hf.rxbForm (by omega) (by omega), xor8_snoc, ← (hfold (by omega)).1]
          rfl
        · rw [hcnt] at hm ⊢
          rw [Fcc.accept_rxb, if_pos (by omega), Memory.read_write hf.rxbForm, if_pos (by omega)]
          simpa [pending] using hpd

end Sys2Proof.Machine
end

