-- ==== Sys2Proof/Laws/Host.lean ====
section
/-! SUPPORT. HOST: its invariant through every operation on it, and the invariant of the machine through every event
that is not a procedure of HOST's starting from its agenda. -/

namespace Sys2Proof.Machine

/-- A procedure that HOST may begin: its first XFER is REQUEST or none of `select()`, none to follow is of `select()`
but what comes out of REQUEST itself (R210). -/
def Proc.Starts (p : Proc) : Prop :=
  (p.act = .request ∨ p.act.selecting = false) ∧ ∀ a ∈ p.rest, a.selecting = false

theorem HostAgent.inv_reset : HostAgent.reset.Inv where
  cardSession := by simp [HostAgent.reset]
  selectedCard := by simp [HostAgent.reset]
  selecting := by simp [HostAgent.reset]
  rest := by simp [HostAgent.reset]

theorem HostAgent.inv_abandon (h : HostAgent) : h.abandon.Inv where
  cardSession := by simp
  selectedCard := by simp
  selecting := by simp
  rest := by simp

/-- What HOST has to present plays no part. -/
theorem HostAgent.inv_agenda {h : HostAgent} (hi : h.Inv) (l : List Item) : ({ h with agenda := l } : HostAgent).Inv :=
  ⟨hi.cardSession, hi.selectedCard, hi.selecting, hi.rest⟩

theorem HostAgent.inv_lastXfer {h : HostAgent} (hi : h.Inv) (r : XferResult) :
    ({ h with lastXfer := some r } : HostAgent).Inv :=
  ⟨hi.cardSession, hi.selectedCard, hi.selecting, hi.rest⟩

/-- The session without a procedure: all that is left of the invariant is about the card. -/
theorem HostAgent.inv_finish {h : HostAgent} (o : HostOutcome)
    (h1 : h.card.isSome = true → h.session.canAuthenticate = true)
    (h2 : ∀ t s, h.session = .selected t s → h.card = some ⟨t, s⟩) : (h.finish o).Inv where
  cardSession := h1
  selectedCard := h2
  selecting := by simp
  rest := by simp

theorem HostAgent.inv_begin {h : HostAgent} (hi : h.Inv) {p : Proc} (hp : p.Starts) : (h.begin p).Inv := by
  unfold HostAgent.begin
  split
  · exact ⟨by simp, by simp, by simp [Session.canAuthenticate], by rintro q hq; cases hq; exact hp.2⟩
  · rename_i hne
    refine ⟨hi.cardSession, hi.selectedCard, ?_, by rintro q hq; cases hq; exact hp.2⟩
    rintro q hq hsel
    cases hq
    rcases hp.1 with h1 | h1
    · exact absurd h1 hne
    · rw [h1] at hsel; cases hsel

theorem dumpSector_starts (cfg : Config) (key : List Byte) (sector : Nat) (later : List Nat)
    (got : List (Nat × List Byte)) : (dumpSector cfg key sector later got).Starts := by
  refine ⟨.inl rfl, ?_⟩
  intro a ha
  simp only [dumpSector, List.mem_cons, List.mem_map] at ha
  rcases ha with rfl | ⟨b, -, rfl⟩ <;> rfl

theorem HostAgent.inv_nextSector {h : HostAgent} (hi : h.Inv) (cfg : Config) (key : List Byte) (later : List Nat)
    (got : List (Nat × List Byte)) : (h.nextSector cfg key later got).Inv := by
  unfold HostAgent.nextSector
  split
  · exact HostAgent.inv_finish _ hi.cardSession hi.selectedCard
  · exact HostAgent.inv_begin hi (dumpSector_starts ..)

/-- A failure leaves `Idle` and no handle (R205). -/
theorem HostAgent.inv_fail {h : HostAgent} (cfg : Config) {p : Proc} (e : HostError)
    (hr : ∀ q, h.proc = some q → ∀ a ∈ q.rest, a.selecting = false) : (h.fail cfg p e).Inv := by
  have hi : ({ h with session := .idle, card := none } : HostAgent).Inv :=
    ⟨by simp, by simp, fun _ _ _ => ⟨rfl, rfl⟩, hr⟩
  unfold HostAgent.fail
  split
  · exact HostAgent.inv_nextSector hi _ _ _ _
  · exact HostAgent.inv_finish _ (by simp) (by simp)

/-- The procedure in progress plays no part once it goes on: what is needed of the session. -/
theorem HostAgent.inv_proceed {h : HostAgent} (cfg : Config) (p : Proc) (acts : List Act) (st : Byte) (d : List Byte)
    (h1 : h.card.isSome = true → h.session.canAuthenticate = true)
    (h2 : ∀ t s, h.session = .selected t s → h.card = some ⟨t, s⟩)
    (h3 : ∀ a ∈ acts.head?, a.selecting = true → h.card = none ∧ h.session.canAuthenticate = false)
    (h4 : ∀ a ∈ acts.tail, a.selecting = false) : (h.proceed cfg p acts st d).Inv := by
  unfold HostAgent.proceed
  split
  · -- complete
    have h0 : ({ h with proc := none } : HostAgent).Inv := ⟨h1, h2, by simp, by simp⟩
    unfold HostAgent.complete
    split
    case h_8 =>
      have := HostAgent.inv_nextSector h0
      unfold HostAgent.nextSector at this ⊢
      rename_i key sector later got _
      have := this cfg key later (got ++ [(sector, p.data)])
      revert this
      cases later with
      | nil => exact id
      | cons s l =>
        simp only [HostAgent.begin, dumpSector, if_true]
        exact id
    all_goals exact HostAgent.inv_finish _ h1 h2
  · rename_i a rest
    refine ⟨h1, h2, ?_, ?_⟩
    · rintro q hq
      cases hq
      exact h3 a (by simp)
    · rintro q hq
      cases hq
      simpa using h4

theorem HostAgent.inv_onOk {h : HostAgent} (hi : h.Inv) (cfg : Config) {p : Proc} (hp : h.proc = some p) (st : Byte)
    (d : List Byte) : (h.onOk cfg p st d).Inv := by
  have hrest := hi.rest p hp
  have hhead : ∀ a ∈ p.rest.head?, a.selecting = false := fun a ha => hrest a (List.mem_of_mem_head? ha)
  have htail : ∀ a ∈ p.rest.tail, a.selecting = false := fun a ha => hrest a (List.mem_of_mem_tail ha)
  have hfail : ∀ e, (h.fail cfg p e).Inv := fun e => HostAgent.inv_fail cfg e hi.rest
  have go : ∀ q : Proc, (h.proceed cfg q p.rest st d).Inv := fun q =>
    HostAgent.inv_proceed cfg q _ st d hi.cardSession hi.selectedCard
      (fun a ha h1 => by rw [hhead a ha] at h1; cases h1) htail
  unfold HostAgent.onOk
  cases ha : p.act with
  | request =>
    have hs := hi.selecting p hp (by rw [ha]; rfl)
    simp only
    split
    · refine HostAgent.inv_proceed cfg p _ st d ?_ ?_ ?_ ?_
      · rw [hs.1]; simp
      · simp
      · intro _ _ _; exact ⟨hs.1, rfl⟩
      · simpa using hrest
    · exact hfail _
  | anticoll t =>
    have hs := hi.selecting p hp (by rw [ha]; rfl)
    simp only
    split
    · refine HostAgent.inv_proceed cfg p _ st d ?_ ?_ ?_ ?_
      · rw [hs.1]; simp
      · simp
      · intro _ _ _; exact ⟨hs.1, rfl⟩
      · simpa using hrest
    · exact hfail _
  | third t s =>
    simp only
    split
    · refine HostAgent.inv_proceed cfg p _ st d (fun _ => rfl) ?_ ?_ htail
      · rintro t' s' h; cases h; rfl
      · intro a ha' h1; rw [hhead a ha'] at h1; cases h1
    · exact hfail _
  | halt =>
    exact HostAgent.inv_proceed cfg p _ st d (by simp) (by simp) (fun _ _ _ => ⟨rfl, rfl⟩) htail
  | auth slot sector key =>
    simp only
    split
    · refine HostAgent.inv_proceed cfg p _ st d (fun _ => rfl) (by simp) ?_ htail
      intro a ha' h1; rw [hhead a ha'] at h1; cases h1
    · exact hfail _
  | probe slot sector key =>
    simp only
    split
    · have hf : ∀ a ∈ p.rest.filter (fun a => !a.probes slot), a.selecting = false :=
        fun a ha => hrest a (List.mem_filter.1 ha).1
      exact HostAgent.inv_proceed cfg _ _ st d hi.cardSession hi.selectedCard
        (fun a ha h1 => by rw [hf a (List.mem_of_mem_head? ha)] at h1; cases h1)
        (fun a ha => hf a (List.mem_of_mem_tail ha))
    · exact HostAgent.inv_proceed cfg p _ st d hi.cardSession hi.selectedCard
        (fun a ha h1 => by rw [hhead a ha] at h1; cases h1) htail
  | read _ _ => simp only; split; exacts [go _, hfail _]
  | write _ _ _ => simp only; split; exacts [go _, hfail _]
  | initBal _ _ _ => simp only; split; exacts [go _, hfail _]
  | readBal _ _ => simp only; split; exacts [go _, hfail _]
  | incBal _ _ _ => simp only; split; exacts [go _, hfail _]
  | decBal _ _ _ => simp only; split; exacts [go _, hfail _]

theorem HostAgent.inv_onError {h : HostAgent} (hi : h.Inv) (cfg : Config) {p : Proc} (hp : h.proc = some p)
    (e : HostError) : (h.onError cfg p e).Inv := by
  have hrest := hi.rest p hp
  unfold HostAgent.onError
  split
  · split
    · exact HostAgent.inv_proceed cfg _ _ _ _ hi.cardSession hi.selectedCard
        (fun a ha h1 => by rw [hrest a (List.mem_of_mem_head? ha)] at h1; cases h1)
        (fun a ha => hrest a (List.mem_of_mem_tail ha))
    · exact HostAgent.inv_fail cfg e hi.rest
  · exact HostAgent.inv_fail cfg e hi.rest

/-- Taking a result keeps HOST's invariant (R188). -/
theorem HostAgent.inv_afterResult {h : HostAgent} (hi : h.Inv) (cfg : Config) (r : XferResult) :
    (h.afterResult cfg r).Inv := by
  have hl := HostAgent.inv_lastXfer hi r
  unfold HostAgent.afterResult
  split
  · exact hl
  · rename_i p hp
    unfold HostAgent.advance
    split
    · exact HostAgent.inv_onOk hl cfg hp _ _
    · exact HostAgent.inv_onError hl cfg hp _
    · exact HostAgent.inv_onError hl cfg hp _
    · exact HostAgent.inv_onError hl cfg hp _

/-! ### What the operations on HOST come to -/

theorem HostAgent.afterResults_nil (cfg : Config) (h : HostAgent) : h.afterResults cfg [] = h := rfl

theorem HostAgent.afterResults_cons (cfg : Config) (h : HostAgent) (r : XferResult) (rs : List XferResult) :
    h.afterResults cfg (r :: rs) = (h.afterResult cfg r).afterResults cfg rs := rfl

theorem HostAgent.afterResults_append (cfg : Config) (h : HostAgent) (rs rs' : List XferResult) :
    h.afterResults cfg (rs ++ rs') = (h.afterResults cfg rs).afterResults cfg rs' := by
  simp [HostAgent.afterResults]

/-- A failure outside `dump` ends the procedure with the error (R204, R205). -/
theorem HostAgent.fail_of_not_dump {cfg : Config} {p : Proc} (hd : ∀ k n l g, p.goal ≠ .dump k n l g) (e : HostError)
    (h : HostAgent) : h.fail cfg p e = ({ h with session := .idle, card := none } : HostAgent).finish (.failed e) := by
  unfold HostAgent.fail
  split
  · exact absurd ‹_› (hd _ _ _ _)
  · rfl

/-- A failure in `dump` goes on to the next sector (R222). -/
theorem HostAgent.fail_of_dump {cfg : Config} {p : Proc} {key : List Byte} {sector : Nat} {later : List Nat}
    {got : List (Nat × List Byte)} (hg : p.goal = .dump key sector later got) (e : HostError) (h : HostAgent) :
    h.fail cfg p e = ({ h with session := .idle, card := none } : HostAgent).nextSector cfg key later got := by
  unfold HostAgent.fail
  rw [hg]

/-- An error of FCC outside the tries of `findKeys` is a failure (43_host_session.md). -/
theorem HostAgent.onError_of_not_probe {cfg : Config} {p : Proc} (hn : ∀ sl n k, p.act ≠ .probe sl n k) (e : HostError)
    (h : HostAgent) : h.onError cfg p e = h.fail cfg p e := by
  unfold HostAgent.onError
  split
  · exact absurd ‹_› (hn _ _ _)
  · rfl

end Sys2Proof.Machine
end

