-- ==== Sys2Proof/Laws/Machine.lean ====
section
/-! SUPPORT. The invariant of the machine through each event and through each way a request is presented. -/

namespace Sys2Proof.Machine

theorem State.inv_lineEvent {s : State} (h : s.Inv) (x : Input) : (s.lineEvent x).Inv :=
  ⟨h.cfg, h.fcc, h.host, h.procOp⟩

theorem State.inv_line {s : State} (h : s.Inv) (l : Line) : ({ s with line := l } : State).Inv :=
  ⟨h.cfg, h.fcc, h.host, h.procOp⟩

theorem State.inv_agenda {s : State} (h : s.Inv) (l : List Item) :
    ({ s with host := { s.host with agenda := l } } : State).Inv :=
  ⟨h.cfg, h.fcc, HostAgent.inv_agenda h.host l, h.procOp⟩

theorem State.inv_waits {s : State} (h : s.Inv) (i : Instr) : (s.waits i).Inv := State.inv_agenda h _

theorem State.inv_rstEvent {s : State} (h : s.Inv) : s.rstEvent.Inv :=
  ⟨h.cfg, Fcc.inv_reset _, HostAgent.inv_abandon _, by simp⟩

theorem State.inv_sendByte {s : State} (h : s.Inv) (hs : s.fcc.chPhase = .send) : s.sendByte.Inv := by
  refine ⟨h.cfg, Fcc.inv_txNext h.fcc h.cfg.1 hs, h.host, fun hp => ?_⟩
  have := (h.procOp hp).resolve_left (by rw [hs]; simp)
  rw [State.sendByte_fcc, (Fcc.txNext_fields _).2.2.2.2]
  exact .inr this

theorem State.inv_flushEvent {s : State} (h : s.Inv) (hs : s.fcc.chPhase = .flush) : s.flushEvent.Inv := by
  have hop := h.fcc.opFlush hs
  have := Fcc.inv_receive h.fcc (by rw [hs]; simp) (op := s.fcc.op) (by rw [hop]; simp)
  exact ⟨h.cfg, this, h.host, fun _ => .inr hop⟩

theorem State.inv_takeByte {s : State} (h : s.Inv) (hs : s.fcc.chPhase = .recv) : s.takeByte.Inv := by
  cases hr : s.line.rx with
  | nil => rw [State.takeByte_nil hr]; exact h
  | cons b t =>
    rw [State.takeByte_cons hr]
    refine ⟨h.cfg, Fcc.inv_rxNext h.fcc b, h.host, fun hp => ?_⟩
    have hop := (h.procOp hp).resolve_left (by rw [hs]; simp)
    refine .inr ?_
    show (s.fcc.rxNext _ b).op = _
    unfold Fcc.rxNext
    split
    · exact hop
    · split <;> exact hop
    · exact hop
    · simp only
      split
      · rw [(Fcc.evaluate_fields _ _).2.2.2.2.2.2.1]; exact hop
      · exact hop
    · split
      · exact hop
      · split
        · rw [(Fcc.evaluate_fields _ _).2.2.2.2.2.2.1]; exact hop
        · exact hop

theorem State.inv_takeEvent {s : State} (h : s.Inv) (hs : s.fcc.chPhase = .done) : s.takeEvent.Inv :=
  ⟨h.cfg, Fcc.inv_rspTake h.fcc hs, HostAgent.inv_afterResult h.host _ _, fun _ => .inl rfl⟩

/-- A request accepted by the idle FCC (R181). -/
theorem inv_presentRequest {s t : State} (h : s.Inv) (hs : s.fcc.chPhase = .idle) {op : Operation} (ho : op ≠ .decode)
    (hp : s.host.proc.isSome = true → op = .xfer) {c : Word} {p : List Byte}
    (ht : presentRequest op c p s = .next t) : t.Inv := by
  unfold presentRequest at ht
  split at ht
  · rename_i hl
    cases ht
    exact ⟨h.cfg, Fcc.inv_latch h.fcc h.cfg.1 ho hs hl, h.host, fun hp' => .inr (hp hp')⟩
  · cases ht

theorem State.idle_of_not_busy {s : State} (h : s.hostBusy = false) : s.fcc.chPhase = .idle ∧ s.host.proc = none := by
  simp only [State.hostBusy, Fcc.busy, Bool.or_eq_false_iff, bne_eq_false_iff_eq, Option.isSome_eq_false_iff,
    Option.isNone_iff_eq_none] at h
  exact h

theorem inv_requestOrWait {s t : State} (h : s.Inv) {i : Instr} {op : Operation} (ho : op ≠ .decode) {c : Word}
    {p : List Byte} (ht : requestOrWait i op c p s = .next t) : t.Inv := by
  unfold requestOrWait at ht
  split at ht
  · cases ht; exact State.inv_waits h i
  · rename_i hb
    obtain ⟨h1, h2⟩ := State.idle_of_not_busy (by simpa using hb)
    exact inv_presentRequest h h1 ho (by simp [h2]) ht

theorem inv_presentAct {s t : State} (h : s.Inv) (hs : s.fcc.chPhase = .idle) {a : Act}
    (ht : presentAct a s = .next t) : t.Inv :=
  inv_presentRequest h hs (by simp) (fun _ => rfl) ht

theorem inv_startProc {s t : State} (h : s.Inv) {i : Instr} {p : Proc} (hp : p.Starts)
    (ht : startProc i p s = .next t) : t.Inv := by
  unfold startProc at ht
  split at ht
  · cases ht; exact State.inv_waits h i
  · rename_i hb
    obtain ⟨h1, -⟩ := State.idle_of_not_busy (by simpa using hb)
    refine inv_presentAct (s := { s with host := s.host.begin p }) ?_ h1 ht
    exact ⟨h.cfg, h.fcc, HostAgent.inv_begin h.host hp, fun _ => .inl h1⟩

theorem inv_startAuthenticated {s t : State} (h : s.Inv) {i : Instr} {p : Proc} (hp : p.Starts)
    (ht : startAuthenticated i p s = .next t) : t.Inv := by
  unfold startAuthenticated at ht
  split at ht
  · cases ht; exact State.inv_waits h i
  · split at ht
    · exact inv_startProc h hp ht
    · cases ht

end Sys2Proof.Machine
end

