-- ==== Sys2Proof/Laws/Exec.lean ====
section
/-! SUPPORT. Everything the event that starts an instruction can do, said once. -/

namespace Sys2Proof.Machine

/-- What an instruction can do if it answers `next`: HOST waits with it; FCC accepts its request; a procedure begins
and FCC accepts the request of its first XFER; DEC starts alone; bytes arrive at LINE. -/
inductive Started (i : Instr) (s t : State) : Prop
  | waits (ha : arriving i = false) (hb : s.hostBusy = true) (ht : t = s.waits i)
  | request (ha : arriving i = false) (hd : i ≠ .decode) (hb : s.hostBusy = false) (op : Operation) (c : Word)
      (p : List Byte) (hr : requestOf s.cfg i = some (op, c, p)) (ho : op ≠ .decode) (hl : p.length ≤ s.cfg.payloadMax)
      (ht : t = s.acceptRequest op c p)
  | begins (ha : arriving i = false) (hd : i ≠ .decode) (hb : s.hostBusy = false) (hr : requestOf s.cfg i = none)
      (pr : Proc) (hp : pr.Starts) (hl : (pr.act.xfer s.cfg).2.length ≤ s.cfg.payloadMax)
      (ht : t = ({ s with host := s.host.begin pr } : State).acceptRequest .xfer (pr.act.xfer s.cfg).1
        (pr.act.xfer s.cfg).2)
  | decode (hi : i = .decode) (hb : s.hostBusy = false)
      (ht : t = { s with fcc := { s.fcc.receive with op := .decode } })
  | arrives (ha : arriving i = true) (bytes : List Byte)
      (ht : t = s.bytesArrive bytes)

theorem started_of_requestOrWait {i : Instr} {s t : State} {op : Operation} {c : Word} {p : List Byte}
    (ha : arriving i = false) (hd : i ≠ .decode) (hr : requestOf s.cfg i = some (op, c, p)) (ho : op ≠ .decode)
    (h : requestOrWait i op c p s = .next t) : Started i s t := by
  unfold requestOrWait at h
  split at h
  · rename_i hb; cases h; exact .waits ha hb rfl
  · rename_i hb
    unfold presentRequest at h
    split at h
    · rename_i hl; cases h; exact .request ha hd (by simpa using hb) op c p hr ho hl rfl
    · cases h

theorem started_of_startProc {i : Instr} {s t : State} {p : Proc} (ha : arriving i = false) (hd : i ≠ .decode)
    (hr : requestOf s.cfg i = none) (hp : p.Starts) (h : startProc i p s = .next t) : Started i s t := by
  unfold startProc at h
  split at h
  · rename_i hb; cases h; exact .waits ha hb rfl
  · rename_i hb
    unfold presentAct presentRequest at h
    split at h
    · rename_i hl
      cases h
      exact .begins ha hd (by simpa using hb) hr p hp hl rfl
    · cases h

theorem started_of_startAuthenticated {i : Instr} {s t : State} {p : Proc} (ha : arriving i = false)
    (hd : i ≠ .decode) (hr : requestOf s.cfg i = none) (hp : p.Starts) (h : startAuthenticated i p s = .next t) : Started i s t := by
  unfold startAuthenticated at h
  split at h
  · rename_i hb; cases h; exact .waits ha hb rfl
  · split at h
    · exact started_of_startProc ha hd hr hp h
    · cases h

theorem exec_cases {i : Instr} {s t : State} (h : exec i s = .next t) : Started i s t := by
  have auth : ∀ (g : Goal) sl n k (rest : List Act), (∀ a ∈ rest, a.selecting = false) →
      Proc.Starts { goal := g, act := .auth sl n k, rest := rest, data := [] } := fun _ _ _ _ _ hr => ⟨.inr rfl, hr⟩
  cases i with
  | encode _ _ => exact started_of_requestOrWait rfl (by simp) rfl (by simp) h
  | xfer _ _ => exact started_of_requestOrWait rfl (by simp) rfl (by simp) h
  | frameOut _ _ => exact started_of_requestOrWait rfl (by simp) rfl (by simp) h
  | decode =>
    simp only [exec, execDecode] at h
    split at h
    · rename_i hb; cases h; exact .waits rfl hb rfl
    · rename_i hb; cases h; exact .decode rfl (by simpa using hb) rfl
  | frameIn _ _ => cases h; exact .arrives rfl _ rfl
  | hdr => cases h; exact .arrives rfl _ rfl
  | esc => cases h; exact .arrives rfl _ rfl
  | select => exact started_of_startProc rfl (by simp) rfl ⟨.inl rfl, by simp⟩ h
  | halt => exact started_of_startProc rfl (by simp) rfl ⟨.inr rfl, by simp⟩ h
  | dump _ => exact started_of_startProc rfl (by simp) rfl (dumpSector_starts ..) h
  | findKeys _ _ =>
    refine started_of_startProc rfl (by simp) rfl ⟨.inl rfl, ?_⟩ h
    intro a ha
    simp only [List.mem_append, List.mem_map] at ha
    rcases ha with ⟨k, -, rfl⟩ | ⟨k, -, rfl⟩ <;> rfl
  | readBlock _ =>
    simp only [exec, execReadBlock] at h
    split at h
    · rename_i hb; cases h; exact .waits rfl hb rfl
    · split at h
      · exact started_of_startProc rfl (by simp) rfl ⟨.inr rfl, by simp⟩ h
      · cases h
  | authenticate _ _ _ => exact started_of_startAuthenticated rfl (by simp) rfl (auth _ _ _ _ _ (by simp)) h
  | readSector _ _ _ =>
    refine started_of_startAuthenticated rfl (by simp) rfl (auth _ _ _ _ _ ?_) h
    intro a ha
    obtain ⟨b, -, rfl⟩ := List.mem_map.1 ha
    rfl
  | writeBlock _ _ _ _ _ => exact started_of_startAuthenticated rfl (by simp) rfl (auth _ _ _ _ _ (by simp [Act.selecting])) h
  | initBalance _ _ _ _ _ =>
    exact started_of_startAuthenticated rfl (by simp) rfl (auth _ _ _ _ _ (by simp [Act.selecting])) h
  | readBalance _ _ _ _ => exact started_of_startAuthenticated rfl (by simp) rfl (auth _ _ _ _ _ (by simp [Act.selecting])) h
  | increaseBalance _ _ _ _ _ =>
    exact started_of_startAuthenticated rfl (by simp) rfl (auth _ _ _ _ _ (by simp [Act.selecting])) h
  | decreaseBalance _ _ _ _ _ =>
    exact started_of_startAuthenticated rfl (by simp) rfl (auth _ _ _ _ _ (by simp [Act.selecting])) h
  | _ => exact started_of_requestOrWait rfl (by simp) rfl (by simp) h

/-- No instruction answers with a fault. -/
theorem exec_ne_fault (i : Instr) (s : State) (r : Fault) : exec i s ≠ .fault r := by
  have h1 : ∀ i op c p, requestOrWait i op c p s ≠ .fault r := by
    intro i op c p; unfold requestOrWait presentRequest; split <;> [skip; split] <;> simp
  have h2 : ∀ i p, startProc i p s ≠ .fault r := by
    intro i p; unfold startProc presentAct presentRequest; split <;> [skip; split] <;> simp
  have h3 : ∀ i p, startAuthenticated i p s ≠ .fault r := by
    intro i p; unfold startAuthenticated; split <;> [simp; split] <;> [exact h2 i p; simp]
  cases i with
  | decode => simp only [exec, execDecode]; split <;> simp
  | frameIn _ _ => simp [exec, execFrameIn]
  | hdr => simp [exec, execHdr]
  | esc => simp [exec, execEsc]
  | readBlock _ =>
    simp only [exec, execReadBlock]
    split
    · simp
    · split
      · exact h2 _ _
      · simp
  | select => exact h2 _ _
  | halt => exact h2 _ _
  | dump _ => exact h2 _ _
  | findKeys _ _ => exact h2 _ _
  | authenticate _ _ _ => exact h3 _ _
  | readSector _ _ _ => exact h3 _ _
  | writeBlock _ _ _ _ _ => exact h3 _ _
  | initBalance _ _ _ _ _ => exact h3 _ _
  | readBalance _ _ _ _ => exact h3 _ _
  | increaseBalance _ _ _ _ _ => exact h3 _ _
  | decreaseBalance _ _ _ _ _ => exact h3 _ _
  | _ => exact h1 _ _ _ _

/-- What presenting an item can do if it answers `next`: it is, or decodes to, an instruction in range that answers so,
or it is bytes of the RX stream, which arrive. -/
theorem runItem_cases {item : Item} {s t : State} (h : runItem item s = .next t) :
    (∃ i, inRange i = true ∧ exec i s = .next t) ∨ ∃ bytes, t = s.bytesArrive bytes := by
  have hi : ∀ i, runInstr i s = .next t → inRange i = true ∧ exec i s = .next t := by
    intro i h; unfold runInstr at h; split at h <;> [exact ⟨‹_›, h⟩; cases h]
  unfold runItem at h
  split at h
  · exact .inl ⟨_, hi _ h⟩
  · split at h
    · exact .inl ⟨_, hi _ h⟩
    · split at h
      · cases h; exact .inr ⟨_, rfl⟩
      all_goals cases h

/-- Presenting an item answers with no fault. -/
theorem runItem_ne_fault (item : Item) (s : State) (r : Fault) : runItem item s ≠ .fault r := by
  have hi : ∀ i, runInstr i s ≠ .fault r := by
    intro i; unfold runInstr; split <;> [exact exec_ne_fault _ _ _; simp]
  unfold runItem
  split
  · exact hi _
  · split
    · exact hi _
    · split <;> simp

end Sys2Proof.Machine
end

