-- ==== Sys2Proof/Laws/PerInstr.lean ====
section
/-! SUPPORT. Per instruction: the payload of a command row (R95) says which instruction it is, with every operand. -/

namespace Sys2Proof.Laws.CommandRoundTrip

open Sys2Proof.Machine

/-- An instruction of a command row that is well formed is read back from its command and payload, operand by operand;
of the other rows nothing is said. -/
def Statement (i : Instr) : Prop :=
  i.wf = true → ∀ d p, commandOf i = some (d, p) → ofCommand d p = some i

/-- An absolute block number gives back sector and block (R201). -/
theorem splitBlock_blockByte {sector block : Nat} (hs : sectorOk sector = true) (hb : blockOk block = true) :
    splitBlock (blockByte sector block) = some (sector, block) := by
  simp only [sectorOk, blockOk, decide_eq_true_eq] at hs hb
  have hn : (blockByte sector block).toNat = sector * 4 + block := by
    simp only [blockByte, BitVec.toNat_ofNat]; omega
  rw [splitBlock, hn, if_pos (by omega)]
  congr 2 <;> omega

theorem encode : ∀ command payload, Statement (.encode command payload) := by
  intro command payload _ d p h
  cases h

theorem decode : Statement .decode := by
  intro _ d p h
  cases h

theorem xfer : ∀ command payload, Statement (.xfer command payload) := by
  intro command payload _ d p h
  cases h

theorem frameOut : ∀ command payload, Statement (.frameOut command payload) := by
  intro command payload _ d p h
  cases h

theorem frameIn : ∀ noise logical, Statement (.frameIn noise logical) := by
  intro noise logical _ d p h
  cases h

theorem hdr : Statement .hdr := by
  intro _ d p h
  cases h

theorem esc : Statement .esc := by
  intro _ d p h
  cases h

theorem cmdSetBaud : ∀ payload, Statement (.cmdSetBaud payload) := by
  intro payload _ d p h
  cases h
  rfl

theorem cmdReadBaud : ∀ payload, Statement (.cmdReadBaud payload) := by
  intro payload _ d p h
  cases h
  rfl

theorem cmdSetNode : ∀ payload, Statement (.cmdSetNode payload) := by
  intro payload _ d p h
  cases h
  rfl

theorem cmdReadNode : ∀ payload, Statement (.cmdReadNode payload) := by
  intro payload _ d p h
  cases h
  rfl

theorem cmdReadFw : ∀ payload, Statement (.cmdReadFw payload) := by
  intro payload _ d p h
  cases h
  rfl

theorem cmdBeep : ∀ duration, Statement (.cmdBeep duration) := by
  intro duration _ d p h
  cases h
  rfl

theorem cmdSetLed : ∀ payload, Statement (.cmdSetLed payload) := by
  intro payload _ d p h
  cases h
  rfl

theorem cmdRequest : Statement .cmdRequest := by
  intro _ d p h
  cases h
  rfl

theorem cmdAnticoll : Statement .cmdAnticoll := by
  intro _ d p h
  cases h
  rfl

theorem cmdSelect : ∀ serial, Statement (.cmdSelect serial) := by
  intro serial hw d p h
  cases h
  simp only [Instr.wf, serialOk, Bool.or_eq_true, decide_eq_true_eq] at hw
  simp [ofCommand, hw]

theorem cmdUlSelect : Statement .cmdUlSelect := by
  intro _ d p h
  cases h
  rfl

theorem cmdHalt : Statement .cmdHalt := by
  intro _ d p h
  cases h
  rfl

theorem cmdAuth2 : ∀ slot sector key, Statement (.cmdAuth2 slot sector key) := by
  intro slot sector key hw d p h
  cases h
  simp only [Instr.wf, Bool.and_eq_true, sectorOk, keyOk, decide_eq_true_eq] at hw
  have hn : (blockByte sector 0).toNat = sector * 4 := by
    simp only [blockByte, BitVec.toNat_ofNat]; omega
  cases slot <;> simp [ofCommand, auth2Payload, keySelector, hn, hw.2] <;> omega

theorem cmdReadBlock : ∀ sector block, Statement (.cmdReadBlock sector block) := by
  intro sector block hw d p h
  cases h
  simp only [Instr.wf, Bool.and_eq_true] at hw
  simp [ofCommand, splitBlock_blockByte hw.1 hw.2]

theorem cmdWriteBlock : ∀ sector block data, Statement (.cmdWriteBlock sector block data) := by
  intro sector block data hw d p h
  cases h
  simp only [Instr.wf, Bool.and_eq_true] at hw
  simp [ofCommand, writePayload, splitBlock_blockByte hw.1.1 hw.1.2]

theorem cmdInitBal : ∀ sector block amount, Statement (.cmdInitBal sector block amount) := by
  intro sector block amount hw d p h
  cases h
  simp only [Instr.wf, Bool.and_eq_true] at hw
  simp [ofCommand, amountPayload, splitBlock_blockByte hw.1 hw.2]

theorem cmdReadBal : ∀ sector block, Statement (.cmdReadBal sector block) := by
  intro sector block hw d p h
  cases h
  simp only [Instr.wf, Bool.and_eq_true] at hw
  simp [ofCommand, splitBlock_blockByte hw.1 hw.2]

theorem cmdIncBal : ∀ sector block amount, Statement (.cmdIncBal sector block amount) := by
  intro sector block amount hw d p h
  cases h
  simp only [Instr.wf, Bool.and_eq_true] at hw
  simp [ofCommand, amountPayload, splitBlock_blockByte hw.1 hw.2]

theorem cmdDecBal : ∀ sector block amount, Statement (.cmdDecBal sector block amount) := by
  intro sector block amount hw d p h
  cases h
  simp only [Instr.wf, Bool.and_eq_true] at hw
  simp [ofCommand, amountPayload, splitBlock_blockByte hw.1 hw.2]

theorem select : Statement .select := by
  intro _ d p h
  cases h

theorem halt : Statement .halt := by
  intro _ d p h
  cases h

theorem authenticate : ∀ sector key slot, Statement (.authenticate sector key slot) := by
  intro sector key slot _ d p h
  cases h

theorem readBlock : ∀ block, Statement (.readBlock block) := by
  intro block _ d p h
  cases h

theorem readSector : ∀ sector key blocks, Statement (.readSector sector key blocks) := by
  intro sector key blocks _ d p h
  cases h

theorem writeBlock : ∀ slot sector key block data, Statement (.writeBlock slot sector key block data) := by
  intro slot sector key block data _ d p h
  cases h

theorem initBalance : ∀ slot sector key block amount, Statement (.initBalance slot sector key block amount) := by
  intro slot sector key block amount _ d p h
  cases h

theorem readBalance : ∀ slot sector key block, Statement (.readBalance slot sector key block) := by
  intro slot sector key block _ d p h
  cases h

theorem increaseBalance : ∀ slot sector key block amount, Statement (.increaseBalance slot sector key block amount) := by
  intro slot sector key block amount _ d p h
  cases h

theorem decreaseBalance : ∀ slot sector key block amount, Statement (.decreaseBalance slot sector key block amount) := by
  intro slot sector key block amount _ d p h
  cases h

theorem dump : ∀ key, Statement (.dump key) := by
  intro key _ d p h
  cases h

theorem findKeys : ∀ sector candidates, Statement (.findKeys sector candidates) := by
  intro sector candidates _ d p h
  cases h

end Sys2Proof.Laws.CommandRoundTrip
end

