-- ==== Sys2Proof/Tests/Slice0.lean ====
section
/-! SUPPORT. Small tests, and a witness for every statement with hypotheses. Expected results are those of
95_test_vectors.md (S, EV, DV, X, P) or written out by hand from the rule named. -/

namespace Sys2Proof.Tests

open Sys2Proof Sys2Proof.Machine

/-! ### Small states -/

/-- Some distinct command codes (R95 leaves them open; AUTH2 and READ_BLOCK as P3 instantiates them). -/
def codes : CmdCodes where
  setBaud := 0x0101
  readBaud := 0x0102
  setNode := 0x0103
  readNode := 0x0104
  readFw := 0x0105
  setLed := 0x0107
  request := 0x0201
  anticoll := 0x0202
  select := 0x0203
  ulSelect := 0x0212
  halt := 0x0204
  auth2 := 0x0207
  readBlock := 0x0208
  writeBlock := 0x0209
  initBal := 0x020A
  readBal := 0x020B
  incBal := 0x020D
  decBal := 0x020C

def cfg : Config := ⟨16, 64, none, codes, ⟨0x0044, 0x0004, 0x0002, 0x0344, 0x0008⟩, true, true, true, [0, 1, 2, 3]⟩

/-- An event in which nothing answers. -/
def quiet : Input := ⟨false, false, false, false, false, false, 0, []⟩

/-- A machine with these registers, these bytes in LINE, and this input in the next event. -/
def st (f : Fcc) (rx : List Byte) (x : Input) : State := ⟨cfg, f, ⟨rx, [], [], 0⟩, HostAgent.reset, ⟨[x], Input.ready⟩⟩

/-- FCC idle. -/
def idle : State := st Fcc.reset [] quiet

/-- ENC in the trace of EV4: command `0x0106`, payload `[0xAD]`. -/
def sending (ph : TxPhase) (idx : Word) (x : Byte) : Fcc :=
  { Fcc.reset with chPhase := .send, txPhase := ph, chCmd := 0x0106, chLen := 1, txp := [(0, 0xAD)], txIdx := idx, txXor := x }

/-- CH in `C_FLUSH` with the same request. -/
def flushing : Fcc := { sending .hdr0 5 0xAA with chPhase := .flush, txPhase := .idle }

/-- DEC in a phase, with the same request. -/
def receiving (ph : RxPhase) : Fcc := { flushing with chPhase := .recv, rxPhase := ph }

/-- DEC in the body of the frame of the RX trace of 95_test_vectors.md, `n` logical bytes taken. -/
def inBody (n : Word) (x : Byte) (pd : Bool) (buf : Memory) : Fcc :=
  { receiving .body with rxHa := true, rxLen := 7, rxCnt := n, rxXor := x, rxPd := pd, rxb := buf }

/-- CH in `C_DONE` with the result of X1. -/
def finished (kind : ResKind) : Fcc :=
  { flushing with chPhase := .done, rxLen := 6, rxCnt := 6, resKind := kind, resCmd := 0x0106,
                  rxb := [(0, 0xFF), (1, 0xFF), (2, 0x06), (3, 0x01), (5, 0x07)] }

/-- FCC idle, the session in this state. -/
def inSession (session : Session) : State := { idle with host := { HostAgent.reset with session := session } }

/-- A key of P3. -/
def key : List Byte := [0xA0, 0xA1, 0xA2, 0xA3, 0xA4, 0xA5]

/-- HOST with this procedure in progress. -/
def doing (p : Proc) : HostAgent := { HostAgent.reset with proc := some p, session := .selected 0x0004 [1, 2, 3, 4] }

/-! ### WellFormed: one ill-formed term for each check, refused -/

theorem test_wf_sector : (Instr.cmdReadBlock 16 0).wf = false ∧ (Instr.cmdReadBlock 15 3).wf = true := by decide
theorem test_wf_block : (Instr.cmdReadBal 0 4).wf = false ∧ (Instr.readBlock 4).wf = false := by decide
theorem test_wf_key : (Instr.cmdAuth2 .A 0 [1, 2, 3, 4, 5]).wf = false ∧ (Instr.dump [1, 2, 3, 4, 5, 6, 7]).wf = false := by
  decide
theorem test_wf_serial : (Instr.cmdSelect [1, 2, 3, 4, 5]).wf = false ∧ (Instr.cmdSelect [1, 2, 3, 4, 5, 6, 7]).wf = true := by
  decide
theorem test_wf_blocks_keys : (Instr.readSector 0 key [0, 1, 4]).wf = false ∧ (Instr.findKeys 0 [key, []]).wf = false := by
  decide
theorem test_wf_noise : (Instr.frameIn [0xAA, 0xBB] []).wf = false ∧ (Instr.frameIn [0xBB, 0xAA] []).wf = true := by decide
theorem test_wf_logical : (Instr.frameIn [] (List.replicate 65536 0)).wf = false := by
  simp only [Instr.wf, List.length_replicate, noiseOk]
  decide
theorem test_wf_payload : (Instr.xfer 0 (List.replicate 65531 0)).wf = false ∧
    (Instr.xfer 0 (List.replicate 65530 0)).wf = true := by
  simp only [Instr.wf, payloadFits, List.length_replicate]
  decide
theorem test_wf_data : (Instr.cmdWriteBlock 0 0 (List.replicate 65530 0)).wf = false ∧
    (Instr.writeBlock .A 0 key 0 (List.replicate 65530 0)).wf = false := by
  simp only [Instr.wf, List.length_replicate]
  decide
/-- U20: sector 16; R202: a key of five bytes. -/
theorem test_outOfRange_is_refused : step (placeItem (.op (.cmdReadBlock 16 0)) idle) = .refused .outOfRange ∧
    step (placeItem (.op (.dump [1, 2, 3, 4, 5])) idle) = .refused .outOfRange := ⟨rfl, rfl⟩
/-- R97 item 6: noise with `AA BB` arrives; R55: so do bytes that are no frame. -/
theorem test_any_rx_bytes_arrive :
    (∃ t, step (placeItem (.op (.frameIn [0xAA, 0xBB] [])) idle) = .next t ∧
      t.line.rx = [0xAA, 0xBB, 0xAA, 0xBB, 0x00, 0x00]) ∧
    ∃ t, step (placeItem (.words .rx [0x13, 0xAA]) idle) = .next t ∧ t.line.rx = [0x13, 0xAA] :=
  ⟨⟨_, rfl, by decide⟩, ⟨_, rfl, by decide⟩⟩
/-- R95, R100: SELECT sends any serial. -/
theorem test_any_serial_is_sent : ∃ t, step (placeItem (.op (.cmdSelect [1, 2, 3, 4, 5])) idle) = .next t ∧
    t.fcc.chCmd = 0x0203 ∧ t.fcc.chLen = 5 := ⟨_, rfl, by decide⟩
/-- R43: one byte is no request. -/
theorem test_no_request : step (placeItem (.words .req [0x06]) idle) = .refused (.undecodable .truncated) := rfl

/-! ### Decode: the words of every constructor that has words (R81 to R88, R95), and what is rejected -/

theorem test_decode_open_payloads :
    decode cfg .req [0x01, 0x01, 0x05] = .ok (.cmdSetBaud [0x05]) ∧ decode cfg .req [0x02, 0x01] = .ok (.cmdReadBaud []) ∧
    decode cfg .req [0x03, 0x01, 0x07, 0x08] = .ok (.cmdSetNode [0x07, 0x08]) ∧
    decode cfg .req [0x04, 0x01] = .ok (.cmdReadNode []) ∧ decode cfg .req [0x05, 0x01] = .ok (.cmdReadFw []) ∧
    decode cfg .req [0x07, 0x01, 0x03] = .ok (.cmdSetLed [0x03]) := by decide
theorem test_decode_card_commands :
    decode cfg .req [0x01, 0x02, 0x52] = .ok .cmdRequest ∧ decode cfg .req [0x02, 0x02, 0x04] = .ok .cmdAnticoll ∧
    decode cfg .req [0x03, 0x02, 1, 2, 3, 4] = .ok (.cmdSelect [1, 2, 3, 4]) ∧
    decode cfg .req [0x12, 0x02] = .ok .cmdUlSelect ∧ decode cfg .req [0x04, 0x02] = .ok .cmdHalt := by decide
theorem test_decode_block_commands :
    decode cfg .req [0x07, 0x02, 0x61, 0x0C, 0xA0, 0xA1, 0xA2, 0xA3, 0xA4, 0xA5] = .ok (.cmdAuth2 .B 3 key) ∧
    decode cfg .req [0x08, 0x02, 0x0E] = .ok (.cmdReadBlock 3 2) ∧
    decode cfg .req [0x09, 0x02, 0x3F, 0x55, 0x66] = .ok (.cmdWriteBlock 15 3 [0x55, 0x66]) := by decide
theorem test_decode_balance_commands :
    decode cfg .req [0x0A, 0x02, 0x05, 0x34, 0x12] = .ok (.cmdInitBal 1 1 0x1234) ∧
    decode cfg .req [0x0B, 0x02, 0x05] = .ok (.cmdReadBal 1 1) ∧
    decode cfg .req [0x0D, 0x02, 0x05, 0xFF, 0x00] = .ok (.cmdIncBal 1 1 0x00FF) ∧
    decode cfg .req [0x0C, 0x02, 0x05, 0x00, 0xFF] = .ok (.cmdDecBal 1 1 0xFF00) := by decide
theorem test_decode_beep_xfer :
    decode cfg .req [0x06, 0x01, 0x0A] = .ok (.cmdBeep 0x0A) ∧
    decode cfg .req [0x34, 0x12, 0x00] = .ok (.xfer 0x1234 [0x00]) ∧
    decode cfg .req [0x01, 0x02, 0x53] = .ok (.xfer 0x0201 [0x53]) ∧ decode cfg .req [0x06] = .error .truncated := by decide
/-- EV4, EV6. -/
theorem test_decode_frameOut :
    decode cfg .tx [0xAA, 0xBB, 0x06, 0x00, 0xFF, 0xFF, 0x06, 0x01, 0xAD, 0xAA, 0x00] = .ok (.frameOut 0x0106 [0xAD]) ∧
    decode cfg .tx [0xAA, 0xBB, 0x06, 0x00, 0xFF, 0xFF, 0xAA, 0x00, 0xAA, 0x00, 0x01, 0x01] =
      .ok (.frameOut 0xAAAA [0x01]) := by decide
/-- DV4 (noise), DV10. -/
theorem test_decode_frameIn :
    decode cfg .rx [0x00, 0xAA, 0x13, 0xAA, 0xAA, 0xBB, 0x06, 0x00, 0xFF, 0xFF, 0x06, 0x01, 0x00, 0x07] =
      .ok (.frameIn [0x00, 0xAA, 0x13, 0xAA] [0xFF, 0xFF, 0x06, 0x01, 0x00, 0x07]) ∧
    decode cfg .rx [0xAA, 0xBB, 0x07, 0x00, 0xFF, 0xFF, 0x06, 0x01, 0x00, 0xAA, 0x00, 0xAD] =
      .ok (.frameIn [] [0xFF, 0xFF, 0x06, 0x01, 0x00, 0xAA, 0xAD]) := by decide
theorem test_decode_pairs : decode cfg .rx [0xAA, 0xBB] = .ok .hdr ∧ decode cfg .rx [0xAA, 0x00] = .ok .esc ∧
    decode cfg .rx [0xAA, 0x01] = .error .noHeader := by decide
/-- The rejections of a FRAME_OUT, one each (R81, R86, R87, R91, R88). -/
theorem test_decode_rejects :
    decode cfg .tx [0xAB, 0xBB, 0x06, 0x00] = .error .noHeader ∧
    decode cfg .tx [0xAA, 0xBB, 0x06, 0x00, 0xFF] = .error .truncated ∧
    decode cfg .tx [0xAA, 0xBB, 0x04, 0x00, 0xFF, 0xFF, 0x06, 0x01] = .error .shortLength ∧
    decode cfg .tx [0xAA, 0xBB, 0x05, 0x00, 0xFF, 0xFE, 0x06, 0x01, 0x06] = .error .badReserved ∧
    decode cfg .tx [0xAA, 0xBB, 0x05, 0x00, 0xFF, 0xFF, 0x06, 0x01, 0x08] = .error .badChecksum ∧
    decode cfg .tx [0xAA, 0xBB, 0x05, 0x00, 0xFF, 0xFF, 0x06, 0x01, 0x07, 0x00] = .error .notTheFrame := by decide
theorem test_encode_words :
    encode cfg (.cmdAuth2 .A 1 key) = some (.req, [0x07, 0x02, 0x60, 0x04, 0xA0, 0xA1, 0xA2, 0xA3, 0xA4, 0xA5]) ∧
    encode cfg (.xfer 0x1234 [0x01]) = some (.req, [0x34, 0x12, 0x01]) ∧ encode cfg .decode = none := by decide
/-- The table's words: operand bytes the table gives no bits are zeros. -/
theorem test_table_words : decodeTableWord 16 0x0106 = some (.cmdBeep 0) ∧ decodeTableWord 16 0xBBAA = some .hdr ∧
    decodeTableWord 16 0x00AA = some .esc := by decide
/-- A table word is the first instruction after reset. -/
theorem test_fetch_word_runs :
    step (State.reset.withFetchWord 24 0x0A0106) = .next (State.reset.accepted .xfer 0x0106 [0x0A]) := by rfl

/-! ### The codec: vectors of 95_test_vectors.md -/

/-- EV1 to EV7. -/
theorem test_encode_vectors_1 :
    wire 0x0106 [0x0A] = [0xAA, 0xBB, 0x06, 0x00, 0xFF, 0xFF, 0x06, 0x01, 0x0A, 0x0D] ∧
    wire 0x0106 [] = [0xAA, 0xBB, 0x05, 0x00, 0xFF, 0xFF, 0x06, 0x01, 0x07] ∧
    wire 0x0106 [0xAA] = [0xAA, 0xBB, 0x06, 0x00, 0xFF, 0xFF, 0x06, 0x01, 0xAA, 0x00, 0xAD] ∧
    wire 0x0106 [0xAD] = [0xAA, 0xBB, 0x06, 0x00, 0xFF, 0xFF, 0x06, 0x01, 0xAD, 0xAA, 0x00] ∧
    wire 0x01AA [0x00] = [0xAA, 0xBB, 0x06, 0x00, 0xFF, 0xFF, 0xAA, 0x00, 0x01, 0x00, 0xAB] ∧
    wire 0xAAAA [0x01] = [0xAA, 0xBB, 0x06, 0x00, 0xFF, 0xFF, 0xAA, 0x00, 0xAA, 0x00, 0x01, 0x01] ∧
    wire 0x0106 [0xAA, 0x00] = [0xAA, 0xBB, 0x07, 0x00, 0xFF, 0xFF, 0x06, 0x01, 0xAA, 0x00, 0x00, 0xAD] := by decide
/-- EV9, EV10, EV11, EV12, EV14. -/
theorem test_encode_vectors_2 :
    wire 0x0106 [0x00, 0xAD] = [0xAA, 0xBB, 0x07, 0x00, 0xFF, 0xFF, 0x06, 0x01, 0x00, 0xAD, 0xAA, 0x00] ∧
    wire 0x0000 [0x00] = [0xAA, 0xBB, 0x06, 0x00, 0xFF, 0xFF, 0x00, 0x00, 0x00, 0x00] ∧
    wire 0xFFFF [0xFF] = [0xAA, 0xBB, 0x06, 0x00, 0xFF, 0xFF, 0xFF, 0xFF, 0xFF, 0xFF] ∧
    wire 0x0106 [0xAA, 0xAA, 0xAA] =
      [0xAA, 0xBB, 0x08, 0x00, 0xFF, 0xFF, 0x06, 0x01, 0xAA, 0x00, 0xAA, 0x00, 0xAA, 0x00, 0xAD] ∧
    wire 0xBBAA [0x11] = [0xAA, 0xBB, 0x06, 0x00, 0xFF, 0xFF, 0xAA, 0x00, 0xBB, 0x11, 0x00] := by decide
/-- EV15, EV16, EV17: the length field. -/
theorem test_length_fields : lengthField (List.replicate 165 0) = 0x00AA ∧
    lengthField (List.replicate 48037 0) = 0xBBAA ∧ lengthField (List.replicate 65530 0) = 0xFFFF := by
  simp only [lengthField, List.length_replicate]
  decide
/-- DV1, DV2, DV3, DV4, DV5, DV6, DV8, DV9. -/
theorem test_decode_vectors_1 :
    decodeStream 64 [0xAA, 0xBB, 0x06, 0x00, 0xFF, 0xFF, 0x06, 0x01, 0x00, 0x07] = some (.ok 0x0106 0x00 [], []) ∧
    decodeStream 64 [0xAA, 0xBB, 0x06, 0x00, 0xFF, 0xFF, 0x06, 0x01, 0x00, 0x06] = some (.checksum 0x0106, []) ∧
    decodeStream 64 [0xAA, 0xBB, 0x06, 0x00, 0xFF, 0xFF, 0x06, 0x01, 0x05, 0x99] = some (.ok 0x0106 0x05 [], []) ∧
    decodeStream 64 [0x00, 0xAA, 0x13, 0xAA, 0xAA, 0xBB, 0x06, 0x00, 0xFF, 0xFF, 0x06, 0x01, 0x00, 0x07] =
      some (.ok 0x0106 0x00 [], []) ∧
    decodeStream 64 [0xAA, 0xBB, 0x05, 0x00, 0xFF, 0xFF, 0x06, 0x01, 0x07] = some (.framing, []) ∧
    decodeStream 64 [0xAA, 0xBB, 0x00, 0x00] = some (.framing, []) ∧
    decodeStream 64 [0xAA, 0xBB, 0x04, 0x00, 0xFF, 0xFF, 0x06, 0x01, 0x55] = some (.framing, [0x55]) ∧
    decodeStream 64 [0xAA, 0xBB, 0x01, 0x00, 0xAA, 0x00] = some (.framing, [0x00]) := by decide
/-- DV10 to DV15, DV17. -/
theorem test_decode_vectors_2 :
    decodeStream 64 [0xAA, 0xBB, 0x07, 0x00, 0xFF, 0xFF, 0x06, 0x01, 0x00, 0xAA, 0x00, 0xAD] =
      some (.ok 0x0106 0x00 [0xAA], []) ∧
    decodeStream 64 [0xAA, 0xBB, 0x07, 0x00, 0xFF, 0xFF, 0x06, 0x01, 0x00, 0xAD, 0xAA, 0x00] =
      some (.ok 0x0106 0x00 [0xAD], [0x00]) ∧
    decodeStream 64 [0xAA, 0xBB, 0x06, 0x00, 0xFF, 0xFF, 0xAA, 0x00, 0x01, 0x00, 0xAB] = some (.ok 0x01AA 0x00 [], []) ∧
    decodeStream 64 [0xAA, 0xBB, 0x06, 0x00, 0x12, 0x34, 0x06, 0x01, 0x00, 0x21] = some (.ok 0x0106 0x00 [], []) ∧
    decodeStream 64 [0xAA, 0xBB, 0x08, 0x00, 0xFF, 0xFF, 0x06, 0x01, 0x00, 0xAA, 0xBB, 0x16] =
      some (.ok 0x0106 0x00 [0xAA, 0xBB], []) ∧
    decodeStream 64 [0xAA, 0xBB, 0x08, 0x00, 0xFF, 0xFF, 0x06, 0x01, 0x00, 0xAA, 0x00, 0x00, 0xAD] =
      some (.ok 0x0106 0x00 [0xAA, 0x00], []) ∧
    decodeStream 64 [0xAA, 0xBB, 0x08, 0x00, 0xFF, 0xFF, 0x06, 0x01, 0x00, 0xAA, 0xAA, 0x00, 0x07] =
      some (.ok 0x0106 0x00 [0xAA, 0xAA], []) := by decide
/-- DV18, DV20 to DV23; a frame longer than `RX_BUF_MAX` (D5). -/
theorem test_decode_vectors_3 :
    decodeStream 64 [0xBB, 0xAA, 0xBB, 0x06, 0x00, 0xFF, 0xFF, 0x06, 0x01, 0x00, 0x07] = some (.ok 0x0106 0x00 [], []) ∧
    decodeStream 64 [0xAA, 0xBB, 0xAA, 0x00] = none ∧
    decodeStream 64 [0xAA, 0xBB, 0x06, 0x00, 0xFF, 0xFF, 0x06, 0x01, 0x00] = none ∧
    decodeStream 64 [0xAA, 0x00, 0xBB, 0x06, 0x00] = none ∧
    decodeStream 64 [0xAA, 0xBB, 0x06, 0x00, 0xFF, 0xFF, 0x07, 0x01, 0x00, 0x06] = some (.ok 0x0107 0x00 [], []) ∧
    decodeStream 6 [0xAA, 0xBB, 0x07, 0x00, 0xFF, 0xFF, 0x06, 0x01, 0x00, 0x10, 0x17] = some (.framing, []) := by decide
/-- The single-bit flips 2, 3, 5, 8 and 10. -/
theorem test_flips :
    decodeStream 64 [0xAA, 0xBB, 0x06, 0x00, 0xFF, 0xFF, 0x06, 0x01, 0x00, 0x10, 0x17] = some (.checksum 0x0106, [0x17]) ∧
    decodeStream 300 [0xAA, 0xBB, 0x07, 0x01, 0xFF, 0xFF, 0x06, 0x01, 0x00, 0x10, 0x17] = none ∧
    decodeStream 64 [0xAA, 0xBB, 0x07, 0x00, 0xFF, 0xFE, 0x06, 0x01, 0x00, 0x10, 0x17] = some (.checksum 0x0106, []) ∧
    decodeStream 64 [0xAA, 0xBB, 0x07, 0x00, 0xFF, 0xFF, 0x06, 0x01, 0x01, 0x10, 0x17] = some (.ok 0x0106 0x01 [0x10], []) ∧
    decodeStream 64 [0xAA, 0xBB, 0x07, 0x00, 0xFF, 0xFF, 0x06, 0x01, 0x00, 0x10, 0x16] = some (.checksum 0x0106, []) := by
  decide

/-! ### Byte events: rows of the traces of 95_test_vectors.md -/

/-- EV4, events 3, 9, 10, 11 (an XFER goes on to the flush, ENCODE alone ends). -/
theorem test_tx_trace :
    (sending .len0 0 0x00).txData = 0x06 ∧
    (sending .body 4 0x07).txData = 0xAD ∧ (sending .body 4 0x07).txNext = sending .csum 5 0xAA ∧
    (sending .csum 5 0xAA).txData = 0xAA ∧ (sending .csum 5 0xAA).txNext = sending .cstuff 5 0xAA ∧
    (sending .cstuff 5 0xAA).txData = 0x00 ∧ (sending .cstuff 5 0xAA).txNext = flushing ∧
    ({ sending .cstuff 5 0xAA with op := .encode } : Fcc).txNext.chPhase = .idle := by decide
/-- The RX trace: the `AA`, its partner, and the last byte, which is evaluated. -/
theorem test_rx_trace :
    (inBody 5 0x07 false [(0, 0xFF), (1, 0xFF), (2, 0x06), (3, 0x01)]).rxNext 64 0xAA =
      inBody 6 0xAD true [(0, 0xFF), (1, 0xFF), (2, 0x06), (3, 0x01), (5, 0xAA)] ∧
    (inBody 6 0xAD true [(0, 0xFF), (1, 0xFF), (2, 0x06), (3, 0x01), (5, 0xAA)]).rxNext 64 0x00 =
      inBody 6 0xAD false [(0, 0xFF), (1, 0xFF), (2, 0x06), (3, 0x01), (5, 0xAA)] ∧
    ((inBody 6 0xAD false [(0, 0xFF), (1, 0xFF), (2, 0x06), (3, 0x01), (5, 0xAA)]).rxNext 64 0xAD).readResult =
      .ok 0x0106 0x00 [0xAA] := by decide
/-- X2, X3, X4, X5: the last byte of each, from DEC's registers before it. -/
theorem test_xfer_results :
    (({ inBody 5 0x06 false [(0, 0xFF), (1, 0xFF), (2, 0x07), (3, 0x01)] with rxLen := 6 } : Fcc).rxNext 64 0x06).readResult =
      .mismatch 0x0107 ∧
    (({ inBody 5 0x06 false [(0, 0xFF), (1, 0xFF), (2, 0x07), (3, 0x01)] with rxLen := 6 } : Fcc).rxNext 64 0x07).readResult =
      .checksum 0x0107 ∧
    (({ inBody 5 0x04 false [(0, 0xFF), (1, 0xFF), (2, 0x06), (3, 0x01), (4, 0x03)] with rxLen := 6 } : Fcc).rxNext 64
      0x00).readResult = .ok 0x0106 0x03 [] ∧
    (({ inBody 1 0xFF false [(0, 0xFF)] with rxLen := 2 } : Fcc).rxNext 64 0xFF).readResult = .framing := by decide
/-- R188: the take event leaves FCC idle and HOST with the result. -/
theorem test_take : ∃ t, step (st (finished .ok) [] Input.ready) = .next t ∧ t.fcc.chPhase = .idle ∧
    t.host.lastXfer = some (.ok 0x0106 0x00 []) := ⟨_, rfl, by decide, by decide⟩
/-- P5, step 2: reset out of a hang. -/
theorem test_reset_out_of_a_hang : ∃ t, step (st (inBody 4 0x07 false []) [0x55] { quiet with rst := true }) = .next t ∧
    t.fcc = Fcc.reset ∧ t.line.rx = [0x55] := ⟨_, rfl, by decide, by decide⟩

/-! ### HOST: the results of P3 and of the scenarios -/

/-- R210: Ultralight takes the serial of its own select. -/
theorem test_select_ultralight : (HostAgent.afterResults cfg (doing ⟨.select, .request, [], []⟩)
    [.ok 0x0201 0x00 [0x44, 0x00], .ok 0x0202 0x00 [1, 2, 3, 4], .ok 0x0212 0x00 [1, 2, 3, 4, 5, 6, 7]]).session =
      .selected 0x0044 [1, 2, 3, 4, 5, 6, 7] := by decide
/-- P3, step 3: block 1 fails. -/
theorem test_readSector_aborts : (HostAgent.afterResults cfg
    (doing ⟨.readSector, .auth .A 0 key, [.read 0 0, .read 0 1, .read 0 2], []⟩)
    [.ok 0x0207 0x00 [], .ok 0x0208 0x00 [0x10, 0x11], .ok 0x0208 0x17 []]).outcome = some (.failed (.read 0x17)) := by decide
/-- S9: sector 5 fails, `dump` goes on with 6. -/
theorem test_dump_goes_on : ((doing ⟨.dump key 5 [6, 7] [], .read 5 0, [], []⟩).afterResult cfg (.ok 0x0208 0x17 [])).proc =
    some ⟨.dump key 6 [7] [], .request, [.auth .A 6 key, .read 6 0, .read 6 1, .read 6 2, .read 6 3], []⟩ := by decide

/-! ### Every instruction completes on a small state (R95, R181, R210 to R230) -/

/-- A machine that is about to be asked, with every handshake answered. -/
def ready : State := { idle with env := Env.ready }

theorem test_operations_complete : (∃ t, exec (.encode 0x0106 [0x0A]) ready = .next t) ∧ (∃ t, exec .decode ready = .next t) ∧
    (∃ t, exec (.xfer 0x0106 [0x0A]) ready = .next t) ∧ (∃ t, exec (.frameOut 0x0106 [0x0A]) ready = .next t) :=
  ⟨⟨_, rfl⟩, ⟨_, rfl⟩, ⟨_, rfl⟩, ⟨_, rfl⟩⟩
/-- A LINE of depth 3 that holds one byte takes two of the four bytes of a frame of length 0. -/
theorem test_finite_line : ∃ t, exec (.frameIn [] []) { ready with
    cfg := { cfg with lineDepth := some 3 }, line := ⟨[0x01], [], [], 0⟩ } = .next t ∧ t.line.rx = [0x01, 0xAA, 0xBB] :=
  ⟨_, rfl, by decide⟩
/-- R201, R221: the payload of INIT_BAL at the last block, and that of WRITE_BLOCK. -/
theorem test_block_payloads : ∃ t u, exec (.cmdInitBal 15 3 0x1234) ready = .next t ∧
    exec (.cmdWriteBlock 0 1 [0x55]) ready = .next u ∧ t.fcc.txp = [(0, 63), (1, 0x34), (2, 0x12)] ∧
    u.fcc.txp = [(0, 1), (1, 0x55)] := ⟨_, _, rfl, rfl, by decide, by decide⟩
/-- P3, step 1: the AUTH2 of `readSector`, whose byte 1 is `00` and not listed. -/
theorem test_readSector_starts : ∃ t, exec (.readSector 0 key [0, 1, 2]) (inSession (.selected 4 [1, 2, 3, 4])) = .next t ∧
    t.fcc.chCmd = 0x0207 ∧ t.fcc.chLen = 8 ∧
    t.fcc.txp = [(0, 0x60), (2, 0xA0), (3, 0xA1), (4, 0xA2), (5, 0xA3), (6, 0xA4), (7, 0xA5)] :=
  ⟨_, rfl, by decide, by decide, by decide⟩

/-! ### Witnesses: every statement's hypotheses are met, clause by clause -/

theorem witness_ResetLeavesFccIdle : idle.fcc = State.reset.fcc ∧ idle.env.current.rst = false ∧
    idle.env.current.present = false := by decide
theorem witness_ResetAbandonsTheXfer :
    (st (sending .csum 5 0xAA) [] { quiet with rst := true }).env.current.rst = true := by decide
theorem witness_XferIsAccepted : ready.hostBusy = false ∧ ready.cfg.wf ∧ ([] : List Byte).length ≤ ready.cfg.payloadMax ∧
    (List.replicate 16 (0xAA : Byte)).length ≤ ready.cfg.payloadMax ∧ Memory.wf [(0, 0x01), (15, 0xAA)] := by decide
theorem witness_EncodeFrameOutDecodeStart : ready.hostBusy = false ∧
    (List.replicate 16 (0xAA : Byte)).length ≤ ready.cfg.payloadMax := by decide
theorem witness_FrameInHdrEscArrive : ([0x13, 0xAA, 0xBB, 0x01, 0x00, 0xAA, 0x00] : List Byte) = [0x13] ++ [0xAA, 0xBB,
      BitVec.ofNat 8 ([0xAA] : List Byte).length, BitVec.ofNat 8 (([0xAA] : List Byte).length / 256)] ++ stuff [0xAA] ∧
    ready.cfg.lineDepth = none ∧ { cfg with lineDepth := some 3 }.lineDepth = some 3 := by decide
theorem witness_RequestsWaitOrAreRefused : (st flushing [] quiet).hostBusy = true ∧
    ({ idle with host := doing ⟨.halt, .halt, [], []⟩ } : State).hostBusy = true ∧ arriving (.xfer 0x0106 []) = false ∧
    requestOf cfg (.xfer 0x0106 (List.replicate 17 0)) = some (.xfer, 0x0106, List.replicate 17 0) ∧
    requestOf cfg (.cmdSetLed (List.replicate 17 0)) = some (.xfer, 0x0107, List.replicate 17 0) ∧
    idle.hostBusy = false ∧ idle.cfg.payloadMax < (List.replicate 17 (0 : Byte)).length ∧
    ({ cfg with payloadMax := 0 } : Config).payloadMax < 1 ∧ ({ cfg with payloadMax := 7 } : Config).payloadMax < key.length + 2 ∧
    (inSession (.authenticated 15)).hostBusy = false ∧ (inSession (.authenticated 15)).host.session.canAuthenticate = true := by decide
/-- The second XFER of `writeBlock`, with 17 payload bytes. -/
theorem witness_RequestsWaitOrAreRefused_later :
    let s : State := { ready with host := doing ⟨.writeBlock, .write 15 3 (List.replicate 16 0), [], []⟩ }
    s.env.current.rst = false ∧ s.env.current.present = true ∧ s.fcc.chPhase = .idle ∧
    s.host.proc = some ⟨.writeBlock, .write 15 3 (List.replicate 16 0), [], []⟩ ∧
    s.cfg.payloadMax < ((Act.write 15 3 (List.replicate 16 0)).xfer s.cfg).2.length := by decide
theorem witness_CommandsAreXfers : ready.hostBusy = false ∧ ready.cfg.wf ∧
    (List.replicate 16 (0 : Byte)).length ≤ ready.cfg.payloadMax ∧ 1 ≤ ready.cfg.payloadMax ∧
    (List.replicate 15 (0 : Byte)).length + 1 ≤ ready.cfg.payloadMax ∧ 3 ≤ ready.cfg.payloadMax ∧
    key.length + 2 ≤ ready.cfg.payloadMax ∧ { cfg with payloadMax := 1 }.wf ∧ { cfg with payloadMax := 3 }.wf ∧
    { cfg with payloadMax := 8 }.wf := by decide
theorem witness_UnguardedProceduresStart : ready.hostBusy = false ∧ 1 ≤ ready.cfg.payloadMax ∧
    1 ≤ { cfg with payloadMax := 1 }.payloadMax := by decide
theorem witness_AuthenticatingProceduresStart : (inSession (.selected 4 [1, 2, 3, 4])).hostBusy = false ∧
    (inSession (.selected 4 [1, 2, 3, 4])).host.session.canAuthenticate = true ∧
    (inSession (.authenticated 15)).host.session.canAuthenticate = true ∧ key.length + 2 ≤ { cfg with payloadMax := 8 }.payloadMax := by
  decide
theorem witness_ReadBlockStarts : (inSession (.authenticated 15)).hostBusy = false ∧
    (inSession (.authenticated 15)).host.session = .authenticated 15 ∧ 1 ≤ (inSession (.authenticated 15)).cfg.payloadMax := by
  decide
theorem witness_WrongSessionIsRefused : idle.hostBusy = false ∧ idle.host.session.canAuthenticate = false ∧
    (inSession (.requested 4)).host.session.canAuthenticate = false ∧
    (inSession (.anticollided [1, 2, 3, 4])).host.session.canAuthenticate = false ∧
    ∀ S, (inSession (.selected 4 [1, 2, 3, 4])).host.session ≠ .authenticated S :=
  ⟨by decide, by decide, by decide, by decide, nofun⟩
theorem witness_InstructionFrame : (∃ t, exec (.xfer 0x0106 [0x0A]) idle = .next t) ∧ (∃ t, exec .esc idle = .next t) ∧
    (∃ t, exec .decode idle = .next t) ∧ (∃ t, exec .halt (st flushing [] quiet) = .next t) ∧
    (∃ t, exec .halt idle = .next t ∧ t.host = (idle.running ⟨.halt, .halt, [], []⟩).host) ∧
    (∃ t, exec .select idle = .next t ∧ t.host = (idle.selecting ⟨.select, .request, [], []⟩).host) ∧
    arriving .esc = true ∧ arriving .decode = false ∧ idle.hostBusy = false ∧ (st flushing [] quiet).hostBusy = true ∧
    requestOf cfg (.xfer 0x0106 [0x0A]) = some (.xfer, 0x0106, [0x0A]) ∧ requestOf cfg .halt = none ∧ flushing.txp.wf ∧
    ([0x0A] : List Byte).length ≤ 1 :=
  ⟨⟨_, rfl⟩, ⟨_, rfl⟩, ⟨_, rfl⟩, ⟨_, rfl⟩, ⟨_, rfl, rfl⟩, ⟨_, rfl, rfl⟩, by decide, by decide, by decide, by decide, by decide,
    by decide, by decide, by decide⟩

theorem witness_HeaderAndLengthBytes : ∀ ph ∈ [TxPhase.hdr0, .hdr1, .len0, .len1],
    (st (sending ph 0 0) [] Input.ready).env.current.rst = false ∧
    (st (sending ph 0 0) [] Input.ready).env.current.txReady = true ∧
    (st (sending ph 0 0) [] Input.ready).fcc.chPhase = .send ∧ (st (sending ph 0 0) [] Input.ready).fcc.txPhase = ph := by
  decide
theorem witness_BodyBytes : ∀ ph ∈ [TxPhase.body, .bstuff],
    (st (sending ph 4 0x07) [] Input.ready).env.current.rst = false ∧
    (st (sending ph 4 0x07) [] Input.ready).env.current.txReady = true ∧
    (st (sending ph 4 0x07) [] Input.ready).fcc.chPhase = .send ∧
    (st (sending ph 4 0x07) [] Input.ready).fcc.txPhase = ph := by decide

/-- The registers before event 10 of EV4 meet the invariant. -/
theorem inv_csum : (sending .csum 5 0xAA).Inv cfg where
  txPhase := by decide
  rxPhase := by decide
  txpForm := by decide
  txpSize := by decide
  rxbForm := by decide
  rxbSize := by decide
  chLen := by decide
  tx := ⟨by decide, by decide⟩
  rx := trivial
  res := nofun
  opSend := by decide
  opFlush := by decide
  opRecv := by decide
/-- CH waiting for the flush of EV4. -/
theorem inv_flush : flushing.Inv cfg where
  txPhase := by decide
  rxPhase := by decide
  txpForm := by decide
  txpSize := by decide
  rxbForm := by decide
  rxbSize := by decide
  chLen := by decide
  tx := trivial
  rx := trivial
  res := nofun
  opSend := by decide
  opFlush := by decide
  opRecv := by decide
/-- What the RX trace has stored when its `AA` is accepted. -/
def traced : Memory := [(0, 0xFF), (1, 0xFF), (2, 0x06), (3, 0x01), (5, 0xAA)]
/-- DEC with an `AA` accepted, in the RX trace. -/
theorem inv_body : (inBody 6 0xAD true traced).Inv cfg where
  txPhase := by decide
  rxPhase := by decide
  txpForm := by decide
  txpSize := by decide
  rxbForm := by decide
  rxbSize := by decide
  chLen := by decide
  tx := trivial
  rx := ⟨by decide, fun _ => ⟨by decide, by decide⟩⟩
  res := nofun
  opSend := by decide
  opFlush := by decide
  opRecv := by decide
/-- The result of X1, read in `C_DONE`. -/
theorem inv_done : (finished .ok).Inv cfg where
  txPhase := by decide
  rxPhase := by decide
  txpForm := by decide
  txpSize := by decide
  rxbForm := by decide
  rxbSize := by decide
  chLen := by decide
  tx := trivial
  rx := trivial
  res := fun _ => ⟨by decide, by decide, by decide, by decide, by decide⟩
  opSend := by decide
  opFlush := by decide
  opRecv := by decide
theorem inv_st {f : Fcc} (h : f.Inv cfg) (rx : List Byte) (x : Input) : (st f rx x).Inv :=
  ⟨show cfg.wf by decide, h, HostAgent.inv_reset, nofun⟩

theorem witness_ChecksumBytes : (st (sending .csum 5 0xAA) [] Input.ready).Inv ∧
    (sending .csum 5 0xAA).txXor = 0xAA ∧ (sending .csum 5 0x0D).txXor ≠ 0xAA ∧ (sending .cstuff 5 0xAA).txPhase = .cstuff ∧
    Input.ready.txReady = true ∧ Input.ready.rst = false := ⟨inv_st inv_csum _ _, by decide, by decide, by decide, by decide, by decide⟩
theorem witness_FlushStartsDec : (st flushing [] quiet).env.current.rst = false ∧ (st flushing [] quiet).fcc.chPhase = .flush ∧
    (st flushing [] quiet).env.current.flushAck = false ∧ (st flushing [] Input.ready).env.current.flushAck = true ∧
    flushing.txFlush = true ∧ (receiving .body).rxReady = true := by decide
theorem witness_HuntAndLengthBytes :
    (st (receiving .hunt) [0xBB, 0x06] Input.ready).env.current.offer = true ∧
    ((st (receiving .hunt) [0xBB, 0x06] Input.ready).lineEvent Input.ready).line.rx = 0xBB :: [0x06] ∧
    { receiving .hunt with rxHa := true }.rxHa = true ∧ (receiving .hunt).chPhase = .recv ∧
    ¬ ((receiving .hunt).rxHa = true ∧ (0xBB : Byte) = 0xBB) ∧ (receiving .len0).rxPhase = .len0 ∧
    (receiving .len1).rxPhase = .len1 ∧ le16 (lo8 { receiving .len1 with rxLen := 0x00FF }.rxLen) 0x00 ≠ 0 ∧
    le16 (lo8 { receiving .len1 with rxLen := 0x00FF }.rxLen) 0xFF = 0xFFFF ∧
    le16 (lo8 { receiving .len1 with rxLen := 0xFF00 }.rxLen) 0x00 = 0 := by decide
theorem witness_BodyByteReceived : (inBody 6 0xAD true []).rxPd = true ∧ (inBody 6 0xAD true []).rxPhase = .body ∧
    (inBody 6 0xAD true []).chPhase = .recv ∧
    ((st (inBody 6 0xAD true []) [0x00, 0x01] Input.ready).lineEvent Input.ready).line.rx = 0x00 :: [0x01] ∧
    (inBody 5 0x07 false []).rxCnt + 1 ≠ (inBody 5 0x07 false []).rxLen ∧
    (inBody 6 0xAD false []).rxCnt + 1 = (inBody 6 0xAD false []).rxLen := by decide
/-- Boundary lengths 5, 6, `RX_BUF_MAX`, `RX_BUF_MAX + 1`. -/
theorem witness_EvaluationOrder :
    ({ finished .ok with rxLen := 5 }.rxLen.toNat < 6 ∨ 64 < { finished .ok with rxLen := 5 }.rxLen.toNat) ∧
    ({ finished .ok with rxLen := 65 }.rxLen.toNat < 6 ∨ 64 < { finished .ok with rxLen := 65 }.rxLen.toNat) ∧
    ¬ ((finished .ok).rxLen.toNat < 6 ∨ 64 < (finished .ok).rxLen.toNat) ∧
    ¬ ({ finished .ok with rxLen := 64 }.rxLen.toNat < 6 ∨ 64 < { finished .ok with rxLen := 64 }.rxLen.toNat) ∧
    ((finished .ok).rxb.read 4 = 0x00 ∧ { finished .ok with rxXor := 1 }.rxXor ≠ 0x00) ∧
    ¬ ((finished .ok).rxb.read 4 = 0x00 ∧ (finished .ok).rxXor ≠ 0x00) ∧ (finished .ok).op = .xfer ∧
    le16 ((finished .ok).rxb.read 2) ((finished .ok).rxb.read 3) = (finished .ok).chCmd ∧
    le16 ((finished .ok).rxb.read 2) ((finished .ok).rxb.read 3) ≠ { finished .ok with chCmd := 0x0107 }.chCmd := by decide
/-- The three errors, each reached by a step; FramingError from a zero length too. -/
theorem witness_ErrorEntry :
    (∃ t, step (st { receiving .len1 with rxLen := 0xFF00 } [0x00] Input.ready) = .next t ∧
      t.fcc.chPhase = .done ∧ t.fcc.resKind = .framing) ∧
    (∃ t, step (st { inBody 1 0xFF false [(0, 0xFF)] with rxLen := 2 } [0xFF] Input.ready) = .next t ∧
      t.fcc.chPhase = .done ∧ t.fcc.resKind = .framing) ∧
    (∃ t, step (st { inBody 5 0x07 false [(2, 0x06), (3, 0x01)] with rxLen := 6 } [0x06] Input.ready) = .next t ∧
      t.fcc.chPhase = .done ∧ t.fcc.resKind = .checksum) ∧
    ∃ t, step (st { inBody 5 0x06 false [(2, 0x07), (3, 0x01)] with rxLen := 6 } [0x06] Input.ready) = .next t ∧
      t.fcc.chPhase = .done ∧ t.fcc.resKind = .mismatch :=
  ⟨⟨_, rfl, by decide⟩, ⟨_, rfl, by decide⟩, ⟨_, rfl, by decide⟩, ⟨_, rfl, by decide⟩⟩
theorem witness_TakingTheResult : (st (finished .ok) [] quiet).env.current.take = false ∧
    (st (finished .ok) [] Input.ready).env.current.take = true ∧ (st (finished .ok) [] quiet).host.proc = none ∧
    ∀ k ∈ [ResKind.ok, .framing, .checksum, .mismatch], (finished k).chPhase = .done ∧ (finished k).resKind = k := by decide
theorem witness_BlockedAgentsStay : (st (sending .csum 5 0xAA) [] Input.ready).Inv ∧ (st flushing [] quiet).Inv ∧
    (st (inBody 6 0xAD true traced) [] quiet).Inv ∧
    quiet.txReady = false ∧ quiet.flushAck = false ∧ quiet.offer = false ∧ quiet.rst = false ∧
    idle.cfg.lineDepth = none ∧ ({ cfg with lineDepth := some 0 } : Config).lineDepth = some 0 ∧
    idle.env.script = quiet :: [] ∧ Env.ready.script = [] :=
  ⟨inv_st inv_csum _ _, inv_st inv_flush _ _, inv_st inv_body _ _, rfl, rfl, rfl, rfl, rfl, rfl, rfl, rfl⟩
/-- R53, R56, log 11: two of three held bytes leave, and a LINE of depth 3 that holds two bytes takes one of two. -/
theorem test_lineEvent :
    let s : State := { idle with cfg := { cfg with lineDepth := some 3 }, line := ⟨[0x01, 0x02], [0x0A, 0x0B, 0x0C], [0x09], 7⟩ }
    (s.lineEvent { quiet with leave := 2, arrive := [0x03, 0x04] }).line =
      ⟨[0x01, 0x02, 0x03], [0x0C], [0x09, 0x0A, 0x0B], 7⟩ := by decide
theorem witness_OutputSignals : (finished .mismatch).resKind = .mismatch ∧ (finished .ok).rspValid = true ∧
    0 < { finished .ok with resDlen := 1 }.resDlen.toNat ∧ Fcc.reset.reqReady = true ∧ (sending .hdr0 0 0).txValid = true := by
  decide

theorem witness_EncodeSendsTheFrame : ready.hostBusy = false ∧ ready.env = Env.ready ∧ ready.cfg.wf ∧ ready.fcc.txp.wf ∧
    (List.replicate 16 (0xAA : Byte)).length ≤ ready.cfg.payloadMax := by decide
/-- DV11 and DV21. -/
theorem witness_DecodeReadsTheStream : ready.hostBusy = false ∧ ready.env = Env.ready ∧ ready.fcc.rxb.wf ∧
    decodeStream ready.cfg.rxBufMax [0xAA, 0xBB, 0x07, 0x00, 0xFF, 0xFF, 0x06, 0x01, 0x00, 0xAD, 0xAA, 0x00] =
      some (.ok 0x0106 0x00 [0xAD], [0x00]) ∧
    decodeStream ready.cfg.rxBufMax [0xAA, 0xBB, 0x06, 0x00, 0xFF, 0xFF, 0x06, 0x01, 0x00] = none := by decide
/-- X8 and X9. -/
theorem witness_XferIsEncodeFlushDecode : ready.hostBusy = false ∧ ready.env = Env.ready ∧ ready.cfg.wf ∧
    ready.fcc.txp.wf ∧ ready.fcc.rxb.wf ∧ ([0xAD] : List Byte).length ≤ ready.cfg.payloadMax ∧
    decodeStream ready.cfg.rxBufMax [0xAA, 0xBB, 0x07, 0x00, 0xFF, 0xFF, 0x06, 0x01, 0x00, 0xAD, 0xAA, 0x00] =
      some (.ok 0x0106 0x00 [0xAD], [0x00]) ∧ decodeStream ready.cfg.rxBufMax [] = none := by decide
theorem witness_FrameInIsDecoded : noiseOk [0x13, 0xAA] = true ∧ ([0xFF, 0xFF, 0x06, 0x01, 0x00, 0xAD, 0xAA] : List Byte).length ≤ 65535 ∧
    ({ ready with fcc := receiving .hunt } : State).env = Env.ready ∧ ready.cfg.lineDepth = none ∧
    (receiving .hunt).rxb.wf ∧ (receiving .hunt).chPhase = .recv ∧ (receiving .hunt).rxPhase = .hunt ∧
    (receiving .hunt).rxHa = false ∧ ({ ready with fcc := receiving .hunt } : State).line.rx = [] := by decide
theorem witness_HdrAndEscAreTaken : ready.env = Env.ready ∧ ready.cfg.lineDepth = none ∧ ready.line.rx = [] ∧
    (receiving .hunt).chPhase = .recv ∧ (receiving .hunt).rxPhase = .hunt ∧ (inBody 5 0x07 false []).rxPhase = .body ∧
    (inBody 5 0x07 false []).rxPd = false ∧ (inBody 5 0x07 false []).rxCnt + 1 ≠ (inBody 5 0x07 false []).rxLen := by decide
/-- DV6, the last byte late: four events that take, one in between that does not. -/
theorem witness_DecodeIsScheduleIndependent :
    let late : Input := { quiet with arrive := [0x00] }
    let s : State := { st (receiving .hunt) [0xAA, 0xBB, 0x00] Input.ready with
      env := ⟨[{ Input.ready with take := false }, { Input.ready with take := false }, { Input.ready with take := false }, late,
        { Input.ready with take := false }], Input.ready⟩ }
    s.cfg.lineDepth = none ∧ s.fcc.rxb.wf ∧ s.fcc.chPhase = .recv ∧ s.fcc.rxPhase = .hunt ∧ s.fcc.rxHa = false ∧
    (∀ x ∈ s.env.script, x.rst = false ∧ x.take = false) ∧ ∃ t, run 5 s = .next t ∧ t.fcc.chPhase = .done :=
  ⟨rfl, by decide, rfl, rfl, rfl, by decide, _, rfl, by decide⟩

theorem witness_Le16Assembly : (0x00AA : Word) = BitVec.ofNat 16 (5 + (List.replicate 165 (0 : Byte)).length) := by
  rw [List.length_replicate]; decide
theorem witness_XorFold : ([0xFF, 0x06] : List Byte).Perm [0x06, 0xFF] := by decide
/-- DV14 to DV17 in the body, and the events of the RX trace. -/
theorem witness_StuffingRemovalCorners : (0xBB : Byte) ≠ 0x00 ∧ (0xAA : Byte) ≠ 0x00 ∧ (0x01 : Byte) ≠ 0x00 ∧
    (inBody 5 0x07 true []).rxPhase = .body ∧ (inBody 5 0x07 true []).rxCnt + 1 ≠ (inBody 5 0x07 true []).rxLen ∧
    (inBody 5 0x07 true []).rxPd = true ∧ (inBody 5 0x07 false []).rxPd = false := by decide
/-- EV13; EV16, where the pair stands at index 2 too. -/
theorem witness_FrameLengthAndHeaderPair : (wire 0x0106 [0xAA, 0xBB])[0]? = some 0xAA ∧
    (wire 0x0106 [0xAA, 0xBB])[1]? = some 0xBB ∧ (wire 0x0106 [0xAA, 0xBB])[8]? = some 0xAA ∧
    (wire 0x0106 (List.replicate 48037 0))[2]? = some 0xAA ∧ (wire 0x0106 (List.replicate 48037 0))[3]? = some 0xBB := by
  refine ⟨by decide, by decide, by decide, ?_, ?_⟩ <;>
  · simp only [wire, lengthField, List.length_replicate]
    rfl
theorem witness_RoundTrip : 6 ≤ 6 ∧ ([0x00] : List Byte).length ≤ 6 - 5 ∧ ([0x00] : List Byte).length ≤ 65530 ∧
    ([0x55] : List Byte) = (if checksum 0x0106 [0x00] = 0xAA then 0x00 :: [0x55] else [0x55]) ∧
    ([0x00, 0x55] : List Byte) = (if checksum 0x0106 [0x00, 0xAD] = 0xAA then 0x00 :: [0x55] else [0x55]) := by decide
/-- DV4 and DV19. -/
theorem witness_HeaderResync : (∀ i : Nat, ¬ (([0x00, 0xAA] : List Byte)[i]? = some 0xAA ∧
      ([0x00, 0xAA] : List Byte)[i + 1]? = some 0xBB)) ∧
    ([0xAA, 0xBB, 0x06, 0x00] : List Byte)[0]? = some 0xAA ∧ ([0xAA, 0xBB, 0x06, 0x00] : List Byte)[1]? = some 0xBB := by
  refine ⟨fun i => ?_, by decide, by decide⟩
  match i with
  | 0 => decide
  | 1 => decide
  | _ + 2 => simp
/-- Flips 8 and 9 of the table, and the first byte. -/
theorem witness_ChecksumSensitivity : ([0x00, 0x10] : List Byte).length ≤ 65530 ∧ ([0x00, 0x10] : List Byte).length + 5 ≤ 7 ∧
    ([0x00, 0x10] : List Byte).head? = some 0x00 ∧
    [0xFF, 0xFF, lo8 0x0106, hi8 0x0106] ++ [0x00, 0x10] ++ [checksum 0x0106 [0x00, 0x10]] =
      [0xFF, 0xFF, 0x06, 0x01, 0x00] ++ 0x10 :: [0x17] ∧
    [0xFF, 0xFF, lo8 0x0106, hi8 0x0106] ++ [0x00, 0x10] ++ [checksum 0x0106 [0x00, 0x10]] =
      [0xFF, 0xFF, 0x06, 0x01] ++ 0x00 :: [0x10, 0x17] ∧
    [0xFF, 0xFF, lo8 0x0106, hi8 0x0106] ++ [0x00, 0x10] ++ [checksum 0x0106 [0x00, 0x10]] =
      [] ++ 0xFF :: [0xFF, 0x06, 0x01, 0x00, 0x10, 0x17] ∧
    (0x10 : Byte) ≠ 0xAA ∧ (0x11 : Byte) ≠ 0xAA ∧ (0x10 : Byte) ≠ 0x11 ∧
    ([0xFF, 0xFF, 0x06, 0x01, 0x00] : List Byte).length ≠ 4 ∧ ([0xFF, 0xFF, 0x06, 0x01] : List Byte).length = 4 := by decide

theorem witness_ProcedurePayloads : (0x0044 : Word) = cfg.cardTypes.ultralight ∧ (0x0004 : Word) ≠ cfg.cardTypes.ultralight := by decide
theorem witness_ProcedurePresentsItsNextXfer :
    let s : State := { ready with host := doing ⟨.readBlock, .read 15 3, [], []⟩ }
    s.env.current.rst = false ∧ s.env.current.present = true ∧ s.fcc.chPhase = .idle ∧
    s.host.proc = some ⟨.readBlock, .read 15 3, [], []⟩ ∧
    ((Act.read 15 3).xfer s.cfg).2.length ≤ s.cfg.payloadMax := by decide
theorem witness_SelectRun : (doing ⟨.select, .request, [], []⟩).proc =
      some { goal := .select, act := .request, rest := [], data := [] } ∧
    (doing ⟨.findKeys none none, .request, [.probe .A 0 [1]], []⟩).proc =
      some { goal := .findKeys none none, act := .request, rest := .probe .A 0 [1] :: [], data := [] } ∧
    cardTypeOf cfg [0x44, 0x00] = cfg.cardTypes.ultralight ∧ cardTypeOf cfg [0x04, 0x00] ≠ cfg.cardTypes.ultralight := by decide
theorem witness_HaltReports : (doing ⟨.halt, .halt, [], []⟩).proc =
    some { goal := .halt, act := .halt, rest := [], data := [] } := by decide
theorem witness_AuthenticatedRuns :
    (doing ⟨.authenticate 15, .auth .B 15 key, [], []⟩).proc = some ⟨.authenticate 15, .auth .B 15 key, [], []⟩ ∧
    (doing ⟨.readBlock, .read 0 3, [], []⟩).proc = some ⟨.readBlock, .read 0 3, [], []⟩ ∧
    (doing ⟨.writeBlock, .auth .A 0 key, [.write 0 1 [0x55]], []⟩).proc =
      some ⟨.writeBlock, .auth .A 0 key, [.write 0 1 [0x55]], []⟩ ∧
    ∀ x ∈ [(BalanceOp.init, Act.initBal 0 1 5), (.read, .readBal 0 1), (.increase, .incBal 0 1 5), (.decrease, .decBal 0 1 5)],
      (doing ⟨.balance x.1, .auth .A 0 key, [x.2], []⟩).proc = some ⟨.balance x.1, .auth .A 0 key, [x.2], []⟩ := by decide
/-- S8: blocks 0, 1, 2; all three read, and block 1 failing. -/
theorem witness_ReadSectorRun : (doing ⟨.readSector, .auth .A 0 key, [.read 0 0, .read 0 1, .read 0 2], []⟩).proc =
      some ⟨.readSector, .auth .A 0 key, [0, 1, 2].map (fun b => .read 0 b), []⟩ ∧
    ([[0x10], [0x11], [0x12]] : List (List Byte)).length = [0, 1, 2].length ∧
    ([[0x10]] : List (List Byte)).length < [0, 1, 2].length ∧ (0x17 : Byte) ≠ 0x00 := by decide
theorem witness_NonzeroStatusIsSurfaced : ∀ a ∈ [Act.request, .anticoll 4, .auth .A 0 key, .read 0 0, .write 0 0 [], .initBal 0 0 1,
      .readBal 0 0, .incBal 0 0 1, .decBal 0 0 1], (doing ⟨.select, a, [], []⟩).proc = some ⟨.select, a, [], []⟩ ∧
    (0x17 : Byte) ≠ 0x00 ∧ ∀ k n l g, (⟨.select, a, [], []⟩ : Proc).goal ≠ .dump k n l g := by
  intro a _
  exact ⟨rfl, by decide, nofun⟩
theorem witness_FccErrorsPropagate : (doing ⟨.readBlock, .read 0 0, [], []⟩).proc = some ⟨.readBlock, .read 0 0, [], []⟩ ∧
    (∀ k n l g, Goal.readBlock ≠ .dump k n l g) ∧ (∀ k n l g, Goal.findKeys none none ≠ .dump k n l g) ∧
    (∀ sl n k, Act.read 0 0 ≠ .probe sl n k) ∧ cfg.findKeysGoesOn = true ∧
    ({ cfg with findKeysGoesOn := false } : Config).findKeysGoesOn = false ∧
    (doing ⟨.findKeys none none, .probe .A 0 [1], [.probe .B 0 [1]], []⟩).proc =
      some ⟨.findKeys none none, .probe .A 0 [1], [.probe .B 0 [1]], []⟩ :=
  ⟨rfl, nofun, nofun, nofun, rfl, rfl, rfl⟩
/-- R230: what was reported stays reported where an error of FCC ends `findKeys`. -/
theorem test_reports_stay : (HostAgent.afterResults { cfg with findKeysGoesOn := false }
      (doing ⟨.findKeys none none, .probe .A 0 [1], [.probe .A 0 [2]], []⟩) [.ok 0x0207 0x17 [], .framing]).reports =
    [(.A, [1])] := by decide
/-- S9, sector 5: a block that fails, a block read with more to read; the last block of a sector with sectors to come,
and of the last one; a failing re-select, third step and authentication. -/
theorem witness_DumpNeverFails : (∀ act ∈ [Act.request, .anticoll 4, .third 4 [1, 2, 3, 4], .auth .A 5 key, .read 5 0],
      (doing ⟨.dump key 5 [6, 7] [], act, [.read 5 1], [0x10]⟩).proc = some ⟨.dump key 5 [6, 7] [], act, [.read 5 1], [0x10]⟩ ∧
      ∀ sl n k, act ≠ .probe sl n k) ∧
    (doing ⟨.dump key 5 [6, 7] [], .read 5 3, [], [0x10]⟩).proc = some ⟨.dump key 5 [6, 7] [], .read 5 3, [], [0x10]⟩ ∧
    (doing ⟨.dump key 15 [] [(0, [])], .read 15 3, [], []⟩).proc = some ⟨.dump key 15 [] [(0, [])], .read 15 3, [], []⟩ ∧
    (doing ⟨.dump key 15 [] [], .read 15 3, [], []⟩).outcome = none ∧ cfg.thirdStepRaises = true ∧ (0x17 : Byte) ≠ 0x00 := by
  refine ⟨fun act ha => ⟨rfl, ?_⟩, rfl, rfl, rfl, rfl, by decide⟩
  rintro sl n k rfl
  simp at ha
/-- Sector 5 with sectors to come, and the last sector. -/
theorem witness_DumpSectorRun :
    (∀ x ∈ [(5, [6, 7]), (15, [])], (doing ⟨.dump key x.1 x.2 [], .request,
        .auth .A x.1 key :: cfg.dumpBlocks.map (fun b => .read x.1 b), []⟩).proc =
      some ⟨.dump key x.1 x.2 [], .request, .auth .A x.1 key :: cfg.dumpBlocks.map (fun b => .read x.1 b), []⟩) ∧
    ([(0x0208, [0x10]), (0x0208, [0x11]), (0x0208, [0x12]), (0x0208, [])] : List (Word × List Byte)).length =
      cfg.dumpBlocks.length := by decide
/-- Three candidates: the second valid as Key A, none or the last as Key B, and none valid at all. -/
theorem witness_FindKeysRun :
    TriesOf [[1], [2], [3]] [⟨[1], 0x0207, 0x17, [0x55]⟩] (some ⟨[2], 0x0207, 0x00, []⟩) ∧
    TriesOf [[1], [2], [3]] [⟨[1], 0x0207, 0x01, []⟩, ⟨[2], 0x0207, 0xFF, []⟩] (some ⟨[3], 0x0207, 0x00, [0x01]⟩) ∧
    TriesOf [[1], [2], [3]] [⟨[1], 0x0207, 0x01, []⟩, ⟨[2], 0x0207, 0x02, []⟩, ⟨[3], 0x0207, 0x03, []⟩] none ∧
    Act.probe .A 0 [1] :: [Act.probe .A 0 [2], .probe .A 0 [3], .probe .B 0 [1], .probe .B 0 [2], .probe .B 0 [3]] =
      [[1], [2], [3]].map (fun k => Act.probe .A 0 k) ++ [[1], [2], [3]].map (fun k => Act.probe .B 0 k) ∧
    (doing ⟨.findKeys none none, .probe .A 0 [1], [.probe .A 0 [2], .probe .A 0 [3], .probe .B 0 [1], .probe .B 0 [2],
      .probe .B 0 [3]], []⟩).proc = some ⟨.findKeys none none, .probe .A 0 [1], [.probe .A 0 [2], .probe .A 0 [3],
      .probe .B 0 [1], .probe .B 0 [2], .probe .B 0 [3]], []⟩ ∧
    (doing ⟨.findKeys none none, .request, [], []⟩).proc =
      some { goal := .findKeys none none, act := .request, rest := [], data := [] } := by
  refine ⟨⟨by decide, ?_, ?_, nofun⟩, ⟨by decide, ?_, ?_, nofun⟩, ⟨by decide, nofun, ?_, fun _ => rfl⟩, by decide, rfl, rfl⟩
  · rintro t ⟨⟩; rfl
  · decide
  · rintro t ⟨⟩; rfl
  · decide
  · decide
/-- S7 in small: a candidate behind the one found is not tried as Key A. -/
theorem test_findKeys_stops : (HostAgent.afterResults cfg
    (doing ⟨.findKeys none none, .probe .A 0 [1], [.probe .A 0 [2], .probe .B 0 [1], .probe .B 0 [2]], []⟩)
    [.ok 0x0207 0x00 []]).proc = some ⟨.findKeys (some [1]) none, .probe .B 0 [1], [.probe .B 0 [2]], []⟩ := by decide
/-- R200: a card of the Ultralight type, and one that is not. -/
theorem test_card_variant : (Card.mk 0x0044 [1, 2, 3, 4, 5, 6, 7]).is cfg .ultralight = true ∧
    (Card.mk 0x0004 [1, 2, 3, 4]).is cfg .ultralight = false ∧ (Card.mk 0x0004 [1, 2, 3, 4]).is cfg .oneK = true := by decide
/-- R187: the response port after X1. -/
theorem test_response_port : (finished .ok).rspValid = true ∧ (finished .ok).rspKind = 0 ∧ (finished .ok).rspCmd = 0x0106 ∧
    (finished .ok).rspStatus = 0x00 ∧ (finished .ok).rspLen = 0 ∧ (finished .ok).rspData = [] := by decide

theorem witness_DecodeOfEncode : cfg.wf ∧ (Instr.cmdAuth2 .B 15 key).wf = true ∧
    encode cfg (.cmdAuth2 .B 15 key) = some (.req, [0x07, 0x02, 0x61, 0x3C, 0xA0, 0xA1, 0xA2, 0xA3, 0xA4, 0xA5]) ∧
    encode cfg (.xfer 0x1234 []) = some (.req, [0x34, 0x12]) ∧ (Instr.xfer 0x1234 []).wf = true ∧
    (∀ d ∈ DeviceCmd.all, cfg.code d ≠ 0x1234) ∧ encode cfg (.xfer 0x0207 []) = some (.req, [0x07, 0x02]) := by decide
/-- Words and instructions in range, a call out of range, RX bytes that are no frame, and words no agent can present. -/
theorem witness_StepRunsTheInstruction :
    (∀ item ∈ [Item.words .req [0x06, 0x01, 0x0A], .op (.cmdReadBlock 16 0), .words .rx [0x13], .words .tx [0x13],
        .words .req [0x06]],
      let s : State := { ready with host := { HostAgent.reset with agenda := item :: [.op .halt] } }
      s.env.current.rst = false ∧ s.env.current.present = true ∧ s.fcc.chPhase = .idle ∧ s.host.proc = none ∧
        s.cfg.lineDepth = none) ∧
    ({ cfg with lineDepth := some 0 } : Config).lineDepth = some 0 ∧
    decode ready.cfg .req [0x06, 0x01, 0x0A] = .ok (.cmdBeep 0x0A) ∧ inRange (.cmdBeep 0x0A) = true ∧
    (Instr.cmdBeep 0x0A).wf = true ∧ inRange (.cmdReadBlock 16 0) = false ∧ inRange (.cmdReadBlock 15 3) = true ∧
    inRange (.readBlock 4) = false ∧ inRange (.writeBlock .A 15 key 3 []) = true ∧ inRange (.dump [1, 2, 3, 4, 5]) = false ∧
    inRange (.readSector 15 key [0, 4]) = false ∧ inRange (.findKeys 16 []) = false ∧ inRange (.findKeys 15 [key]) = true ∧
    decode ready.cfg .rx [0x13] = .error .noHeader ∧ decode ready.cfg .tx [0x13] = .error .truncated ∧
    decode ready.cfg .req [0x06] = .error .truncated ∧
    decode ready.cfg (tablePlace 16 0x00AA).1 (tablePlace 16 0x00AA).2 = .ok .esc := by decide
theorem witness_BufferLaws : Memory.wf [] ∧ Memory.wf [(0, 0xAA), (15, 0x01)] ∧ ¬ Memory.wf [(0, 0x00)] := by decide
theorem witness_StepKeepsInv : (st (sending .csum 5 0xAA) [] Input.ready).Inv ∧
    (∃ t, step (st (sending .csum 5 0xAA) [] Input.ready) = .next t ∧ t.fcc = sending .cstuff 5 0xAA) ∧
    (∃ t, step (st (inBody 6 0xAD true traced) [] quiet) = .next t) ∧
    ∃ t, step (st (finished .ok) [] Input.ready) = .next t :=
  ⟨inv_st inv_csum _ _, ⟨_, rfl, by decide⟩, ⟨_, rfl⟩, ⟨_, rfl⟩⟩
theorem witness_NoFaultUnderInv : (st (finished .ok) [] Input.ready).Inv ∧
    step (st { Fcc.reset with chPhase := .recv } [] Input.ready) = .fault .decNotRunning := ⟨inv_st inv_done _ _, rfl⟩
/-- One event in each phase of CH. -/
theorem witness_EventOrder : (∃ t, step (st Fcc.reset [] Input.ready) = .next t) ∧
    (∃ t, step (st (sending .hdr0 0 0) [] Input.ready) = .next t) ∧ (∃ t, step (st flushing [] Input.ready) = .next t) ∧
    (∃ t, step (st (receiving .hunt) [0x13] Input.ready) = .next t) ∧ (∃ t, step (st (finished .ok) [] Input.ready) = .next t) :=
  ⟨⟨_, rfl⟩, ⟨_, rfl⟩, ⟨_, rfl⟩, ⟨_, rfl⟩, ⟨_, rfl⟩⟩
/-- Two machines in `C_FLUSH`, one with an agenda. -/
theorem witness_HostCannotReachAnOperationInFlight :
    let s : State := st flushing [] Input.ready
    let s' : State := { s with host := { HostAgent.reset with agenda := [.op .halt] } }
    (s'.fcc = s.fcc ∧ s'.line = s.line ∧ s'.env = s.env ∧ s'.cfg = s.cfg) ∧
    (∀ k ≤ 1, ∃ v, run k s = .next v ∧ v.fcc.busy = true) ∧ (∃ t, run 1 s = .next t) ∧ ∃ t, run 1 s' = .next t := by
  refine ⟨⟨rfl, rfl, rfl, rfl⟩, fun k hk => ?_, ⟨_, rfl⟩, ⟨_, rfl⟩⟩
  match k, hk with
  | 0, _ => exact ⟨_, rfl, rfl⟩
  | 1, _ => exact ⟨_, rfl, rfl⟩
  | k + 2, hk => omega

end Sys2Proof.Tests
end

section
/-! SUPPORT. The encoding of frames: the XOR-fold whatever the order, the bytes of the length field, the wire image of a
request as one stuffed sequence; and the statements of 30_encoding.md about them. -/

namespace Sys2Proof.Machine

/-- The fold depends only on which bytes are folded, since exclusive or commutes (R90). -/
theorem xor8_eq_of_perm {s t : List Byte} (h : s.Perm t) : xor8 s = xor8 t :=
  h.foldl_eq (f := fun acc b => acc ^^^ b) 0x00

/-- The low byte of a number taken as a field (R12). -/
theorem lo8_ofNat (n : Nat) : lo8 (BitVec.ofNat 16 n) = BitVec.ofNat 8 n := by
  apply BitVec.eq_of_toNat_eq
  rw [lo8_toNat, BitVec.toNat_ofNat, BitVec.toNat_ofNat]
  omega

/-- The high byte of a number taken as a field (R12). -/
theorem hi8_ofNat (n : Nat) : hi8 (BitVec.ofNat 16 n) = BitVec.ofNat 8 (n / 256) := by
  apply BitVec.eq_of_toNat_eq
  rw [hi8_toNat, BitVec.toNat_ofNat, BitVec.toNat_ofNat]
  omega

/-- The checksum may be folded over the logical body, without its stuffing (R91). -/
theorem checksum_eq_xor8_body (command : Word) (payload : List Byte) :
    checksum command payload = xor8 (body command payload) := xor8_stuff _

/-- Body and checksum are stuffed as one sequence, behind the four bytes that go as they are (R81). -/
theorem wire_eq_stuff_body_checksum (command : Word) (payload : List Byte) :
    wire command payload =
      [hdr0, hdr1, lo8 (lengthField payload), hi8 (lengthField payload)] ++
        stuff (body command payload ++ [xor8 (body command payload)]) := by
  rw [wire, checksum_eq_xor8_body, stuff_append, List.append_assoc]

/-- Settles O34: the fold of a sequence by its last byte, and `xor8_eq_of_perm`. -/
theorem xorFold : Obligations.XorFold := ⟨xor8_nil, xor8_snoc, fun _ _ => xor8_eq_of_perm⟩

/-- Settles O36: the stuffing of body and checksum is that of both together, and the checksum ignores stuffing. -/
theorem outboundFrame : Obligations.OutboundFrame := by
  intro command payload
  rw [wire_eq_stuff_body_checksum, lengthField, lo8_ofNat, hi8_ofNat, body]

/-- Settles O30: the value of an assembled field, and the two bytes of a field in the order in which `wire` sends them. -/
theorem le16Assembly : Obligations.Le16Assembly := by
  refine ⟨le16_toNat, fun v => ⟨rfl, rfl, le16_lo8_hi8 v⟩, ?_⟩
  rintro command _ payload rfl
  rfl

end Sys2Proof.Machine
end

section
/-! SUPPORT. The codec as functions: DECODE on a frame of ENCODE, also with a byte changed (R161, R164), noise in front of
it (R162), where `AA` and `AA BB` stand in a frame (R94); and the statements of 30_encoding.md and 41_decode.md about
them. -/

namespace Sys2Proof.Machine

/-! ### The evaluation of logical bytes -/

/-- Fewer than six logical bytes are a FramingError (R157). -/
theorem evaluate_short {m : Nat} {buf : List Byte} (h : buf.length < 6) : evaluate m buf = .framing :=
  if_pos (.inl h)

/-- Logical bytes in range with status 00 and a nonzero fold are a ChecksumError with the frame's command (R159). -/
theorem evaluate_bad_checksum {m : Nat} {buf : List Byte} (h6 : 6 ≤ buf.length) (hm : buf.length ≤ m)
    (hs : buf.getD 4 0 = statusOk) (hx : xor8 buf ≠ 0) :
    evaluate m buf = .checksum (le16 (buf.getD 2 0) (buf.getD 3 0)) := by
  have hne : buf ≠ [] := by rintro rfl; simp at h6
  rw [evaluate, if_neg (by omega), if_pos ⟨hs, mt (xor8_eq_zero_iff buf hne).2 hx⟩]

/-- A frame in range whose status is not 00, or whose fold is 0, is OK with its command, status and data (R160). -/
theorem evaluate_ok {m : Nat} (r0 r1 c0 c1 status x : Byte) (data : List Byte) (hm : data.length + 6 ≤ m)
    (h : status = statusOk → xor8 (r0 :: r1 :: c0 :: c1 :: status :: data ++ [x]) = 0) :
    evaluate m (r0 :: r1 :: c0 :: c1 :: status :: data ++ [x]) = .ok (le16 c0 c1) status data := by
  have hlen : (r0 :: r1 :: c0 :: c1 :: status :: data ++ [x]).length = data.length + 6 := by simp
  have hsum : ¬ ((r0 :: r1 :: c0 :: c1 :: status :: data ++ [x]).getD 4 0 = statusOk ∧
      xor8 ((r0 :: r1 :: c0 :: c1 :: status :: data ++ [x]).take ((r0 :: r1 :: c0 :: c1 :: status :: data ++ [x]).length - 1)) ≠
        (r0 :: r1 :: c0 :: c1 :: status :: data ++ [x]).getD
          ((r0 :: r1 :: c0 :: c1 :: status :: data ++ [x]).length - 1) 0) :=
    fun ⟨hs, hx⟩ => hx ((xor8_eq_zero_iff _ (by simp)).1 (h hs))
  rw [evaluate, if_neg (by omega), if_neg hsum, hlen]
  simp

/-! ### A frame on the RX stream -/

/-- DECODE on four header bytes for `n` logical bytes and any `n` logical bytes behind them. -/
theorem decodeStream_frame (m : Nat) {command : Word} {payload logical : List Byte} (rest : List Byte)
    (hn : logical.length = 5 + payload.length) (hl : payload.length ≤ 65530) :
    decodeStream m ((wire command payload).take 4 ++ stuff logical ++ rest) =
      some (evaluate m logical, partner logical ++ rest) := by
  have e : (wire command payload).take 4 ++ stuff logical = inWire [] logical := by
    simp [wire, inWire, lengthField, hn]
  rw [e, decodeStream_inWire m [] logical rest rfl (by omega)]

/-- The logical bytes behind the length field of a request. -/
theorem length_body (command : Word) (payload : List Byte) : (body command payload).length = 4 + payload.length := by
  simp [body]; omega

/-- Body and checksum together fold to 0 (R91). -/
theorem xor8_body_checksum (command : Word) (payload : List Byte) :
    xor8 (body command payload ++ [checksum command payload]) = 0 := by
  rw [xor8_snoc, checksum_eq_xor8_body, BitVec.xor_self]
  rfl

/-- Settles O38: the stream begins with an inbound frame whose logical bytes are body and checksum, and these fold to 0. -/
theorem roundTrip : Obligations.RoundTrip := by
  rintro m command payload rest left h6 hl hm rfl
  have hstream := decodeStream_inWire m [] (body command payload ++ [checksum command payload]) rest rfl
    (by rw [List.length_append, length_body, List.length_singleton]; omega)
  have hleft : partner (body command payload ++ [checksum command payload]) ++ rest =
      if checksum command payload = 0xAA then 0x00 :: rest else rest := by
    simp only [partner, List.getLast?_append, List.getLast?_singleton, Option.some_or, Option.some.injEq]
    split <;> rfl
  rw [← wire_eq_inWire, hleft] at hstream
  refine ⟨fun status data hp => ?_, fun hp => ?_⟩
  · subst hp
    rw [List.length_cons] at hm
    have hok := evaluate_ok 0xFF 0xFF (lo8 command) (hi8 command) status (checksum command (status :: data)) data
      (m := m) (by omega) fun _ => xor8_body_checksum command (status :: data)
    rw [le16_lo8_hi8] at hok
    rw [hstream]
    exact congrArg (fun r => some (r, _)) hok
  · subst hp
    rw [hstream, evaluate_short (by simp [body])]

/-! ### A logical byte changed -/

/-- A byte changed changes the fold by the difference. -/
theorem xor8_change (pre post : List Byte) (u v : Byte) :
    xor8 (pre ++ v :: post) = xor8 (pre ++ u :: post) ^^^ (u ^^^ v) := by
  have hv : u ^^^ (u ^^^ v) = v := by rw [← BitVec.xor_assoc, BitVec.xor_self, BitVec.zero_xor]
  simp only [xor8_append, xor8_cons]
  conv_lhs => rw [← hv]
  ac_rfl

/-- Every other byte stays. -/
theorem getD_change {i : Nat} {pre : List Byte} (h : i ≠ pre.length) (post : List Byte) (u v : Byte) :
    (pre ++ v :: post).getD i 0 = (pre ++ u :: post).getD i 0 := by
  have hset : pre ++ v :: post = (pre ++ u :: post).set pre.length v := by simp
  rw [hset, List.getD_eq_getElem?_getD, List.getElem?_set_ne h.symm, List.getD_eq_getElem?_getD]

/-- Settles O40: the fold of the changed bytes is the difference, so with status 00 it is nonzero; a changed status is
nonzero, and the fold is not looked at. -/
theorem checksumSensitivity : Obligations.ChecksumSensitivity := by
  intro m command payload pre post rest u v hl hm h0 hsplit hu hv huv
  obtain ⟨data, rfl⟩ : ∃ data, payload = 0x00 :: data := by
    cases payload with
    | nil => cases h0
    | cons b t => exact ⟨t, by simpa using h0⟩
  simp only [List.length_cons] at hl hm
  have hn : (pre ++ v :: post).length = 5 + (0x00 :: data).length := by
    have := congrArg List.length hsplit
    simp only [List.length_append, List.length_cons, List.length_nil] at this ⊢
    omega
  have hstream := decodeStream_frame m (command := command) rest hn (by simpa using hl)
  rw [stuff_append, stuff_cons, if_neg hv, ← List.append_assoc, List.singleton_append] at hstream
  rw [hstream]
  rw [List.length_cons] at hn
  refine ⟨fun hpre => ⟨_, congrArg (fun r => some (r, _)) ?_⟩, fun hpre => ⟨_, congrArg (fun r => some (r, _)) ?_⟩⟩
  · have hstatus : (pre ++ v :: post).getD 4 0 = 0x00 := by
      rw [getD_change (Ne.symm hpre) post u v, ← hsplit]
      rfl
    have hfold : xor8 (pre ++ v :: post) ≠ 0 := by
      rw [xor8_change pre post u v, ← hsplit]
      change xor8 (body command (0x00 :: data) ++ [checksum command (0x00 :: data)]) ^^^ _ ≠ 0
      rw [xor8_body_checksum, show (0 : Byte) ^^^ (u ^^^ v) = u ^^^ v from BitVec.zero_xor]
      exact mt BitVec.xor_eq_zero_iff.1 huv
    exact evaluate_bad_checksum (by omega) (by omega) hstatus hfold
  · obtain ⟨rfl, h⟩ : pre = [0xFF, 0xFF, lo8 command, hi8 command] ∧
        u :: post = 0x00 :: data ++ [checksum command (0x00 :: data)] := by
      rw [List.append_assoc] at hsplit
      obtain ⟨h1, h2⟩ := List.append_inj hsplit (by rw [hpre]; rfl)
      exact ⟨h1.symm, h2.symm⟩
    obtain ⟨rfl, rfl⟩ := List.cons_eq_cons.1 h
    have hok := evaluate_ok 0xFF 0xFF (lo8 command) (hi8 command) v (checksum command (0x00 :: data)) data (m := m)
      (by omega) fun hv0 => absurd hv0.symm huv
    rw [le16_lo8_hi8] at hok
    exact hok

/-! ### Noise in front of a header -/

/-- Settles O39: the hunt finds the header behind the noise as it finds it without. -/
theorem headerResync : Obligations.HeaderResync := by
  intro m z w hz h0 h1
  obtain ⟨t, rfl⟩ : ∃ t, w = hdr0 :: hdr1 :: t := by
    match w with
    | [] => cases h0
    | [_] => cases h1
    | a :: b :: t => exact ⟨t, by simp_all⟩
  have hnone : hunt false (hdr0 :: hdr1 :: t) = some t := hunt_noise [] false t (by simp) (by simp)
  rw [decodeStream, decodeStream, hunt_noise z false t (fun i h h' => hz i ⟨h, h'⟩) (by simp), hnone]

/-! ### Stuffing -/

/-- Settles O31. -/
theorem byteStuffing : Obligations.ByteStuffing :=
  ⟨stuff_nil, fun b t => by rw [stuff_cons]; split <;> rfl, stuff_length, stuff_append⟩

/-- Settles O32: the partner of a final `AA` is what stuffing has put behind it. -/
theorem destuffInvertsStuff : Obligations.DestuffInvertsStuff := by
  intro s rest
  refine ⟨destuff_stuff s, ?_⟩
  rw [takeBody_stuff, partner]
  split <;> rfl

/-- Settles O35: `FF ^^^ FF` cancels in the fold of the body. -/
theorem checksumIgnoresStuffing : Obligations.ChecksumIgnoresStuffing := by
  refine ⟨xor8_stuff, fun command payload => ⟨rfl, ?_⟩⟩
  rw [checksum_eq_xor8_body, body, xor8_append]
  simp [← BitVec.xor_assoc]

/-- Settles O37: behind the four bytes of header and length field the frame is a stuffed sequence (`stuff_get`). -/
theorem frameLengthAndHeaderPair : Obligations.FrameLengthAndHeaderPair := by
  intro command payload hl
  have hwire := wire_eq_stuff_body_checksum command payload
  have hstuffed : ∀ i, 4 ≤ i → (wire command payload)[i]? =
      (stuff (body command payload ++ [xor8 (body command payload)]))[i - 4]? := by
    intro i hi
    rw [hwire, List.getElem?_append_right (by simpa using hi)]
    rfl
  have hpartner : ∀ i, 4 ≤ i → (wire command payload)[i]? = some 0xAA → (wire command payload)[i + 1]? = some 0x00 := by
    intro i hi h
    rw [hstuffed i hi] at h
    rw [hstuffed (i + 1) (by omega), show i + 1 - 4 = i - 4 + 1 by omega]
    exact stuff_get _ _ h
  refine ⟨?_, hpartner, fun i h0 h1 => ?_⟩
  · rw [hwire, ← checksum_eq_xor8_body, List.length_append, stuff_length, List.length_append, length_body]
    have hff : (0xFF : Byte) ≠ 0xAA := by decide
    simp only [body, List.count_append, List.count_cons, List.count_nil, List.length_cons, List.length_nil]
    simp
    omega
  · match i with
    | 0 => exact .inl rfl
    | 1 => rw [hwire] at h0; cases h0
    | 2 =>
      have hlo : lo8 (lengthField payload) = 0xAA := by rw [hwire] at h0; simpa using h0
      have hhi : hi8 (lengthField payload) = 0xBB := by rw [hwire] at h1; simpa using h1
      have hfield : lengthField payload = 0xBBAA := by rw [← le16_lo8_hi8 (lengthField payload), hlo, hhi]; rfl
      have hnat := congrArg BitVec.toNat hfield
      rw [lengthField, BitVec.toNat_ofNat, show (0xBBAA : Word).toNat = 48042 from rfl] at hnat
      exact .inr ⟨rfl, by omega⟩
    | 3 =>
      rw [hwire] at h1
      cases h1
    | i + 4 =>
      rw [hpartner (i + 4) (by omega) h0] at h1
      cases h1

end Sys2Proof.Machine
end

section
/-! SUPPORT. The decoder gives back what the encoder has written, port by port: a request (R43, R95), an outbound frame
(R81), an inbound frame (R82). -/

namespace Sys2Proof

open Sys2Proof.Machine

/-- A well-formed instruction of a command row is read back from its command and payload (R95). -/
theorem ofCommand_of_commandOf {i : Instr} {d : DeviceCmd} {p : List Byte} (hw : i.wf = true)
    (h : commandOf i = some (d, p)) : ofCommand d p = some i := by
  cases i with
  | cmdSetBaud a => exact Laws.CommandRoundTrip.cmdSetBaud a hw d p h
  | cmdReadBaud a => exact Laws.CommandRoundTrip.cmdReadBaud a hw d p h
  | cmdSetNode a => exact Laws.CommandRoundTrip.cmdSetNode a hw d p h
  | cmdReadNode a => exact Laws.CommandRoundTrip.cmdReadNode a hw d p h
  | cmdReadFw a => exact Laws.CommandRoundTrip.cmdReadFw a hw d p h
  | cmdBeep a => exact Laws.CommandRoundTrip.cmdBeep a hw d p h
  | cmdSetLed a => exact Laws.CommandRoundTrip.cmdSetLed a hw d p h
  | cmdRequest => exact Laws.CommandRoundTrip.cmdRequest hw d p h
  | cmdAnticoll => exact Laws.CommandRoundTrip.cmdAnticoll hw d p h
  | cmdSelect a => exact Laws.CommandRoundTrip.cmdSelect a hw d p h
  | cmdUlSelect => exact Laws.CommandRoundTrip.cmdUlSelect hw d p h
  | cmdHalt => exact Laws.CommandRoundTrip.cmdHalt hw d p h
  | cmdAuth2 a b c => exact Laws.CommandRoundTrip.cmdAuth2 a b c hw d p h
  | cmdReadBlock a b => exact Laws.CommandRoundTrip.cmdReadBlock a b hw d p h
  | cmdWriteBlock a b c => exact Laws.CommandRoundTrip.cmdWriteBlock a b c hw d p h
  | cmdInitBal a b c => exact Laws.CommandRoundTrip.cmdInitBal a b c hw d p h
  | cmdReadBal a b => exact Laws.CommandRoundTrip.cmdReadBal a b hw d p h
  | cmdIncBal a b c => exact Laws.CommandRoundTrip.cmdIncBal a b c hw d p h
  | cmdDecBal a b c => exact Laws.CommandRoundTrip.cmdDecBal a b c hw d p h
  | _ => cases h

/-! ### Words on the request port -/

/-- The words of a command row name it (R8, R95). -/
theorem decodeReq_command {cfg : Config} (hcfg : cfg.wf) {i : Instr} {d : DeviceCmd} {p : List Byte}
    (hw : i.wf = true) (h : commandOf i = some (d, p)) :
    decodeReq cfg (lo8 (cfg.code d) :: hi8 (cfg.code d) :: p) = .ok i := by
  rw [decodeReq, le16_lo8_hi8, find_code hcfg d]
  simp only [ofCommand_of_commandOf hw h, Option.getD_some]

/-- A command field that is no device command's code is that of an XFER (R95, R100). -/
theorem decodeReq_xfer {cfg : Config} {c : Word} (h : ∀ d, cfg.code d ≠ c) (p : List Byte) :
    decodeReq cfg (lo8 c :: hi8 c :: p) = .ok (.xfer c p) := by
  have hnone : DeviceCmd.all.find? (fun d => cfg.code d == c) = none := by
    rw [List.find?_eq_none]
    intro d _
    simpa using h d
  rw [decodeReq, le16_lo8_hi8, hnone]

/-- Any command field and payload is a request, and what it decodes to has these words (R95: FCC carries any command
equally). -/
theorem decodeReq_exists (cfg : Config) (c : Word) (p : List Byte) :
    ∃ j, decodeReq cfg (lo8 c :: hi8 c :: p) = .ok j ∧ encode cfg j = some (.req, lo8 c :: hi8 c :: p) := by
  have hxfer : encode cfg (.xfer c p) = some (.req, lo8 c :: hi8 c :: p) := rfl
  rw [decodeReq, le16_lo8_hi8]
  cases hd : DeviceCmd.all.find? (fun d => cfg.code d == c) with
  | none => exact ⟨_, rfl, hxfer⟩
  | some d =>
    have hcode : cfg.code d = c := by simpa using List.find?_some hd
    refine ⟨(ofCommand d p).getD (.xfer c p), rfl, ?_⟩
    cases hj : ofCommand d p with
    | none => exact hxfer
    | some j => simp only [encode, Option.getD_some, commandOf_of_ofCommand hj, hcode]

/-! ### Words on the TX stream -/

/-- The logical bytes of an outbound frame are those of its command and payload (R111, R112). -/
theorem outboundOf_body (c : Word) (p : List Byte) : outboundOf (body c p ++ [checksum c p]) = .ok (c, p) := by
  simp [body, outboundOf, List.getLastD_eq_getLast?]

/-- The body of a whole frame behind its length field is the logical bytes (R84, R143). -/
theorem takeBody_frame {logical : List Byte} (h : logical.length ≤ 65535) :
    takeBody (le16 (lo8 (BitVec.ofNat 16 logical.length)) (hi8 (BitVec.ofNat 16 logical.length))).toNat false
      (stuff logical) = some (logical, partner logical) := by
  have hn : (BitVec.ofNat 16 logical.length).toNat = logical.length := by rw [BitVec.toNat_ofNat]; omega
  have htake := takeBody_stuff logical []
  rw [List.append_nil, List.append_nil] at htake
  rw [le16_lo8_hi8, hn, htake]

/-- The words of FRAME_OUT (R81). -/
theorem decodeTx_wire {p : List Byte} (h : p.length ≤ 65530) (c : Word) :
    decodeTx (wire c p) = .ok (.frameOut c p) := by
  have hlen : (body c p ++ [checksum c p]).length ≤ 65535 := by simp [body]; omega
  have hw : wire c p = hdr0 :: hdr1 :: lo8 (BitVec.ofNat 16 (body c p ++ [checksum c p]).length) ::
      hi8 (BitVec.ofNat 16 (body c p ++ [checksum c p]).length) :: stuff (body c p ++ [checksum c p]) := by
    rw [wire_eq_inWire]; rfl
  rw [hw, decodeTx, if_neg (by simp), takeBody_frame hlen]
  simp only [outboundOf_body]
  rw [if_pos hw]

/-! ### Words on the RX stream -/

/-- The words of FRAME_IN (R82, R162). -/
theorem decodeRx_inWire {noise logical : List Byte} (hz : noiseOk noise = true) (h : logical.length ≤ 65535) :
    decodeRx (inWire noise logical) = .ok (.frameIn noise logical) := by
  have hlen : 4 ≤ (inWire noise logical).length := by simp [inWire]; omega
  have hsplit : splitHeader (inWire noise logical) = some (noise, lo8 (BitVec.ofNat 16 logical.length) ::
      hi8 (BitVec.ofNat 16 logical.length) :: stuff logical) := by
    rw [inWire, List.append_assoc]
    exact splitHeader_noise noise _ hz
  rw [decodeRx, if_neg, if_neg, hsplit]
  · simp only [takeBody_frame h, if_true]
  · intro he; rw [he] at hlen; simp at hlen
  · intro he; rw [he] at hlen; simp at hlen

/-! ### Every instruction that has words -/

/-- But for an XFER, whose command may be a device command's, the words decode to the instruction. -/
theorem decode_encode {cfg : Config} (hcfg : cfg.wf) {i : Instr} {port : Port} {words : List Byte} (hw : i.wf = true)
    (he : encode cfg i = some (port, words)) (hx : ∀ c p, i ≠ .xfer c p) : decode cfg port words = .ok i := by
  unfold encode at he
  cases hc : commandOf i with
  | some x =>
    rw [hc] at he
    cases he
    exact decodeReq_command hcfg hw hc
  | none =>
    rw [hc] at he
    cases i with
    | xfer c p => exact absurd rfl (hx c p)
    | frameOut c p =>
      cases he
      exact decodeTx_wire (by simpa [Instr.wf, payloadFits] using hw) c
    | frameIn noise logical =>
      cases he
      simp only [Instr.wf, Bool.and_eq_true, decide_eq_true_eq] at hw
      exact decodeRx_inWire hw.1 hw.2
    | hdr => cases he; rfl
    | esc => cases he; rfl
    | _ => cases he

/-- Settles O53: an XFER's words are a request with its command and payload, all others decode to the instruction. -/
theorem decodeOfEncode : Obligations.DecodeOfEncode := by
  intro cfg i port words hcfg hw he
  refine ⟨decode_encode hcfg hw he, ?_, ?_⟩
  · rintro c p rfl hd
    cases he
    exact decodeReq_xfer hd p
  · by_cases hx : ∃ c p, i = .xfer c p
    · obtain ⟨c, p, rfl⟩ := hx
      cases he
      exact decodeReq_exists cfg c p
    · exact ⟨i, decode_encode hcfg hw he fun c p h => hx ⟨c, p, h⟩, he⟩

end Sys2Proof
end

section
/-! SUPPORT. One step, phase by phase, and what HOST can do in it; the rules of every step: the invariant, no fault, the order
of events, nothing of HOST reaches an operation in flight, reset. -/

namespace Sys2Proof.Machine

/-! ### The buffers -/

/-- Settles O55. -/
theorem bufferLaws : Obligations.BufferLaws := fun _ a v bytes hm =>
  ⟨⟨Memory.write_wf hm a v, Memory.read_write hm a v⟩,
    ⟨Memory.writeBytes_wf hm a bytes, Memory.read_writeBytes hm a bytes⟩, fun _ hm' h => Memory.eq_of_read_eq hm hm' h⟩

/-! ### The event of each phase -/

theorem step_rst {s : State} (h : s.env.current.rst = true) : step s = .next (s.lineEvent s.env.current).rstEvent := by
  rw [step_eq, inputEvent, if_pos h]

theorem step_phase {s : State} (h : s.env.current.rst = false) :
    step s = phaseEvent s.env.current (s.lineEvent s.env.current) := by
  rw [step_eq, inputEvent, if_neg (by simp [h])]

theorem phaseEvent_idle {x : Input} {u : State} (h : u.fcc.chPhase = .idle) :
    phaseEvent x u = if x.present then hostEvent u else .next u := by
  rw [phaseEvent, h]

theorem phaseEvent_send {x : Input} {u : State} (h : u.fcc.chPhase = .send) (ht : u.fcc.txPhase ≠ .idle) :
    phaseEvent x u = if x.txReady then .next u.sendByte else .next u := by
  rw [phaseEvent, h]
  exact if_neg ht

theorem phaseEvent_send_fault {x : Input} {u : State} (h : u.fcc.chPhase = .send) (ht : u.fcc.txPhase = .idle) :
    phaseEvent x u = .fault .encNotRunning := by
  rw [phaseEvent, h]
  exact if_pos ht

theorem phaseEvent_flush {x : Input} {u : State} (h : u.fcc.chPhase = .flush) :
    phaseEvent x u = if x.flushAck then .next u.flushEvent else .next u := by
  rw [phaseEvent, h]

theorem phaseEvent_recv {x : Input} {u : State} (h : u.fcc.chPhase = .recv) (hr : u.fcc.rxPhase ≠ .idle) :
    phaseEvent x u = if x.offer then .next u.takeByte else .next u := by
  rw [phaseEvent, h]
  exact if_neg hr

theorem phaseEvent_recv_fault {x : Input} {u : State} (h : u.fcc.chPhase = .recv) (hr : u.fcc.rxPhase = .idle) :
    phaseEvent x u = .fault .decNotRunning := by
  rw [phaseEvent, h]
  exact if_pos hr

theorem phaseEvent_done {x : Input} {u : State} (h : u.fcc.chPhase = .done) :
    phaseEvent x u = if x.take then .next u.takeEvent else .next u := by
  rw [phaseEvent, h]

/-! The step in each phase but `C_IDLE`, where reset is not driven. -/

theorem step_in_send {s : State} (hr : s.env.current.rst = false) (hc : s.fcc.chPhase = .send)
    (ht : s.fcc.txPhase ≠ .idle) : step s = if s.env.current.txReady then .next (s.lineEvent s.env.current).sendByte
      else .next (s.lineEvent s.env.current) :=
  (step_phase hr).trans (phaseEvent_send (u := s.lineEvent s.env.current) hc ht)

theorem step_in_flush {s : State} (hr : s.env.current.rst = false) (hc : s.fcc.chPhase = .flush) :
    step s = if s.env.current.flushAck then .next (s.lineEvent s.env.current).flushEvent
      else .next (s.lineEvent s.env.current) :=
  (step_phase hr).trans (phaseEvent_flush (u := s.lineEvent s.env.current) hc)

theorem step_in_recv {s : State} (hr : s.env.current.rst = false) (hc : s.fcc.chPhase = .recv)
    (hp : s.fcc.rxPhase ≠ .idle) : step s = if s.env.current.offer then .next (s.lineEvent s.env.current).takeByte
      else .next (s.lineEvent s.env.current) :=
  (step_phase hr).trans (phaseEvent_recv (u := s.lineEvent s.env.current) hc hp)

theorem step_in_done {s : State} (hr : s.env.current.rst = false) (hc : s.fcc.chPhase = .done) :
    step s = if s.env.current.take then .next (s.lineEvent s.env.current).takeEvent
      else .next (s.lineEvent s.env.current) :=
  (step_phase hr).trans (phaseEvent_done (u := s.lineEvent s.env.current) hc)

/-- What the event of a phase can do if it answers `next`: the agent of the phase acts, or nothing happens. -/
inductive Acted (u : State) : State → Prop
  | still : Acted u u
  | host {t : State} (hc : u.fcc.chPhase = .idle) (ht : hostEvent u = .next t) : Acted u t
  | send (hc : u.fcc.chPhase = .send) (hp : u.fcc.txPhase ≠ .idle) : Acted u u.sendByte
  | flush (hc : u.fcc.chPhase = .flush) : Acted u u.flushEvent
  | recv {b : Byte} {rest : List Byte} (hc : u.fcc.chPhase = .recv) (hp : u.fcc.rxPhase ≠ .idle)
      (hr : u.line.rx = b :: rest) :
      Acted u { u with fcc := u.fcc.rxNext u.cfg.rxBufMax b, line := { u.line with rx := rest } }
  | take (hc : u.fcc.chPhase = .done) : Acted u u.takeEvent

theorem phaseEvent_cases {x : Input} {u t : State} (h : phaseEvent x u = .next t) : Acted u t := by
  cases hc : u.fcc.chPhase with
  | idle =>
    rw [phaseEvent_idle hc] at h
    split at h
    · exact .host hc h
    · cases h; exact .still
  | send =>
    by_cases hp : u.fcc.txPhase = .idle
    · rw [phaseEvent_send_fault hc hp] at h; cases h
    · rw [phaseEvent_send hc hp] at h
      split at h <;> cases h
      · exact .send hc hp
      · exact .still
  | flush =>
    rw [phaseEvent_flush hc] at h
    split at h <;> cases h
    · exact .flush hc
    · exact .still
  | recv =>
    by_cases hp : u.fcc.rxPhase = .idle
    · rw [phaseEvent_recv_fault hc hp] at h; cases h
    · rw [phaseEvent_recv hc hp] at h
      split at h <;> cases h
      · cases hr : u.line.rx with
        | nil => rw [State.takeByte_nil hr]; exact .still
        | cons b rest => rw [State.takeByte_cons hr]; exact .recv hc hp hr
      · exact .still
  | done =>
    rw [phaseEvent_done hc] at h
    split at h <;> cases h
    · exact .take hc
    · exact .still

/-- A step is a reset or the event of the phase, in the state that LINE and DEVICE have left. -/
theorem step_cases {s t : State} (h : step s = .next t) :
    (s.env.current.rst = true ∧ t = (s.lineEvent s.env.current).rstEvent) ∨
      (s.env.current.rst = false ∧ Acted (s.lineEvent s.env.current) t) := by
  cases hr : s.env.current.rst with
  | true => rw [step_rst hr] at h; cases h; exact .inl ⟨rfl, rfl⟩
  | false => rw [step_phase hr] at h; exact .inr ⟨rfl, phaseEvent_cases h⟩

/-- What HOST can do in an event in which it presents: nothing, present the next XFER of its procedure, start the next
instruction of its agenda, or put bytes on the RX stream. -/
inductive Presented (u : State) : State → Prop
  | nothing : Presented u u
  | act (p : Proc) (hp : u.host.proc = some p) {t : State} (ht : presentAct p.act u = .next t) : Presented u t
  | instr (rest : List Item) (i : Instr) (hn : u.host.proc = none) {t : State}
      (ht : Started i { u with host := { u.host with agenda := rest } } t) : Presented u t
  | bytes (rest : List Item) (bs : List Byte) :
      Presented u (State.bytesArrive bs { u with host := { u.host with agenda := rest } })

theorem hostEvent_cases {u t : State} (h : hostEvent u = .next t) : Presented u t := by
  unfold hostEvent at h
  split at h
  · rename_i p hp
    exact .act p hp h
  · rename_i hn
    split at h
    · cases h; exact .nothing
    · rcases runItem_cases h with ⟨i, -, hi⟩ | ⟨bs, rfl⟩
      · exact .instr _ i hn (exec_cases hi)
      · exact .bytes _ bs

/-! ### The invariant -/

/-- Every instruction that starts keeps the invariant. -/
theorem Started.inv {i : Instr} {s t : State} (h : Started i s t) (hs : s.Inv) : t.Inv := by
  cases h with
  | waits _ _ ht => subst ht; exact State.inv_waits hs i
  | request _ _ hb op c p _ ho hl ht =>
    obtain ⟨hidle, hproc⟩ := State.idle_of_not_busy hb
    subst ht
    exact inv_presentRequest hs hidle ho (by simp [hproc]) (if_pos hl)
  | begins _ _ hb _ pr hp hl ht =>
    obtain ⟨hidle, -⟩ := State.idle_of_not_busy hb
    subst ht
    exact inv_presentAct (s := { s with host := s.host.begin pr }) (a := pr.act)
      ⟨hs.cfg, hs.fcc, HostAgent.inv_begin hs.host hp, fun _ => .inl hidle⟩ hidle (if_pos hl)
  | decode _ hb ht =>
    obtain ⟨hidle, hproc⟩ := State.idle_of_not_busy hb
    subst ht
    exact ⟨hs.cfg, Fcc.inv_receive hs.fcc (by simp [hidle]) (by simp), hs.host, by simp [hproc]⟩
  | arrives _ _ ht => subst ht; exact State.inv_line hs _

theorem Presented.inv {u t : State} (h : Presented u t) (hc : u.fcc.chPhase = .idle) (hu : u.Inv) : t.Inv := by
  cases h with
  | nothing => exact hu
  | act p hp ht => exact inv_presentAct hu hc ht
  | instr rest i hn ht => exact ht.inv (State.inv_agenda hu rest)
  | bytes rest bs => exact State.inv_line (State.inv_agenda hu rest) _

theorem Acted.inv {u t : State} (h : Acted u t) (hu : u.Inv) : t.Inv := by
  cases h with
  | still => exact hu
  | host hc ht => exact (hostEvent_cases ht).inv hc hu
  | send hc _ => exact State.inv_sendByte hu hc
  | flush hc => exact State.inv_flushEvent hu hc
  | recv hc _ hr =>
    have htaken := State.inv_takeByte hu hc
    rwa [State.takeByte_cons hr] at htaken
  | take hc => exact State.inv_takeEvent hu hc

/-- Settles O57: by the cases of a step, each an event that keeps the invariant. -/
theorem stepKeepsInv : Obligations.StepKeepsInv := by
  intro s t hs h
  have hu := State.inv_lineEvent hs s.env.current
  rcases step_cases h with ⟨-, rfl⟩ | ⟨-, hact⟩
  · exact State.inv_rstEvent hu
  · exact hact.inv hu

/-- Settles O56. -/
theorem invAfterReset : Obligations.InvAfterReset :=
  ⟨Config.reset_wf, Fcc.inv_reset _, HostAgent.inv_reset, nofun⟩

theorem hostEvent_ne_fault (u : State) (r : Fault) : hostEvent u ≠ .fault r := by
  unfold hostEvent
  split
  · unfold presentAct presentRequest
    split <;> simp
  · split
    · simp
    · exact runItem_ne_fault _ _ _

theorem phaseEvent_ne_fault {u : State} (hf : u.fcc.Inv u.cfg) (x : Input) (r : Fault) : phaseEvent x u ≠ .fault r := by
  cases hc : u.fcc.chPhase with
  | idle =>
    rw [phaseEvent_idle hc]
    split
    · exact hostEvent_ne_fault u r
    · simp
  | send => rw [phaseEvent_send hc (hf.txPhase.2 hc)]; split <;> simp
  | flush => rw [phaseEvent_flush hc]; split <;> simp
  | recv => rw [phaseEvent_recv hc (hf.rxPhase.2 hc)]; split <;> simp
  | done => rw [phaseEvent_done hc]; split <;> simp

/-- Settles O58: under the invariant ENC runs in `C_SEND` and DEC in `C_RECV`, and no other phase has a fault. -/
theorem noFaultUnderInv : Obligations.NoFaultUnderInv := by
  intro s r hs
  cases hr : s.env.current.rst with
  | true => rw [step_rst hr]; simp
  | false => rw [step_phase hr]; exact phaseEvent_ne_fault (State.inv_lineEvent hs _).fcc _ r

/-! ### The order of events -/

/-- DEC is running, or it has ended and CH is done (R24). -/
def Fcc.Receiving (f : Fcc) : Prop :=
  (f.chPhase = .recv ∧ f.rxPhase ≠ .idle) ∨ (f.chPhase = .done ∧ f.rxPhase = .idle)

theorem Fcc.receiving_evaluate (m : Nat) (f : Fcc) : (f.evaluate m).Receiving :=
  .inr ⟨(Fcc.evaluate_phases m f).2, (Fcc.evaluate_phases m f).1⟩

/-- In a byte event DEC runs on, or ends by the evaluation. -/
theorem Fcc.receiving_rxNext {f : Fcc} (hc : f.chPhase = .recv) (hp : f.rxPhase ≠ .idle) (m : Nat) (b : Byte) :
    (f.rxNext m b).Receiving := by
  unfold Fcc.rxNext
  split
  · exact absurd ‹_› hp
  · split
    · exact .inl ⟨hc, by simp⟩
    · exact .inl ⟨hc, hp⟩
  · exact .inl ⟨hc, by simp⟩
  · simp only
    split
    · exact Fcc.receiving_evaluate m _
    · exact .inl ⟨hc, by simp⟩
  · split
    · exact .inl ⟨hc, hp⟩
    · split
      · exact Fcc.receiving_evaluate m _
      · exact .inl ⟨hc, hp⟩

/-- In a byte event of ENC CH stays, or goes to the flush, or, for ENCODE alone, is idle (R182, log 6). -/
theorem Fcc.txNext_chPhase_cases {f : Fcc} (hc : f.chPhase = .send) :
    f.txNext.chPhase = .send ∨ f.txNext.chPhase = .flush ∨ (f.txNext.chPhase = .idle ∧ f.op = .encode) := by
  have hdone : f.encDone.chPhase = .flush ∨ (f.encDone.chPhase = .idle ∧ f.op = .encode) := by
    rw [Fcc.encDone_chPhase]
    split
    · rename_i hop; exact .inr ⟨rfl, hop⟩
    · exact .inl rfl
  unfold Fcc.txNext
  split <;> try exact .inl hc
  · split
    · exact .inl hc
    · exact .inr hdone
  · exact .inr hdone

/-- What an instruction that starts in an idle FCC leaves of the order: CH goes on to send or to receive, LINE has at most
more bytes for DEC, and no result is delivered or reported. -/
theorem Started.order {i : Instr} {s t : State} (h : Started i s t) (hc : s.fcc.chPhase = .idle) :
    (t.fcc.chPhase = .idle ∨ t.fcc.chPhase = .send ∨ (t.fcc.chPhase = .recv ∧ t.fcc.op = .decode)) ∧
      (∃ b, t.line = { s.line with rx := s.line.rx ++ b }) ∧ t.host.lastXfer = s.host.lastXfer ∧
      t.host.reports = s.host.reports := by
  have hline : ∃ b, s.line = { s.line with rx := s.line.rx ++ b } := ⟨[], by rw [List.append_nil]⟩
  cases h with
  | waits _ _ ht => subst ht; exact ⟨.inl hc, hline, rfl, rfl⟩
  | request _ _ _ op c p _ _ _ ht => subst ht; exact ⟨.inr (.inl rfl), hline, rfl, rfl⟩
  | begins _ _ _ _ pr _ _ ht =>
    subst ht
    refine ⟨.inr (.inl rfl), hline, ?_, ?_⟩ <;>
    · simp only [State.acceptRequest_host, HostAgent.begin]
      split <;> rfl
  | decode _ _ ht => subst ht; exact ⟨.inr (.inr ⟨rfl, rfl⟩), hline, rfl, rfl⟩
  | arrives _ bytes ht => subst ht; exact ⟨.inl hc, ⟨_, rfl⟩, rfl, rfl⟩

theorem Presented.order {u t : State} (h : Presented u t) (hc : u.fcc.chPhase = .idle) :
    (t.fcc.chPhase = .idle ∨ t.fcc.chPhase = .send ∨ (t.fcc.chPhase = .recv ∧ t.fcc.op = .decode)) ∧
      (∃ b, t.line = { u.line with rx := u.line.rx ++ b }) ∧ t.host.lastXfer = u.host.lastXfer ∧
      t.host.reports = u.host.reports := by
  have hline : ∃ b, u.line = { u.line with rx := u.line.rx ++ b } := ⟨[], by rw [List.append_nil]⟩
  cases h with
  | nothing => exact ⟨.inl hc, hline, rfl, rfl⟩
  | act p hp ht =>
    unfold presentAct presentRequest at ht
    split at ht
    · cases ht; exact ⟨.inr (.inl rfl), hline, rfl, rfl⟩
    · cases ht
  | instr rest i hn ht => exact ht.order hc
  | bytes rest bs => exact ⟨.inl hc, ⟨_, rfl⟩, rfl, rfl⟩

/-- Settles O59: by the cases of a step, of which only those of the phase CH is in remain. -/
theorem eventOrder : Obligations.EventOrder := by
  rintro s t u rfl hr h
  have hact : Acted (s.lineEvent s.env.current) t := by
    rcases step_cases h with ⟨hr', -⟩ | ⟨-, hact⟩
    · rw [hr] at hr'; cases hr'
    · exact hact
  have hnil : ∃ b, (s.lineEvent s.env.current).line =
      { (s.lineEvent s.env.current).line with rx := (s.lineEvent s.env.current).line.rx ++ b } :=
    ⟨[], by rw [List.append_nil]⟩
  cases hact with
  | still =>
    exact ⟨fun hc => ⟨.inl hc, hnil, rfl, rfl⟩, fun hc => ⟨.inl hc, .inl ⟨rfl, rfl⟩, rfl⟩,
      fun _ => ⟨.inl ⟨rfl, rfl⟩, rfl⟩, fun hc => ⟨.inl hc, .inl ⟨rfl, rfl⟩, rfl⟩, fun _ => ⟨.inl ⟨rfl, rfl⟩, rfl⟩⟩
  | host hc ht =>
    rw [State.lineEvent_fcc] at hc
    exact ⟨fun _ => (hostEvent_cases ht).order hc, by simp [hc], by simp [hc], by simp [hc], by simp [hc]⟩
  | send hc _ =>
    rw [State.lineEvent_fcc] at hc
    exact ⟨by simp [hc], fun _ => ⟨Fcc.txNext_chPhase_cases hc, .inr ⟨_, rfl⟩, rfl⟩, by simp [hc], by simp [hc],
      by simp [hc]⟩
  | flush hc =>
    rw [State.lineEvent_fcc] at hc
    exact ⟨by simp [hc], by simp [hc], fun _ => ⟨.inr ⟨rfl, rfl⟩, rfl⟩, by simp [hc], by simp [hc]⟩
  | recv hc hp hrx =>
    rw [State.lineEvent_fcc] at hc
    exact ⟨by simp [hc], by simp [hc], by simp [hc],
      fun _ => ⟨(Fcc.receiving_rxNext hc hp _ _).imp And.left And.left, .inr ⟨_, hrx, rfl⟩, rfl⟩, by simp [hc]⟩
  | take hc =>
    rw [State.lineEvent_fcc] at hc
    exact ⟨by simp [hc], by simp [hc], by simp [hc], by simp [hc], fun _ => ⟨.inr rfl, rfl⟩⟩

/-! ### What HOST presents does not reach an operation in flight -/

theorem State.takeByte_withHost (s : State) (g : HostAgent) :
    ({ s with host := g } : State).takeByte = { s.takeByte with host := g } := by
  cases hr : s.line.rx with
  | nil => rw [State.takeByte_nil hr, State.takeByte_nil (by exact hr)]
  | cons b t => rw [State.takeByte_cons hr, State.takeByte_cons (by exact hr)]

/-- An event that happens or not, with another HOST. -/
theorem ite_next_withHost {c : Bool} {a a' u t : State} {g : HostAgent} (ha : ∃ g', a' = { a with host := g' })
    (h : (if c then Host.Outcome.next a else .next u : Outcome) = .next t) :
    ∃ g', (if c then .next a' else .next { u with host := g } : Outcome) = .next { t with host := g' } := by
  obtain ⟨g', rfl⟩ := ha
  cases c <;> cases h
  · exact ⟨g, rfl⟩
  · exact ⟨g', rfl⟩

/-- While FCC is busy, HOST plays no part in what an event does to the rest of the machine (R66). -/
theorem phaseEvent_withHost {x : Input} {u t : State} (hb : u.fcc.busy = true) (h : phaseEvent x u = .next t)
    (g : HostAgent) : ∃ g', phaseEvent x { u with host := g } = .next { t with host := g' } := by
  cases hc : u.fcc.chPhase with
  | idle => rw [Fcc.busy, hc] at hb; cases hb
  | send =>
    by_cases hp : u.fcc.txPhase = .idle
    · rw [phaseEvent_send_fault hc hp] at h; cases h
    · rw [phaseEvent_send hc hp] at h
      rw [phaseEvent_send (by exact hc) (by exact hp)]
      exact ite_next_withHost ⟨g, rfl⟩ h
  | flush =>
    rw [phaseEvent_flush hc] at h
    rw [phaseEvent_flush (by exact hc)]
    exact ite_next_withHost ⟨g, rfl⟩ h
  | recv =>
    by_cases hp : u.fcc.rxPhase = .idle
    · rw [phaseEvent_recv_fault hc hp] at h; cases h
    · rw [phaseEvent_recv hc hp] at h
      rw [phaseEvent_recv (by exact hc) (by exact hp)]
      exact ite_next_withHost ⟨g, State.takeByte_withHost u g⟩ h
  | done =>
    rw [phaseEvent_done hc] at h
    rw [phaseEvent_done (by exact hc)]
    exact ite_next_withHost ⟨g.afterResult u.cfg u.fcc.readResult, rfl⟩ h

theorem step_withHost {s t : State} (hb : s.fcc.busy = true) (h : step s = .next t) (g : HostAgent) :
    ∃ g', step { s with host := g } = .next { t with host := g' } := by
  cases hr : s.env.current.rst with
  | true =>
    rw [step_rst hr] at h
    cases h
    exact ⟨g.abandon, step_rst (by exact hr)⟩
  | false =>
    rw [step_phase hr] at h
    rw [step_phase (by exact hr)]
    exact phaseEvent_withHost (u := s.lineEvent s.env.current) hb h g

theorem run_succ_cases {n : Nat} {s t : State} (h : run (n + 1) s = .next t) :
    ∃ u, step s = .next u ∧ run n u = .next t := by
  cases hs : step s with
  | next u => exact ⟨u, rfl, by rwa [run_succ_of_next n hs] at h⟩
  | fault r => rw [run_succ_of_fault n hs] at h; cases h
  | refused r => rw [run_succ_of_refused n hs] at h; cases h

theorem run_withHost {n : Nat} {s t : State} (hb : ∀ k < n, ∃ v, run k s = .next v ∧ v.fcc.busy = true)
    (h : run n s = .next t) (g : HostAgent) : ∃ g', run n { s with host := g } = .next { t with host := g' } := by
  induction n generalizing s g with
  | zero => cases h; exact ⟨g, rfl⟩
  | succ n ih =>
    obtain ⟨u, hu, hut⟩ := run_succ_cases h
    have hbusy : s.fcc.busy = true := by
      obtain ⟨v, hv, hvb⟩ := hb 0 (by omega)
      cases hv
      exact hvb
    obtain ⟨g1, h1⟩ := step_withHost hbusy hu g
    rw [run_succ_of_next n h1]
    refine ih (fun k hk => ?_) hut g1
    rw [← run_succ_of_next k hu]
    exact hb (k + 1) (by omega)

/-- Settles O60: the second machine is the first with another HOST, and runs along with it. -/
theorem hostCannotReachAnOperationInFlight : Obligations.HostCannotReachAnOperationInFlight := by
  intro s s' t t' n hfcc hline henv hcfg hb h h'
  have hs' : s' = { s with host := s'.host } := by
    rw [← hfcc, ← hline, ← henv, ← hcfg]
  obtain ⟨g, hg⟩ := run_withHost (fun k hk => hb k (by omega)) h s'.host
  rw [hs', hg] at h'
  cases h'
  exact ⟨rfl, rfl⟩

/-! ### Reset -/

/-- Settles O2. -/
theorem resetAbandonsTheXfer : Obligations.ResetAbandonsTheXfer := by
  rintro s u rfl hr
  exact ⟨_, step_rst hr, rfl, rfl, rfl, rfl, rfl, rfl, rfl, rfl, rfl, rfl, rfl⟩

/-- Settles O1: from the idle phase an event in which HOST presents nothing is that of LINE and DEVICE. -/
theorem resetLeavesFccIdle : Obligations.ResetLeavesFccIdle := by
  refine ⟨by decide, by decide, fun s hf hr hp => ?_⟩
  have hidle : (s.lineEvent s.env.current).fcc.chPhase = .idle := by rw [State.lineEvent_fcc, hf]; rfl
  rw [step_phase hr, phaseEvent_idle hidle, if_neg (by simp [hp])]

end Sys2Proof.Machine
end

section
/-! SUPPORT. The event that starts an instruction: a request is accepted, refused, or waits; a procedure begins; and what
the event leaves unchanged. -/

namespace Sys2Proof.Machine

/-! ### Presenting a request -/

theorem presentRequest_accepts {s : State} {c : Word} {p : List Byte} (op : Operation)
    (hl : p.length ≤ s.cfg.payloadMax) : presentRequest op c p s = .next (s.accepted op c p) := if_pos hl

theorem presentRequest_refuses {s : State} {c : Word} {p : List Byte} (op : Operation)
    (hl : s.cfg.payloadMax < p.length) : presentRequest op c p s = .refused .payloadTooLong := if_neg (by omega)

/-- An instruction that presents a request does nothing but present it, or wait (R100, R181, R189). -/
theorem exec_of_requestOf {i : Instr} {s : State} {op : Operation} {c : Word} {p : List Byte}
    (h : requestOf s.cfg i = some (op, c, p)) : exec i s = requestOrWait i op c p s := by
  cases i <;> cases h <;> rfl

/-- With HOST free, a request that fits is accepted (R181). -/
theorem exec_request_accepts {i : Instr} {s : State} {op : Operation} {c : Word} {p : List Byte}
    (hb : s.hostBusy = false) (hr : requestOf s.cfg i = some (op, c, p)) (hl : p.length ≤ s.cfg.payloadMax) :
    exec i s = .next (s.accepted op c p) := by
  rw [exec_of_requestOf hr, requestOrWait, if_neg (by simp [hb]), presentRequest_accepts op hl]

/-- With HOST free, a request that is too long is refused (R189 b). -/
theorem exec_request_refuses {i : Instr} {s : State} {op : Operation} {c : Word} {p : List Byte}
    (hb : s.hostBusy = false) (hr : requestOf s.cfg i = some (op, c, p)) (hl : s.cfg.payloadMax < p.length) :
    exec i s = .refused .payloadTooLong := by
  rw [exec_of_requestOf hr, requestOrWait, if_neg (by simp [hb]), presentRequest_refuses op hl]

/-- While HOST is busy every instruction but an arrival waits (R189 a): each arm asks `hostBusy` first. -/
theorem exec_waits {i : Instr} {s : State} (hb : s.hostBusy = true) (ha : arriving i = false) :
    exec i s = .next (s.waits i) := by
  cases i with
  | frameIn _ _ => cases ha
  | hdr => cases ha
  | esc => cases ha
  | _ => exact if_pos hb

/-! ### Beginning a procedure -/

theorem begin_selecting {s : State} {p : Proc} (h : p.act = .request) :
    ({ s with host := s.host.begin p } : State) = s.selecting p := by
  rw [HostAgent.begin, if_pos h]
  rfl

theorem begin_running {s : State} {p : Proc} (h : p.act ≠ .request) :
    ({ s with host := s.host.begin p } : State) = s.running p := by
  rw [HostAgent.begin, if_neg h]
  rfl

/-- A procedure that begins with `select()` presents REQUEST (R210). -/
theorem startProc_selecting {i : Instr} {p : Proc} {s : State} (hb : s.hostBusy = false) (h : p.act = .request)
    (hl : 1 ≤ s.cfg.payloadMax) :
    startProc i p s = .next ((s.selecting p).accepted .xfer s.cfg.codes.request [0x52]) := by
  rw [startProc, if_neg (by simp [hb]), begin_selecting h, h]
  exact presentRequest_accepts (s := s.selecting p) .xfer hl

/-- Any other procedure presents its first XFER (R211 to R221). -/
theorem startProc_running {i : Instr} {p : Proc} {s : State} (hb : s.hostBusy = false) (h : p.act ≠ .request)
    (hl : (p.act.xfer s.cfg).2.length ≤ s.cfg.payloadMax) :
    startProc i p s = .next ((s.running p).accepted .xfer (p.act.xfer s.cfg).1 (p.act.xfer s.cfg).2) := by
  rw [startProc, if_neg (by simp [hb]), begin_running h]
  exact presentRequest_accepts (s := s.running p) .xfer hl

theorem startProc_refuses {i : Instr} {p : Proc} {s : State} (hb : s.hostBusy = false)
    (hl : s.cfg.payloadMax < (p.act.xfer s.cfg).2.length) : startProc i p s = .refused .payloadTooLong := by
  rw [startProc, if_neg (by simp [hb])]
  exact presentRequest_refuses (s := { s with host := s.host.begin p }) .xfer hl

/-- The guard of R212 is met: the procedure starts. -/
theorem startAuthenticated_of_session {i : Instr} {p : Proc} {s : State} (hb : s.hostBusy = false)
    (h : s.host.session.canAuthenticate = true) : startAuthenticated i p s = startProc i p s := by
  rw [startAuthenticated, if_neg (by simp [hb]), if_pos h]

theorem startAuthenticated_refuses {i : Instr} {p : Proc} {s : State} (hb : s.hostBusy = false)
    (h : s.host.session.canAuthenticate = false) : startAuthenticated i p s = .refused .wrongSession := by
  rw [startAuthenticated, if_neg (by simp [hb]), if_neg (by simp [h])]

/-- A procedure that authenticates first presents AUTH2 (R212). -/
theorem startAuthenticated_auth {i : Instr} {s : State} {goal : Goal} {slot : KeySlot} {sector : Nat} {key : List Byte}
    {rest : List Act} (hb : s.hostBusy = false) (h : s.host.session.canAuthenticate = true)
    (hl : key.length + 2 ≤ s.cfg.payloadMax) :
    startAuthenticated i { goal := goal, act := .auth slot sector key, rest := rest, data := [] } s =
      .next ((s.running { goal := goal, act := .auth slot sector key, rest := rest, data := [] }).accepted .xfer
        s.cfg.codes.auth2 (authRequest slot sector key)) := by
  have hp : (Act.xfer s.cfg (.auth slot sector key)).2 = authRequest slot sector key := by cases slot <;> rfl
  rw [startAuthenticated_of_session hb h, startProc_running hb (by simp) (by exact hl), hp]
  rfl

/-- One whose key makes AUTH2 too long is refused (R189 b). -/
theorem startAuthenticated_auth_refuses {i : Instr} {s : State} {goal : Goal} {slot : KeySlot} {sector : Nat}
    {key : List Byte} {rest : List Act} (hb : s.hostBusy = false) (h : s.host.session.canAuthenticate = true)
    (hl : s.cfg.payloadMax < key.length + 2) :
    startAuthenticated i { goal := goal, act := .auth slot sector key, rest := rest, data := [] } s =
      .refused .payloadTooLong := by
  rw [startAuthenticated_of_session hb h]
  exact startProc_refuses hb hl

/-- In `Authenticated(S)` readBlock starts on a block of sector `S` (R213). -/
theorem execReadBlock_authenticated {s : State} {sector : Nat} (block : Nat) (hb : s.hostBusy = false)
    (h : s.host.session = .authenticated sector) :
    exec (.readBlock block) s =
      startProc (.readBlock block) { goal := .readBlock, act := .read sector block, rest := [], data := [] } s := by
  change execReadBlock block s = _
  rw [execReadBlock, if_neg (by simp [hb]), h]

/-! ### The instructions of the operation and frame rows -/

/-- Settles O3. -/
theorem xferIsAccepted : Obligations.XferIsAccepted := by
  intro command payload s hb hcfg hl
  refine ⟨exec_request_accepts hb rfl hl, ?_, fun hw i => ?_⟩
  · have hmax := hcfg.1
    rw [BitVec.toNat_ofNat]
    omega
  · rw [Memory.read_writeBytes hw]
    simp

/-- Settles O4. -/
theorem encodeFrameOutDecodeStart : Obligations.EncodeFrameOutDecodeStart := by
  intro command payload s hb
  exact ⟨fun hl => ⟨exec_request_accepts hb rfl hl, exec_request_accepts hb rfl hl⟩, if_neg (by simp [hb])⟩

/-- Bytes arrive at an unbounded LINE whole, at a finite one as many as there is room for (R56, log 11). -/
theorem bytesArrive_unbounded {s : State} (h : s.cfg.lineDepth = none) (bytes : List Byte) :
    s.bytesArrive bytes = s.holding bytes := by
  simp only [State.bytesArrive, Line.arrive, h]
  rfl

theorem bytesArrive_depth {s : State} {depth : Nat} (h : s.cfg.lineDepth = some depth) (bytes : List Byte) :
    s.bytesArrive bytes = s.holding (bytes.take (depth - s.line.rx.length)) := by
  simp only [State.bytesArrive, Line.arrive, h]
  rfl

/-- Settles O5. -/
theorem frameInHdrEscArrive : Obligations.FrameInHdrEscArrive := by
  rintro noise logical frame s rfl
  have hframe : inWire noise logical = noise ++
      [0xAA, 0xBB, BitVec.ofNat 8 logical.length, BitVec.ofNat 8 (logical.length / 256)] ++ stuff logical := by
    rw [inWire, lo8_ofNat, hi8_ofNat]
  rw [← hframe]
  refine ⟨fun h => ?_, fun depth h => ?_⟩
  · simp only [← bytesArrive_unbounded h]
    exact ⟨rfl, rfl, rfl⟩
  · simp only [← bytesArrive_depth h]
    exact ⟨rfl, rfl, rfl⟩

/-- Settles O6. -/
theorem requestsWaitOrAreRefused : Obligations.RequestsWaitOrAreRefused := by
  refine ⟨fun i s => ⟨exec_waits, fun op c p hr hb => exec_request_refuses hb hr⟩, ?_, ?_⟩
  · intro s slot sector block key data amount blocks candidates hb
    refine ⟨fun hl => ⟨startProc_refuses hb hl, startProc_refuses hb hl, startProc_refuses hb hl⟩, fun h hl => ?_,
      fun h hl => ?_⟩
    · rw [execReadBlock_authenticated block hb h]
      exact startProc_refuses hb hl
    · exact ⟨startAuthenticated_auth_refuses hb h hl, startAuthenticated_auth_refuses hb h hl,
        startAuthenticated_auth_refuses hb h hl, startAuthenticated_auth_refuses hb h hl,
        startAuthenticated_auth_refuses hb h hl, startAuthenticated_auth_refuses hb h hl,
        startAuthenticated_auth_refuses hb h hl⟩
  · intro s p hr hp hc hproc hl
    rw [step_phase hr, phaseEvent_idle (by exact hc), if_pos hp, hostEvent, State.lineEvent_host, hproc]
    exact presentRequest_refuses (s := s.lineEvent s.env.current) .xfer hl

/-! ### The device commands -/

/-- Settles O7. -/
theorem commandsAreXfers : Obligations.CommandsAreXfers := by
  intro s hb _
  refine ⟨fun p hl => ⟨exec_request_accepts hb rfl hl, exec_request_accepts hb rfl hl, exec_request_accepts hb rfl hl,
      exec_request_accepts hb rfl hl, exec_request_accepts hb rfl hl, exec_request_accepts hb rfl hl,
      exec_request_accepts hb rfl hl⟩,
    exec_request_accepts hb rfl (Nat.zero_le _), exec_request_accepts hb rfl (Nat.zero_le _),
    fun h1 => ⟨fun duration => exec_request_accepts hb rfl h1, exec_request_accepts hb rfl h1,
      exec_request_accepts hb rfl h1,
      fun sector block => ⟨exec_request_accepts hb rfl h1, exec_request_accepts hb rfl h1⟩⟩,
    fun sector block data hl => exec_request_accepts hb rfl hl,
    fun h3 sector block amount => ⟨exec_request_accepts hb rfl h3, exec_request_accepts hb rfl h3,
      exec_request_accepts hb rfl h3⟩,
    fun sector key hl => ⟨exec_request_accepts hb rfl hl, exec_request_accepts hb rfl hl⟩⟩

/-! ### The host procedures -/

/-- Settles O8. -/
theorem unguardedProceduresStart : Obligations.UnguardedProceduresStart := by
  intro s hb
  exact ⟨fun hl => ⟨startProc_selecting hb rfl hl, fun key => startProc_selecting hb rfl hl,
    fun sector candidates => startProc_selecting hb rfl hl⟩, startProc_running hb (by simp) (Nat.zero_le _)⟩

/-- Settles O9. -/
theorem authenticatingProceduresStart : Obligations.AuthenticatingProceduresStart := by
  intro s slot sector block key data amount blocks hb h hl
  exact ⟨startAuthenticated_auth hb h hl, startAuthenticated_auth hb h hl, startAuthenticated_auth hb h hl,
    startAuthenticated_auth hb h hl, startAuthenticated_auth hb h hl, startAuthenticated_auth hb h hl,
    startAuthenticated_auth hb h hl⟩

/-- Settles O10. -/
theorem readBlockStarts : Obligations.ReadBlockStarts := by
  intro s sector block hb h hl
  rw [execReadBlock_authenticated block hb h]
  exact startProc_running hb (by simp) hl

/-- Settles O11. -/
theorem wrongSessionIsRefused : Obligations.WrongSessionIsRefused := by
  intro s slot sector block key data amount blocks hb
  refine ⟨fun h => ⟨startAuthenticated_refuses hb h, startAuthenticated_refuses hb h, startAuthenticated_refuses hb h,
    startAuthenticated_refuses hb h, startAuthenticated_refuses hb h, startAuthenticated_refuses hb h,
    startAuthenticated_refuses hb h⟩, fun h => ?_⟩
  change execReadBlock block s = _
  rw [execReadBlock, if_neg (by simp [hb])]
  split
  · exact absurd ‹_› (h _)
  · rfl

/-! ### The frame -/

theorem requestOf_of_arriving {cfg : Config} {i : Instr} (h : arriving i = true) : requestOf cfg i = none := by
  cases i <;> first | rfl | cases h

/-- `TXP` at and behind the length of a latched payload. -/
theorem latch_txp_read {s : State} (hw : s.fcc.txp.wf) (op : Operation) (c : Word) {p : List Byte} {a : Nat}
    (ha : p.length ≤ a) : (s.acceptRequest op c p).fcc.txp.read a = s.fcc.txp.read a := by
  rw [State.acceptRequest_fcc, Fcc.latch_txp, Memory.read_writeBytes hw, if_neg (by omega)]

/-- Beginning a procedure leaves what HOST has read and reported. -/
theorem HostAgent.begin_fields (h : HostAgent) (p : Proc) :
    (h.begin p).lastXfer = h.lastXfer ∧ (h.begin p).reports = h.reports := by
  unfold HostAgent.begin
  split <;> exact ⟨rfl, rfl⟩

/-- Settles O12: by the five things an instruction can do. -/
theorem instructionFrame : Obligations.InstructionFrame := by
  intro i s t h
  cases exec_cases h with
  | waits ha hb ht =>
    subst ht
    simp [ha, hb]
  | request ha hd hb op c p hr _ _ ht =>
    subst ht
    refine ⟨rfl, rfl, rfl, rfl, rfl, rfl, rfl, rfl, rfl, rfl, rfl, rfl, rfl, rfl, fun _ => rfl, by simp [ha], fun _ => rfl,
      fun h => absurd h hd, fun _ => ⟨rfl, rfl, rfl⟩, by simp [hb], fun h => absurd h hd, ?_, by simp [hr]⟩
    intro _ op' c' p' hr'
    rw [hr] at hr'
    cases hr'
    exact ⟨rfl, fun hw a => latch_txp_read hw op c⟩
  | begins ha hd hb hr pr _ _ ht =>
    subst ht
    obtain ⟨hlast, hreports⟩ := s.host.begin_fields pr
    refine ⟨rfl, rfl, hlast, hreports, rfl, rfl, rfl, rfl, rfl, rfl, rfl, rfl, rfl, rfl, fun _ => rfl, by simp [ha],
      fun _ => rfl, fun h => absurd h hd, fun _ => ⟨rfl, rfl, rfl⟩, by simp [hb], fun h => absurd h hd, by simp [hr], ?_⟩
    intro _ _ _ _
    refine ⟨pr, ?_, fun hw a => latch_txp_read hw _ _⟩
    rw [State.acceptRequest_host]
    split
    · rename_i h1; exact congrArg State.host (begin_selecting (s := s) h1)
    · rename_i h1; exact congrArg State.host (begin_running (s := s) h1)
  | decode hi hb ht =>
    subst hi ht
    simp [hb, arriving, requestOf, commandOf]
  | arrives ha bytes ht =>
    subst ht
    have hd : i ≠ .decode := by rintro rfl; cases ha
    simp [ha, hd, requestOf_of_arriving ha]

end Sys2Proof.Machine
end

section
/-! SUPPORT. One byte event of ENC (R115 to R121), of the flush (R183) and of DEC (R147 to R160), the take event (R188), and
the output signals (R43): the exact next states. -/

namespace Sys2Proof.Machine

/-! ### ENC: the byte handed over in each phase, and the registers behind it (R115 to R121) -/

theorem Fcc.tx_hdr0 {f : Fcc} (h : f.txPhase = .hdr0) :
    f.txData = 0xAA ∧ f.txNext = { f with txPhase := .hdr1 } := by
  rw [Fcc.txData, Fcc.txNext, h]; exact ⟨rfl, rfl⟩

theorem Fcc.tx_hdr1 {f : Fcc} (h : f.txPhase = .hdr1) :
    f.txData = 0xBB ∧ f.txNext = { f with txPhase := .len0 } := by
  rw [Fcc.txData, Fcc.txNext, h]; exact ⟨rfl, rfl⟩

theorem Fcc.tx_len0 {f : Fcc} (h : f.txPhase = .len0) :
    f.txData = lo8 (5 + f.chLen) ∧ f.txNext = { f with txPhase := .len1 } := by
  rw [Fcc.txData, Fcc.txNext, h]; exact ⟨rfl, rfl⟩

theorem Fcc.tx_len1 {f : Fcc} (h : f.txPhase = .len1) :
    f.txData = hi8 (5 + f.chLen) ∧ f.txNext = { f with txPhase := .body } := by
  rw [Fcc.txData, Fcc.txNext, h]; exact ⟨rfl, rfl⟩

theorem Fcc.tx_body {f : Fcc} (h : f.txPhase = .body) :
    f.txData = f.bodyByte f.txIdx ∧ f.txNext = { f with
      txXor := f.txXor ^^^ f.bodyByte f.txIdx
      txIdx := f.txIdx + 1
      txPhase := if f.bodyByte f.txIdx = 0xAA then .bstuff else if f.txIdx + 1 = f.chLen + 4 then .csum else .body } := by
  rw [Fcc.txData, Fcc.txNext, h]; exact ⟨rfl, rfl⟩

theorem Fcc.tx_bstuff {f : Fcc} (h : f.txPhase = .bstuff) :
    f.txData = 0x00 ∧ f.txNext = { f with txPhase := if f.txIdx = f.chLen + 4 then .csum else .body } := by
  rw [Fcc.txData, Fcc.txNext, h]; exact ⟨rfl, rfl⟩

theorem Fcc.tx_csum {f : Fcc} (h : f.txPhase = .csum) (hx : f.txXor ≠ 0xAA) :
    f.txData = f.txXor ∧ f.txNext = f.encDone := by
  rw [Fcc.txData, Fcc.txNext, h]; exact ⟨rfl, if_neg hx⟩

theorem Fcc.tx_csum_esc {f : Fcc} (h : f.txPhase = .csum) (hx : f.txXor = 0xAA) :
    f.txData = f.txXor ∧ f.txNext = { f with txPhase := .cstuff } := by
  rw [Fcc.txData, Fcc.txNext, h]; exact ⟨rfl, if_pos hx⟩

theorem Fcc.tx_cstuff {f : Fcc} (h : f.txPhase = .cstuff) : f.txData = 0x00 ∧ f.txNext = f.encDone := by
  rw [Fcc.txData, Fcc.txNext, h]; exact ⟨rfl, rfl⟩

/-- With a LINE that is ready, a step in `C_SEND` hands over `tx_data` and ENC goes on (R51). -/
theorem step_sends {s : State} {b : Byte} {f : Fcc} (hr : s.env.current.rst = false)
    (ht : s.env.current.txReady = true) (hc : s.fcc.chPhase = .send) (hp : s.fcc.txPhase ≠ .idle)
    (h : s.fcc.txData = b ∧ s.fcc.txNext = f) : step s = .next { s.lineEvent s.env.current with
      fcc := f, line := { (s.lineEvent s.env.current).line with
        held := (s.lineEvent s.env.current).line.held ++ [b] } } := by
  obtain ⟨rfl, rfl⟩ := h
  rw [step_in_send hr hc hp, if_pos ht]
  rfl

/-- Settles O13. -/
theorem headerAndLengthBytes : Obligations.HeaderAndLengthBytes := by
  rintro s u rfl hr ht hc
  exact ⟨fun hp => step_sends hr ht hc (by simp [hp]) (Fcc.tx_hdr0 hp),
    fun hp => step_sends hr ht hc (by simp [hp]) (Fcc.tx_hdr1 hp),
    fun hp => step_sends hr ht hc (by simp [hp]) (Fcc.tx_len0 hp),
    fun hp => step_sends hr ht hc (by simp [hp]) (Fcc.tx_len1 hp)⟩

/-- `B(i)` of R114 by ranges of the index. -/
theorem Fcc.bodyByte_eq (f : Fcc) (i : Word) : f.bodyByte i =
    if i.toNat < 2 then 0xFF else if i.toNat = 2 then lo8 f.chCmd else if i.toNat = 3 then hi8 f.chCmd
    else f.txp.read (i.toNat - 4) := by
  unfold Fcc.bodyByte
  split <;> simp_all

/-- Settles O14. -/
theorem bodyBytes : Obligations.BodyBytes := by
  rintro s u rfl hr ht hc
  exact ⟨Fcc.bodyByte_eq, fun hp => step_sends hr ht hc (by simp [hp]) (Fcc.tx_body hp),
    fun hp => step_sends hr ht hc (by simp [hp]) (Fcc.tx_bstuff hp)⟩

/-- Settles O15: the fold is the invariant's, of all `CH_LEN + 4` body bytes. -/
theorem checksumBytes : Obligations.ChecksumBytes := by
  rintro s u rfl hr ht hc
  refine ⟨fun hp hx => step_sends hr ht hc (by simp [hp]) (Fcc.tx_csum hp hx),
    fun hp hx => step_sends hr ht hc (by simp [hp]) (Fcc.tx_csum_esc hp hx),
    fun hp => step_sends hr ht hc (by simp [hp]) (Fcc.tx_cstuff hp), fun hinv hp => ?_⟩
  have htx := hinv.fcc.tx
  rw [Fcc.TxInv, hp] at htx
  obtain ⟨hidx, hxor⟩ := htx
  rw [hxor, Fcc.bodySent, hidx]

/-! ### The flush -/

/-- Settles O16. -/
theorem flushStartsDec : Obligations.FlushStartsDec := by
  refine ⟨fun f => ⟨beq_iff_eq, ?_⟩, ?_⟩
  · rw [Fcc.rxReady, bne_iff_ne]
    cases f.rxPhase <;> simp
  · rintro s u rfl hr hc
    have hstep := step_in_flush hr hc
    exact ⟨fun ha => hstep.trans (if_pos ha), fun ha => hstep.trans (if_neg (by simp [ha]))⟩

/-! ### DEC -/

/-! The registers behind a byte in each phase (R147 to R151). -/

theorem Fcc.rxNext_hunt_header {m : Nat} {b : Byte} {f : Fcc} (hp : f.rxPhase = .hunt) (h : f.rxHa = true ∧ b = 0xBB) :
    f.rxNext m b = { f with rxPhase := .len0 } := by
  rw [Fcc.rxNext, hp]
  exact if_pos (by simpa [headerSeen] using h)

theorem Fcc.rxNext_hunt_other {m : Nat} {b : Byte} {f : Fcc} (hp : f.rxPhase = .hunt)
    (h : ¬ (f.rxHa = true ∧ b = 0xBB)) : f.rxNext m b = { f with rxHa := b == 0xAA } := by
  rw [Fcc.rxNext, hp]
  exact if_neg (by simpa [headerSeen] using h)

theorem Fcc.rxNext_len0 {m : Nat} {b : Byte} {f : Fcc} (hp : f.rxPhase = .len0) :
    f.rxNext m b = { f with rxLen := le16 b (hi8 f.rxLen), rxPhase := .len1 } := by
  rw [Fcc.rxNext, hp]

/-- The registers with which the body starts (R149). -/
def Fcc.bodyStart (f : Fcc) (b : Byte) : Fcc :=
  { f with rxLen := le16 (lo8 f.rxLen) b, rxCnt := 0, rxPd := false, rxXor := 0x00 }

theorem Fcc.rxNext_len1_body {m : Nat} {b : Byte} {f : Fcc} (hp : f.rxPhase = .len1)
    (h : le16 (lo8 f.rxLen) b ≠ 0) : f.rxNext m b = { f.bodyStart b with rxPhase := .body } := by
  rw [Fcc.rxNext, hp]
  exact if_neg h

theorem Fcc.rxNext_len1_zero {m : Nat} {b : Byte} {f : Fcc} (hp : f.rxPhase = .len1)
    (h : le16 (lo8 f.rxLen) b = 0) : f.rxNext m b = (f.bodyStart b).evaluate m := by
  rw [Fcc.rxNext, hp]
  exact if_pos h

theorem Fcc.rxNext_body_partner {m : Nat} {b : Byte} {f : Fcc} (hp : f.rxPhase = .body)
    (h : f.rxPd = true ∧ b = 0x00) : f.rxNext m b = { f with rxPd := false } := by
  rw [Fcc.rxNext, hp]
  exact if_pos (by simpa [isPartner] using h)

theorem Fcc.rxNext_body_logical {m : Nat} {b : Byte} {f : Fcc} (hp : f.rxPhase = .body)
    (h : ¬ (f.rxPd = true ∧ b = 0x00)) (hn : f.rxCnt + 1 ≠ f.rxLen) : f.rxNext m b = f.accept m b := by
  rw [Fcc.rxNext, hp]
  exact (if_neg (by simpa [isPartner] using h)).trans (if_neg hn)

theorem Fcc.rxNext_body_last {m : Nat} {b : Byte} {f : Fcc} (hp : f.rxPhase = .body)
    (h : ¬ (f.rxPd = true ∧ b = 0x00)) (hn : f.rxCnt + 1 = f.rxLen) : f.rxNext m b = (f.accept m b).evaluate m := by
  rw [Fcc.rxNext, hp]
  exact (if_neg (by simpa [isPartner] using h)).trans (if_pos hn)

/-! The evaluation (R157 to R160). -/

/-- A length out of range is a FramingError (R157). -/
theorem Fcc.evaluate_framing {m : Nat} {f : Fcc} (h : f.rxLen.toNat < 6 ∨ m < f.rxLen.toNat) :
    f.evaluate m = f.raise .framing none := if_pos (by simpa [framingFails] using h)

/-- In range, with status 00, a nonzero fold is a ChecksumError (R159). -/
theorem Fcc.evaluate_checksum {m : Nat} {f : Fcc} (h : ¬ (f.rxLen.toNat < 6 ∨ m < f.rxLen.toNat))
    (hx : f.rxb.read 4 = 0x00 ∧ f.rxXor ≠ 0x00) : f.evaluate m = f.raise .checksum (some f.rxCommand) := by
  rw [Fcc.evaluate, if_neg (by simpa [framingFails] using h), if_pos (by simpa [checksumFails, Fcc.rxStatus] using hx)]

/-- In range, and the checksum right or not looked at, DEC ends OK (R160). -/
theorem Fcc.evaluate_decoded {m : Nat} {f : Fcc} (h : ¬ (f.rxLen.toNat < 6 ∨ m < f.rxLen.toNat))
    (hx : ¬ (f.rxb.read 4 = 0x00 ∧ f.rxXor ≠ 0x00)) : f.evaluate m = f.decoded := by
  rw [Fcc.evaluate, if_neg (by simpa [framingFails] using h), if_neg (by simpa [checksumFails, Fcc.rxStatus] using hx)]

/-- With a byte offered, a step in `C_RECV` takes it and DEC goes on (R52). -/
theorem step_takes {s : State} {b : Byte} {rest : List Byte} {f : Fcc} (hr : s.env.current.rst = false)
    (ho : s.env.current.offer = true) (hc : s.fcc.chPhase = .recv) (hp : s.fcc.rxPhase ≠ .idle)
    (hrx : (s.lineEvent s.env.current).line.rx = b :: rest) (h : s.fcc.rxNext s.cfg.rxBufMax b = f) :
    step s = .next { s.lineEvent s.env.current with
      fcc := f, line := { (s.lineEvent s.env.current).line with rx := rest } } := by
  subst h
  rw [step_in_recv hr hc hp, if_pos ho, State.takeByte_cons hrx]
  rfl

/-- Settles O17: a length of 0 is below 6, a FramingError. -/
theorem huntAndLengthBytes : Obligations.HuntAndLengthBytes := by
  rintro s u b rest rfl hr ho hc hrx
  refine ⟨fun hp hb => step_takes hr ho hc (by simp [hp]) hrx (Fcc.rxNext_hunt_header hp hb),
    fun hp hb => step_takes hr ho hc (by simp [hp]) hrx (Fcc.rxNext_hunt_other hp hb),
    fun hp => step_takes hr ho hc (by simp [hp]) hrx (Fcc.rxNext_len0 hp),
    fun hp hz => step_takes hr ho hc (by simp [hp]) hrx (Fcc.rxNext_len1_body hp hz),
    fun hp hz => step_takes hr ho hc (by simp [hp]) hrx ?_⟩
  have hlen : le16 (lo8 s.fcc.rxLen) b = 0 := hz
  rw [Fcc.rxNext_len1_zero hp hlen, Fcc.bodyStart, hlen]
  exact Fcc.evaluate_framing (.inl (show (0 : Word).toNat < 6 by decide))

/-- Settles O18. -/
theorem bodyByteReceived : Obligations.BodyByteReceived := by
  rintro s u b rest g rfl hr ho hc hp hrx rfl
  exact ⟨fun hb => step_takes hr ho hc (by simp [hp]) hrx (Fcc.rxNext_body_partner hp hb),
    fun hb hn => step_takes hr ho hc (by simp [hp]) hrx (Fcc.rxNext_body_logical hp hb hn),
    fun hb hn => step_takes hr ho hc (by simp [hp]) hrx (Fcc.rxNext_body_last hp hb hn)⟩

/-- Settles O19. -/
theorem evaluationOrder : Obligations.EvaluationOrder := by
  intro f m
  refine ⟨Fcc.evaluate_framing, Fcc.evaluate_checksum, fun h hx hop hcmd => ?_, fun h hx hop hcmd => ?_⟩
  · rw [Fcc.evaluate_decoded h hx]
    exact if_pos ⟨by simp [hop], hcmd⟩
  · rw [Fcc.evaluate_decoded h hx]
    exact if_neg fun hne => hne.2 hcmd

/-- DEC ends in a byte event in one of two ways: a length of 0, or the last body byte (R149, R151). -/
theorem Fcc.rxNext_ends {m : Nat} {b : Byte} {f : Fcc} (hc : f.chPhase = .recv) (hp : f.rxPhase ≠ .idle)
    (h : (f.rxNext m b).chPhase = .done) :
    (f.rxPhase = .len1 ∧ le16 (lo8 f.rxLen) b = 0 ∧ f.rxNext m b = (f.bodyStart b).evaluate m) ∨
      (f.rxPhase = .body ∧ f.rxNext m b = (f.accept m b).evaluate m) := by
  have goesOn : ∀ {g : Fcc}, f.rxNext m b = g → g.chPhase = .recv → False := by
    rintro g rfl hg
    rw [h] at hg
    cases hg
  cases hph : f.rxPhase with
  | idle => exact absurd hph hp
  | hunt =>
    by_cases hb : f.rxHa = true ∧ b = 0xBB
    · exact (goesOn (Fcc.rxNext_hunt_header hph hb) hc).elim
    · exact (goesOn (Fcc.rxNext_hunt_other hph hb) hc).elim
  | len0 => exact (goesOn (Fcc.rxNext_len0 hph) hc).elim
  | len1 =>
    by_cases hz : le16 (lo8 f.rxLen) b = 0
    · exact .inl ⟨rfl, hz, Fcc.rxNext_len1_zero hph hz⟩
    · exact (goesOn (Fcc.rxNext_len1_body hph hz) hc).elim
  | body =>
    by_cases hb : f.rxPd = true ∧ b = 0x00
    · exact (goesOn (Fcc.rxNext_body_partner hph hb) hc).elim
    · by_cases hn : f.rxCnt + 1 = f.rxLen
      · exact .inr ⟨rfl, Fcc.rxNext_body_last hph hb hn⟩
      · exact (goesOn (Fcc.rxNext_body_logical hph hb hn) hc).elim

/-- An error is raised without a command exactly if it is a FramingError (R241 to R243). -/
theorem Fcc.evaluate_raises {m : Nat} {g : Fcc} (h : (g.evaluate m).resKind ≠ .ok) :
    ∃ k c, g.evaluate m = g.raise k c ∧ (k = .framing → c = none) ∧ (k ≠ .framing → c = some g.rxCommand) := by
  rcases Fcc.evaluate_error h with he | ⟨k, hk, he⟩
  · exact ⟨_, _, he, fun _ => rfl, fun hk => absurd rfl hk⟩
  · exact ⟨k, _, he, fun hk' => absurd hk' hk, fun _ => rfl⟩

/-- Settles O20: the step took one byte, with which DEC ended, and the evaluation raised an error. -/
theorem errorEntry : Obligations.ErrorEntry := by
  rintro s t u rfl hr hc h hdone herr
  have hact : Acted (s.lineEvent s.env.current) t := by
    rcases step_cases h with ⟨hr', -⟩ | ⟨-, hact⟩
    · rw [hr] at hr'; cases hr'
    · exact hact
  cases hact with
  | @recv b rest _ hp hrx =>
    rcases Fcc.rxNext_ends (f := (s.lineEvent s.env.current).fcc) hc hp hdone with ⟨hph, hz, he⟩ | ⟨hph, he⟩
    · rw [he] at herr ⊢
      obtain ⟨k, c, hraise, hnone, hsome⟩ := Fcc.evaluate_raises herr
      rw [hraise]
      refine ⟨rfl, rfl, rfl, fun hk => ?_, fun hk => ?_, rfl, rfl, ⟨b, hrx⟩, rfl, rfl, rfl, rfl, rfl, rfl, rfl, rfl, rfl,
        rfl, rfl, rfl, rfl, rfl, .inl hph, fun _ => ⟨hz, rfl, rfl, rfl, rfl⟩, fun h => ?_⟩
      · rw [hnone hk]; rfl
      · rw [hsome hk]; rfl
      · exact absurd (hph.symm.trans h) (by decide)
    · rw [he] at herr ⊢
      obtain ⟨k, c, hraise, hnone, hsome⟩ := Fcc.evaluate_raises herr
      rw [hraise]
      refine ⟨rfl, rfl, rfl, fun hk => ?_, fun hk => ?_, rfl, rfl, ⟨b, hrx⟩, rfl, rfl, rfl, rfl, rfl, rfl, rfl, rfl, rfl,
        rfl, rfl, rfl, rfl, rfl, .inr hph, fun h => ?_, fun _ b' hb' => ?_⟩
      · rw [hnone hk]; rfl
      · rw [hsome hk]; rfl
      · exact absurd (hph.symm.trans h) (by decide)
      · obtain ⟨rfl, -⟩ := List.cons_eq_cons.1 (hrx.symm.trans hb')
        exact ⟨rfl, rfl, rfl, rfl, rfl⟩
  | still => exact absurd (hc.symm.trans hdone) (by decide)
  | host hc' => exact absurd (hc.symm.trans hc') (by decide)
  | send hc' => exact absurd (hc.symm.trans hc') (by decide)
  | flush hc' => exact absurd (hc.symm.trans hc') (by decide)
  | take hc' => exact absurd (hc.symm.trans hc') (by decide)

/-! ### The take event -/

/-- With no procedure in progress HOST reads the result and nothing else (log 22). -/
theorem HostAgent.afterResult_of_none {h : HostAgent} (hn : h.proc = none) (cfg : Config) (r : XferResult) :
    h.afterResult cfg r = { h with lastXfer := some r } := by
  unfold HostAgent.afterResult
  split
  · rfl
  · rename_i hp; rw [hn] at hp; cases hp

/-- Settles O21: HOST reads `readResult`, which depends on the kind. -/
theorem takingTheResult : Obligations.TakingTheResult := by
  rintro s u rfl hr hc
  have hstep := step_in_done hr hc
  refine ⟨fun ht => ⟨s.fcc.readResult, hstep.trans (if_pos ht), fun hk => ?_, fun hk => ?_, fun hk => ?_, fun hk => ?_,
    fun hn => ?_⟩, fun ht => hstep.trans (if_neg (by simp [ht]))⟩
  · rw [Fcc.readResult, hk]; rfl
  · rw [Fcc.readResult, hk]
  · rw [Fcc.readResult, hk]; rfl
  · rw [Fcc.readResult, hk]; rfl
  · exact HostAgent.afterResult_of_none hn _ _

/-! ### LINE, and partners that do not answer -/

/-- Behind the script the same input repeats (log 29). -/
theorem Env.advance_of_nil {e : Env} (h : e.script = []) : e.current = e.rest ∧ e.advance = e := by
  obtain ⟨script, rest⟩ := e
  subst h
  exact ⟨rfl, rfl⟩

theorem Env.advance_of_cons {e : Env} {x : Input} {xs : List Input} (h : e.script = x :: xs) :
    e.current = x ∧ e.advance = ⟨xs, e.rest⟩ := by
  obtain ⟨script, rest⟩ := e
  subst h
  exact ⟨rfl, rfl⟩

/-- Settles O22. -/
theorem blockedAgentsStay : Obligations.BlockedAgentsStay := by
  refine ⟨?_, ?_⟩
  · rintro s u rfl
    exact ⟨rfl, rfl, rfl, rfl, rfl, by simp, rfl, fun h => by simp [h], fun depth h => by simp [h],
      Env.advance_of_nil, fun x xs => Env.advance_of_cons⟩
  · rintro s u rfl hr hinv
    refine ⟨fun hc ht => ?_, fun hc ha => ?_, fun hc ho => ?_⟩
    · rw [step_in_send hr hc (hinv.fcc.txPhase.2 hc), if_neg (by simp [ht])]
    · rw [step_in_flush hr hc, if_neg (by simp [ha])]
    · rw [step_in_recv hr hc (hinv.fcc.rxPhase.2 hc)]
      rcases ho with ho | ho
      · rw [if_neg (by simp [ho])]
      · rw [State.takeByte_nil ho, ite_self]

/-! ### The output signals -/

/-- Settles O23. -/
theorem outputSignals : Obligations.OutputSignals := by
  intro f
  refine ⟨beq_iff_eq, bne_iff_ne, beq_iff_eq, bne_iff_ne, ?_, ?_, ?_, ?_, rfl, rfl, rfl, by simp [Fcc.rspData],
    fun i hi => by simp [Fcc.rspData, hi]⟩
  all_goals
    intro hk
    rw [Fcc.rspKind, hk]
    rfl

/-! ### Stuffing removal -/

/-- A byte that is not the partner of the byte before it is a logical byte (R143). -/
theorem takeBody_logical {pd : Bool} {b : Byte} (h : ¬ (pd = true ∧ b = 0x00)) (n : Nat) (t : List Byte) :
    takeBody (n + 1) pd (b :: t) = (takeBody n (b == 0xAA) t).map fun r => (b :: r.1, r.2) := by
  rw [takeBody, if_neg h]

/-- `AA` and its partner are one logical byte, if more is to come (R143). -/
theorem takeBody_esc (pd : Bool) (n : Nat) (t : List Byte) :
    takeBody (n + 2) pd (0xAA :: 0x00 :: t) = (takeBody (n + 1) false t).map fun r => (0xAA :: r.1, r.2) := by
  rw [takeBody_logical (by simp), show ((0xAA : Byte) == 0xAA) = true from rfl, takeBody, if_pos ⟨rfl, rfl⟩]

/-- Settles O33. -/
theorem stuffingRemovalCorners : Obligations.StuffingRemovalCorners := by
  refine ⟨fun n t x hx => ⟨?_, ?_, ?_, ?_, takeBody_logical (by simp) n t⟩, fun f m b hp hn =>
    ⟨fun hpd hb => Fcc.rxNext_body_partner hp ⟨hpd, hb⟩, fun hb => Fcc.rxNext_body_logical hp ?_ hn⟩⟩
  · rw [takeBody_logical (by simp), takeBody_logical fun h => hx h.2, Option.map_map]
    rfl
  · rw [takeBody_esc, takeBody_logical (by simp), Option.map_map]
    rfl
  · rw [takeBody_esc, takeBody_esc, Option.map_map]
    rfl
  · rw [takeBody_logical (by simp), takeBody_esc, Option.map_map]
    rfl
  · rintro ⟨hpd, rfl⟩
    rcases hb with hb | hb
    · rw [hpd] at hb; cases hb
    · exact hb rfl

end Sys2Proof.Machine
end

section
/-! SUPPORT. Whole operations, from the event that starts them to their end: ENCODE, DECODE, XFER, a frame that arrives, and
DECODE under any schedule of LINE (R110, R140, R163, R180). -/

namespace Sys2Proof.Machine

/-! ### ENCODE -/

/-- Settles O24: ENC hands over the frame (`emits_latch`), one step per byte (`run_of_emits`). -/
theorem encodeSendsTheFrame : Obligations.EncodeSendsTheFrame := by
  intro i command payload s hi hb he hcfg hw hl
  refine ⟨s.accepted .encode command payload, ?_,
    run_of_emits (emits_latch .encode command payload s.fcc hw (hl.trans hcfg.1)) rfl he rfl⟩
  rcases hi with rfl | rfl <;> exact exec_request_accepts hb rfl hl

/-! ### DECODE -/

/-- DEC started on what LINE holds, with partners that answer at once: it ends where DECODE ends (R140). -/
theorem run_decode_some {s : State} {r : DecodeResult} {rest : List Byte} (he : s.env = Env.ready)
    (hw : s.fcc.rxb.wf) (hc : s.fcc.chPhase = .recv) (hp : s.fcc.rxPhase = .hunt) (hha : s.fcc.rxHa = false)
    (h : decodeStream s.cfg.rxBufMax s.line.rx = some (r, rest)) :
    ∃ f : Fcc, run (s.line.rx.length - rest.length) s =
        .next { s with fcc := f, line := { s.line with rx := rest } } ∧
      f.chPhase = .done ∧ f.readResult = resultOf s.fcc.op s.fcc.chCmd r := by
  have hrun := run_of_takes s.line.rx rfl he hc (by simp [hp])
  have hdec := takes_decode s.cfg.rxBufMax s.line.rx s.fcc hw hc hp hha
  rw [h] at hdec
  obtain ⟨hrest, hdone, -, hres⟩ := hdec
  rw [hrest] at hrun
  exact ⟨_, hrun, hdone, hres⟩

/-- Where DECODE has no result, DEC takes every byte and is still asking (R165). -/
theorem run_decode_none {s : State} (he : s.env = Env.ready) (hw : s.fcc.rxb.wf) (hc : s.fcc.chPhase = .recv)
    (hp : s.fcc.rxPhase = .hunt) (hha : s.fcc.rxHa = false) (h : decodeStream s.cfg.rxBufMax s.line.rx = none) :
    ∃ f : Fcc, run s.line.rx.length s = .next { s with fcc := f, line := { s.line with rx := [] } } ∧
      f.chPhase = .recv ∧ f.rxPhase ≠ .idle := by
  have hrun := run_of_takes s.line.rx rfl he hc (by simp [hp])
  have hdec := takes_decode s.cfg.rxBufMax s.line.rx s.fcc hw hc hp hha
  rw [h] at hdec
  obtain ⟨hrest, hrecv, hrx⟩ := hdec
  rw [hrest] at hrun
  exact ⟨_, hrun, hrecv, hrx⟩

/-- A DEC that asks a LINE which holds nothing stays as it is (R165). -/
theorem step_stuck {s : State} (he : s.env = Env.ready) (hc : s.fcc.chPhase = .recv) (hp : s.fcc.rxPhase ≠ .idle)
    (hrx : s.line.rx = []) : step s = .next s := by
  rw [step_recv he hc hp, State.takeByte_nil hrx]

/-- Settles O25. -/
theorem decodeReadsTheStream : Obligations.DecodeReadsTheStream := by
  intro s hb he hw
  let t : State := { s with fcc := { s.fcc.receive with op := .decode } }
  refine ⟨t, if_neg (by simp [hb]), fun r rest h => ?_, fun h => ?_⟩
  · obtain ⟨f, hrun, hdone, hres⟩ := run_decode_some (s := t) he hw rfl rfl rfl h
    exact ⟨_, hrun, hdone, hres, rfl, rfl⟩
  · obtain ⟨f, hrun, hrecv, hrx⟩ := run_decode_none (s := t) he hw rfl rfl rfl h
    exact ⟨_, hrun, hrecv, rfl, step_stuck he hrecv hrx rfl⟩

/-! ### XFER -/

/-- The state in which an XFER's request has gone out and its DEC has started (R182, R183). -/
def State.requested (command : Word) (payload : List Byte) (s : State) : State :=
  let f := s.fcc.latch .xfer command payload
  { s with
    fcc := { f with txIdx := f.chLen + 4, txXor := checksum command payload }.encDone.receive
    line := { s.line with sent := s.line.sent ++ s.line.held ++ wire command payload, held := [],
                          flushes := s.line.flushes + 1 } }

/-- The bytes of ENCODE and one flush (R182, R183, R190 a, b). -/
theorem run_requested {s : State} (command : Word) {payload : List Byte} (he : s.env = Env.ready)
    (hw : s.fcc.txp.wf) (hl : payload.length ≤ 65530) :
    run ((wire command payload).length + 1) (s.accepted .xfer command payload) =
      .next (s.requested command payload) := by
  have hsend := run_of_emits (emits_latch .xfer command payload s.fcc hw hl)
    (s := s.accepted .xfer command payload) rfl he rfl
  rw [run_add_of_next _ 1 hsend, run_succ_of_next 0 (step_flush (by exact he) rfl), run_zero]
  simp only [State.requested, State.flushEvent, Line.flushed, List.append_assoc]
  rfl

/-- Settles O26: the frame and the flush, then DEC on what LINE holds. -/
theorem xferIsEncodeFlushDecode : Obligations.XferIsEncodeFlushDecode := by
  intro command payload s hb he hcfg hwt hwr hl
  have hsent := run_requested command he hwt (hl.trans hcfg.1)
  refine ⟨s.accepted .xfer command payload, exec_request_accepts hb rfl hl, fun r rest h => ?_, fun h => ?_⟩
  · obtain ⟨f, hrun, hdone, hres⟩ := run_decode_some (s := s.requested command payload) he hwr rfl rfl rfl h
    exact ⟨_, (run_add_of_next _ _ hsent).trans hrun, hdone, hres, rfl, rfl, rfl⟩
  · obtain ⟨f, hrun, hrecv, hrx⟩ := run_decode_none (s := s.requested command payload) he hwr rfl rfl rfl h
    exact ⟨_, (run_add_of_next _ _ hsent).trans hrun, hrecv, rfl, step_stuck he hrecv hrx rfl⟩

/-! ### Bytes that arrive -/

/-- Settles O27. -/
theorem frameInIsDecoded : Obligations.FrameInIsDecoded := by
  intro noise logical s hz hl he hd hw hc hp hha hrx
  have harrive : exec (.frameIn noise logical) s = .next (s.holding (inWire noise logical)) :=
    congrArg Host.Outcome.next (bytesArrive_unbounded hd _)
  have hstream : decodeStream s.cfg.rxBufMax (s.holding (inWire noise logical)).line.rx =
      some (evaluate s.cfg.rxBufMax logical, if logical.getLast? = some 0xAA then [0x00] else []) := by
    have h := decodeStream_inWire s.cfg.rxBufMax noise logical [] hz hl
    rw [List.append_nil, List.append_nil] at h
    rw [State.holding, hrx]
    exact h
  obtain ⟨f, hrun, hdone, hres⟩ := run_decode_some (s := s.holding (inWire noise logical)) he hw hc hp hha hstream
  exact ⟨_, harrive, _, _, hrun, hdone, hres, rfl⟩

theorem step_takes_ready {s : State} {b : Byte} {rest : List Byte} {f : Fcc} (he : s.env = Env.ready)
    (hc : s.fcc.chPhase = .recv) (hp : s.fcc.rxPhase ≠ .idle) (hrx : s.line.rx = b :: rest)
    (h : s.fcc.rxNext s.cfg.rxBufMax b = f) :
    step s = .next { s with fcc := f, line := { s.line with rx := rest } } := by
  rw [step_recv he hc hp, State.takeByte_cons hrx, h]

/-- Two bytes that arrive at an empty LINE are taken in two events, where DEC does not end with the first. -/
theorem run_two {s : State} {b0 b1 : Byte} {f g : Fcc} (he : s.env = Env.ready) (hc : s.fcc.chPhase = .recv)
    (hp : s.fcc.rxPhase ≠ .idle) (hrx : s.line.rx = []) (h0 : s.fcc.rxNext s.cfg.rxBufMax b0 = f)
    (hp' : f.rxPhase ≠ .idle) (h1 : f.rxNext s.cfg.rxBufMax b1 = g) :
    run 2 (s.holding [b0, b1]) = .next { s with fcc := g } := by
  have hc' : f.chPhase = .recv := by
    subst h0
    exact (Fcc.rxNext_chPhase hp').trans hc
  have hs : ({ s.line with rx := [] } : Line) = s.line := by rw [← hrx]
  have hstep0 := step_takes_ready (s := s.holding [b0, b1]) (b := b0) (rest := [b1]) he hc hp (by simp [State.holding, hrx]) h0
  rw [run_succ_of_next 1 hstep0, run_succ_of_next 0 (step_takes_ready (by exact he) hc' hp' rfl h1), run_zero]
  exact congrArg (fun l => Host.Outcome.next { s with fcc := g, line := l }) hs

/-- Settles O28. -/
theorem hdrAndEscAreTaken : Obligations.HdrAndEscAreTaken := by
  intro s he hd hc hrx
  refine ⟨fun hp => ⟨_, congrArg Host.Outcome.next (bytesArrive_unbounded hd _), ?_⟩,
    fun hp hpd hn => ⟨_, congrArg Host.Outcome.next (bytesArrive_unbounded hd _), ?_⟩⟩
  · exact run_two he hc (by simp [hp]) hrx (Fcc.rxNext_hunt_other hp (by simp)) (by simp [hp])
      (Fcc.rxNext_hunt_header hp ⟨rfl, rfl⟩)
  · exact run_two he hc (by simp [hp]) hrx (Fcc.rxNext_body_logical hp (by simp) hn) (by simp [hp])
      (Fcc.rxNext_body_partner hp ⟨rfl, rfl⟩)

/-! ### Any schedule -/

/-- Whatever arrives in a step without reset and take, DEC takes from it and what follows what it would have taken had all
of it been there before. -/
theorem step_takes_along {s u : State} (hr : s.env.current.rst = false) (ht : s.env.current.take = false)
    (hd : s.cfg.lineDepth = none) (hf : s.fcc.Receiving) (h : step s = .next u) :
    u.fcc.Receiving ∧ u.cfg = s.cfg ∧ u.env = s.env.advance ∧ ∀ (m : Nat) (more : List Byte), m = s.cfg.rxBufMax →
      u.fcc.takes m (u.line.rx ++ more) = s.fcc.takes m (s.line.rx ++ (s.env.current.arrive ++ more)) := by
  have hrx : (s.lineEvent s.env.current).line.rx = s.line.rx ++ s.env.current.arrive := by simp [hd]
  have still : ∀ (m : Nat) (more : List Byte), m = s.cfg.rxBufMax →
      s.fcc.takes m ((s.lineEvent s.env.current).line.rx ++ more) =
        s.fcc.takes m (s.line.rx ++ (s.env.current.arrive ++ more)) := by
    intro m more _
    rw [hrx, List.append_assoc]
  rcases hf with ⟨hc, hp⟩ | ⟨hc, hp⟩
  · rw [step_in_recv hr hc hp] at h
    split at h
    · cases h
      cases hl : (s.lineEvent s.env.current).line.rx with
      | nil => rw [State.takeByte_nil hl]; exact ⟨.inl ⟨hc, hp⟩, rfl, rfl, still⟩
      | cons b rest =>
        rw [State.takeByte_cons hl]
        refine ⟨Fcc.receiving_rxNext hc hp _ _, rfl, rfl, fun m more hm => ?_⟩
        rw [← still m more hm, hl, List.cons_append, Fcc.takes_cons _ _ _ hp, hm]
        rfl
    · cases h
      exact ⟨.inl ⟨hc, hp⟩, rfl, rfl, still⟩
  · rw [step_in_done hr hc, if_neg (by simp [ht])] at h
    cases h
    exact ⟨.inr ⟨hc, hp⟩, rfl, rfl, still⟩

theorem run_takes_along {xs : List Input} {s t : State} (hx : s.env.script = xs)
    (hi : ∀ x ∈ xs, x.rst = false ∧ x.take = false) (hd : s.cfg.lineDepth = none) (hf : s.fcc.Receiving)
    (h : run xs.length s = .next t) :
    t.fcc.Receiving ∧
      t.fcc.takes s.cfg.rxBufMax t.line.rx = s.fcc.takes s.cfg.rxBufMax (s.line.rx ++ arrivals xs) := by
  induction xs generalizing s with
  | nil => cases h; exact ⟨hf, by simp [arrivals]⟩
  | cons x xs ih =>
    obtain ⟨u, hu, hut⟩ := run_succ_cases h
    obtain ⟨hcur, hadv⟩ := Env.advance_of_cons hx
    obtain ⟨hr, ht⟩ := hi x (by simp)
    obtain ⟨huf, hucfg, huenv, htakes⟩ := step_takes_along (by rw [hcur]; exact hr) (by rw [hcur]; exact ht) hd hf hu
    have hrec := ih (s := u) (by rw [huenv, hadv]) (fun y hy => hi y (by simp [hy])) (by rw [hucfg]; exact hd) huf hut
    rw [hucfg, htakes _ _ rfl, hcur] at hrec
    exact hrec

/-- Settles O29: an ended DEC takes nothing more, so what it has taken is what it takes of all bytes at once. -/
theorem decodeIsScheduleIndependent : Obligations.DecodeIsScheduleIndependent := by
  intro xs s t hx hd hw hc hp hha hi h hdone
  obtain ⟨hrec, htakes⟩ := run_takes_along hx hi hd (.inl ⟨hc, by simp [hp]⟩) h
  have hidle : t.fcc.rxPhase = .idle := by
    rcases hrec with ⟨hrecv, -⟩ | ⟨-, hidle⟩
    · rw [hdone] at hrecv; cases hrecv
    · exact hidle
  rw [Fcc.takes_idle _ _ hidle] at htakes
  have hdec := takes_decode s.cfg.rxBufMax (s.line.rx ++ arrivals xs) s.fcc hw hc hp hha
  rw [← htakes] at hdec
  cases hs : decodeStream s.cfg.rxBufMax (s.line.rx ++ arrivals xs) with
  | some x =>
    rw [hs] at hdec
    obtain ⟨hrest, -, -, hres⟩ := hdec
    exact ⟨x.1, x.2, rfl, hrest, hres⟩
  | none =>
    rw [hs] at hdec
    obtain ⟨-, hrecv, -⟩ := hdec
    rw [hdone] at hrecv
    cases hrecv

end Sys2Proof.Machine
end

section
/-! SUPPORT. HOST's procedures: what one result does, by the XFER it belongs to, and the runs of results of 43_host_session.md
section 3. -/

namespace Sys2Proof.Machine

/-! ### The XFERs of a procedure -/

theorem authRequest_eq (slot : KeySlot) (sector : Nat) (key : List Byte) :
    auth2Payload slot sector key = authRequest slot sector key := by
  cases slot <;> rfl

/-- Settles O41. -/
theorem procedurePayloads : Obligations.ProcedurePayloads := by
  intro cfg cardType serial slot sector block key data amount
  exact ⟨rfl, rfl, fun h => if_pos h, fun h => if_neg h, rfl, congrArg _ (authRequest_eq slot sector key),
    congrArg _ (authRequest_eq slot sector key), rfl, rfl, rfl, rfl, rfl, rfl⟩

/-- Settles O42. -/
theorem procedurePresentsItsNextXfer : Obligations.ProcedurePresentsItsNextXfer := by
  rintro s u p rfl hr hp hc hproc hl
  rw [step_phase hr, phaseEvent_idle (by exact hc), if_pos hp, hostEvent, State.lineEvent_host, hproc]
  exact presentRequest_accepts (s := s.lineEvent s.env.current) .xfer hl

/-! ### One result -/

/-- A procedure in progress goes on with the result HOST has read (R188). -/
theorem HostAgent.afterResult_of_proc {h : HostAgent} {p : Proc} (hp : h.proc = some p) (cfg : Config)
    (r : XferResult) : h.afterResult cfg r = ({ h with lastXfer := some r } : HostAgent).advance cfg p r := by
  unfold HostAgent.afterResult
  split
  · rename_i hn; rw [hp] at hn; cases hn
  · rename_i q hq; rw [hp] at hq; cases hq; rfl

theorem HostAgent.proceed_cons (cfg : Config) (p : Proc) (a : Act) (rest : List Act) (st : Byte) (d : List Byte)
    (h : HostAgent) : h.proceed cfg p (a :: rest) st d = { h with proc := some { p with act := a, rest := rest } } := rfl

theorem HostAgent.proceed_nil (cfg : Config) (p : Proc) (st : Byte) (d : List Byte) (h : HostAgent) :
    h.proceed cfg p [] st d = h.complete cfg p st d := rfl

theorem HostAgent.begin_dumpSector (cfg : Config) (key : List Byte) (sector : Nat) (later : List Nat)
    (got : List (Nat × List Byte)) (h : HostAgent) : h.begin (dumpSector cfg key sector later got) =
      { h with proc := some (dumpSector cfg key sector later got), session := .idle, card := none, outcome := none } :=
  if_pos rfl

/-- How a procedure goes on or ends does not depend on where it was. -/
theorem HostAgent.complete_withProc (cfg : Config) (p : Proc) (st : Byte) (d : List Byte) (h : HostAgent)
    (q : Option Proc) : ({ h with proc := q } : HostAgent).complete cfg p st d = h.complete cfg p st d := by
  unfold HostAgent.complete
  split
  case h_8 key sector later got _ =>
    cases later with
    | nil => rfl
    | cons n l => simp only [HostAgent.nextSector, HostAgent.begin_dumpSector]
  all_goals rfl

theorem HostAgent.proceed_congr {cfg : Config} {p : Proc} {acts : List Act} {st : Byte} {d : List Byte}
    {g h : HostAgent} (hgh : ({ g with proc := none } : HostAgent) = { h with proc := none }) :
    g.proceed cfg p acts st d = h.proceed cfg p acts st d := by
  cases acts with
  | nil => rw [HostAgent.proceed_nil, HostAgent.proceed_nil, ← HostAgent.complete_withProc cfg p st d g none, hgh,
      HostAgent.complete_withProc]
  | cons a rest => exact congrArg (fun k : HostAgent => { k with proc := some { p with act := a, rest := rest } }) hgh

/-- Either the XFER's operation fails, or the procedure goes on, whatever the session becomes: a result without an error of
FCC, but for a try of `findKeys`. -/
theorem HostAgent.onOk_cases (cfg : Config) {p : Proc} (hn : ∀ sl n k, p.act ≠ .probe sl n k) (st : Byte) (d : List Byte)
    (h : HostAgent) : (∃ e, h.onOk cfg p st d = h.fail cfg p e) ∨
      ∃ (g : HostAgent) (q : Proc) (acts : List Act), g.outcome = h.outcome ∧ q.goal = p.goal ∧
        h.onOk cfg p st d = g.proceed cfg q acts st d := by
  unfold HostAgent.onOk
  split
  case h_12 hp => exact absurd hp (hn _ _ _)
  case h_4 => exact .inr ⟨_, _, _, by rfl, by rfl, rfl⟩
  all_goals
    split
    · exact .inr ⟨_, _, _, by rfl, by rfl, rfl⟩
    · exact .inl ⟨_, rfl⟩

section Steps

variable {cfg : Config} {h : HostAgent} {goal : Goal} {rest : List Act} {data : List Byte}

theorem HostAgent.afterResult_request (hp : h.proc = some ⟨goal, .request, rest, data⟩) (c : Word) (d : List Byte) :
    h.afterResult cfg (.ok c 0x00 d) = { h with
      proc := some ⟨goal, .anticoll (cardTypeOf cfg d), rest, data⟩, session := .requested (cardTypeOf cfg d),
      lastXfer := some (.ok c 0x00 d) } := by
  rw [HostAgent.afterResult_of_proc hp]
  rfl

theorem HostAgent.afterResult_anticoll {t : Word} (hp : h.proc = some ⟨goal, .anticoll t, rest, data⟩) (c : Word)
    (d : List Byte) : h.afterResult cfg (.ok c 0x00 d) = { h with
      proc := some ⟨goal, .third t d, rest, data⟩, session := .anticollided d, lastXfer := some (.ok c 0x00 d) } := by
  rw [HostAgent.afterResult_of_proc hp]
  rfl

theorem HostAgent.afterResult_third {t : Word} {sn : List Byte} (hp : h.proc = some ⟨goal, .third t sn, rest, data⟩)
    (c : Word) (d : List Byte) : h.afterResult cfg (.ok c 0x00 d) =
      ({ h with session := .selected t (if t = cfg.cardTypes.ultralight then d else sn),
                card := some ⟨t, if t = cfg.cardTypes.ultralight then d else sn⟩,
                lastXfer := some (.ok c 0x00 d) } : HostAgent).proceed cfg ⟨goal, .third t sn, rest, data⟩ rest 0x00 d := by
  rw [HostAgent.afterResult_of_proc hp]
  simp only [HostAgent.advance, HostAgent.onOk, statusOk, true_or, if_true]
  rfl

theorem HostAgent.afterResult_auth {sl : KeySlot} {n : Nat} {k : List Byte}
    (hp : h.proc = some ⟨goal, .auth sl n k, rest, data⟩) (c : Word) (d : List Byte) :
    h.afterResult cfg (.ok c 0x00 d) = ({ h with
      session := .authenticated n, lastXfer := some (.ok c 0x00 d) } : HostAgent).proceed cfg
        ⟨goal, .auth sl n k, rest, data⟩ rest 0x00 d := by
  rw [HostAgent.afterResult_of_proc hp]
  rfl

theorem HostAgent.afterResult_read {n b : Nat} (hp : h.proc = some ⟨goal, .read n b, rest, data⟩) (c : Word)
    (d : List Byte) : h.afterResult cfg (.ok c 0x00 d) =
      ({ h with lastXfer := some (.ok c 0x00 d) } : HostAgent).proceed cfg
        ⟨goal, .read n b, rest, data ++ d⟩ rest 0x00 d := by
  rw [HostAgent.afterResult_of_proc hp]
  rfl

/-- A try that succeeds: the key is recorded, and the slot is tried no further (R230). -/
theorem HostAgent.afterResult_probe_found {sl : KeySlot} {n : Nat} {k : List Byte}
    (hp : h.proc = some ⟨goal, .probe sl n k, rest, data⟩) (c : Word) (d : List Byte) :
    h.afterResult cfg (.ok c 0x00 d) = ({ h with lastXfer := some (.ok c 0x00 d) } : HostAgent).proceed cfg
      ⟨goal.found sl k, .probe sl n k, rest, data⟩ (rest.filter fun a => !a.probes sl) 0x00 d := by
  rw [HostAgent.afterResult_of_proc hp]
  rfl

/-- A try that fails is reported, and the next one follows (R230). -/
theorem HostAgent.afterResult_probe_failed {sl : KeySlot} {n : Nat} {k : List Byte} {st : Byte}
    (hp : h.proc = some ⟨goal, .probe sl n k, rest, data⟩) (hs : st ≠ 0x00) (c : Word) (d : List Byte) :
    h.afterResult cfg (.ok c st d) =
      ({ h with lastXfer := some (.ok c st d), reports := h.reports ++ [(sl, k)] } : HostAgent).proceed cfg
        ⟨goal, .probe sl n k, rest, data⟩ rest st d := by
  rw [HostAgent.afterResult_of_proc hp]
  exact if_neg hs

/-- `select()` with three results OK (R210). -/
theorem HostAgent.afterResults_select (hp : h.proc = some ⟨goal, .request, rest, data⟩) (c1 c2 c3 : Word)
    {d1 d2 d3 serial : List Byte} (hs : serial = if cardTypeOf cfg d1 = cfg.cardTypes.ultralight then d3 else d2) :
    h.afterResults cfg [.ok c1 0x00 d1, .ok c2 0x00 d2, .ok c3 0x00 d3] =
      ({ h with session := .selected (cardTypeOf cfg d1) serial, card := some ⟨cardTypeOf cfg d1, serial⟩,
                lastXfer := some (.ok c3 0x00 d3) } : HostAgent).proceed cfg
        ⟨goal, .third (cardTypeOf cfg d1) d2, rest, data⟩ rest 0x00 d3 := by
  subst hs
  rw [HostAgent.afterResults_cons, HostAgent.afterResult_request hp, HostAgent.afterResults_cons,
    HostAgent.afterResult_anticoll rfl, HostAgent.afterResults_cons, HostAgent.afterResult_third rfl,
    HostAgent.afterResults_nil]
  exact HostAgent.proceed_congr rfl

end Steps

/-- Settles O43. -/
theorem selectRun : Obligations.SelectRun := by
  intro cfg h goal rest c1 c2 c3 d1 d2 d3 serial data hp hs
  have hrun := HostAgent.afterResults_select hp c1 c2 c3 hs
  refine ⟨?_, ?_, ?_, ?_⟩
  · rw [HostAgent.afterResult_request hp]
  · rw [HostAgent.afterResults_cons, HostAgent.afterResult_request hp, HostAgent.afterResults_cons,
      HostAgent.afterResult_anticoll rfl]
    rfl
  · rintro rfl rfl
    exact hrun
  · rintro a more rfl
    exact hrun

/-- Settles O44. -/
theorem haltReports : Obligations.HaltReports := by
  intro cfg h c status data d
  refine ⟨rfl, fun hp => ?_⟩
  rw [HostAgent.afterResult_of_proc hp]
  rfl

/-- Settles O45. -/
theorem authenticatedRuns : Obligations.AuthenticatedRuns := by
  intro cfg h slot sector block key data d1 d2 amount c1 c2
  refine ⟨fun hp => ?_, fun hp => ?_, fun hp => ?_, fun op a hmem hp => ?_⟩
  · exact HostAgent.afterResult_auth hp c1 d1
  · exact HostAgent.afterResult_read hp c1 d1
  · rw [HostAgent.afterResults_cons, HostAgent.afterResult_auth hp, HostAgent.proceed_cons, HostAgent.afterResults_cons,
      HostAgent.afterResult_of_proc rfl]
    rfl
  · rw [HostAgent.afterResults_cons, HostAgent.afterResult_auth hp, HostAgent.proceed_cons, HostAgent.afterResults_cons,
      HostAgent.afterResult_of_proc rfl]
    simp only [List.mem_cons, Prod.mk.injEq, List.not_mem_nil, or_false] at hmem
    rcases hmem with ⟨rfl, rfl⟩ | ⟨rfl, rfl⟩ | ⟨rfl, rfl⟩ | ⟨rfl, rfl⟩ <;> rfl

/-! ### Failures -/

/-- Settles O47: by the XFER of the procedure, each of which fails on a nonzero status. -/
theorem nonzeroStatusIsSurfaced : Obligations.NonzeroStatusIsSurfaced := by
  intro cfg h p c status data e hp hst hd he
  have hfail := HostAgent.fail_of_not_dump (cfg := cfg) hd e { h with lastXfer := some (.ok c status data) }
  rw [HostAgent.afterResult_of_proc hp]
  refine Eq.trans ?_ hfail
  change HostAgent.onOk cfg p status data _ = _
  unfold HostAgent.onOk
  cases ha : p.act <;> rw [ha] at he
  case third => exact he.elim
  case halt => exact he.elim
  case probe => exact he.elim
  all_goals
    subst he
    exact if_neg hst

/-- HOST goes on with an error of FCC whichever of the three it is (R251). -/
theorem HostAgent.afterResult_error {cfg : Config} {h : HostAgent} {p : Proc} {c : Word} {r : XferResult} {e : HostError}
    (hp : h.proc = some p)
    (hr : (r, e) ∈ [(XferResult.framing, HostError.framing), (.checksum c, .checksum), (.mismatch c, .mismatch)]) :
    h.afterResult cfg r = ({ h with lastXfer := some r } : HostAgent).onError cfg p e := by
  rw [HostAgent.afterResult_of_proc hp]
  simp only [List.mem_cons, Prod.mk.injEq, List.not_mem_nil, or_false] at hr
  rcases hr with ⟨rfl, rfl⟩ | ⟨rfl, rfl⟩ | ⟨rfl, rfl⟩ <;> rfl

/-- Where the configuration does not let `findKeys` go on, an error of FCC is a failure in a try as elsewhere (log 16). -/
theorem HostAgent.onError_fails {cfg : Config} {p : Proc}
    (h1 : (∀ sl n k, p.act ≠ .probe sl n k) ∨ cfg.findKeysGoesOn = false) (e : HostError) (h : HostAgent) :
    h.onError cfg p e = h.fail cfg p e := by
  unfold HostAgent.onError
  split
  · rename_i ha
    rcases h1 with h1 | h1
    · exact absurd ha (h1 _ _ _)
    · rw [if_neg (by simp [h1])]
  · rfl

/-- Settles O48. -/
theorem fccErrorsPropagate : Obligations.FccErrorsPropagate := by
  intro cfg h p c r e hp hd hr
  rw [HostAgent.afterResult_error hp hr]
  refine ⟨fun h1 => ?_, fun sl n k ha hgo => ?_⟩
  · rw [HostAgent.onError_fails h1, HostAgent.fail_of_not_dump hd]
    rfl
  · have hgoes : ({ h with lastXfer := some r } : HostAgent).onError cfg p e =
        (({ h with lastXfer := some r } : HostAgent).report sl k).proceed cfg p p.rest 0 [] := by
      rw [HostAgent.onError, ha]
      exact if_pos hgo
    rw [hgoes]
    refine ⟨fun a rest hrest => ?_, fun keyA keyB hrest hgoal => ?_⟩
    · rw [hrest]
      rfl
    · rw [hrest, HostAgent.proceed_nil, HostAgent.complete, hgoal]
      rfl

/-! ### The reads of a sector -/

/-- The last result read, where one more was read before. -/
theorem getLast?_cons_or (r : XferResult) (rs : List XferResult) (l : Option XferResult) :
    (rs.getLast?).or (some r) = ((r :: rs).getLast?).or l := by
  rw [List.getLast?_cons]
  cases rs.getLast? <;> rfl

/-- What HOST reads of blocks read without an error: command and data of each. -/
def readResults (datas : List (Word × List Byte)) : List XferResult := datas.map fun d => .ok d.1 0x00 d.2

/-- Blocks read in turn: their data are gathered in order, and the procedure goes on with the blocks left (R214). -/
theorem HostAgent.afterResults_reads (cfg : Config) (sector : Nat) (datas : List (Word × List Byte)) :
    ∀ (blocks : List Nat) (h : HostAgent) (p : Proc) (st : Byte) (d : List Byte), datas.length ≤ blocks.length →
      ∃ (q : Proc) (st' : Byte) (d' : List Byte), q.goal = p.goal ∧
        q.data = p.data ++ (datas.map Prod.snd).flatten ∧
        (h.proceed cfg p (blocks.map (.read sector)) st d).afterResults cfg (readResults datas) =
          ({ h with lastXfer := (readResults datas).getLast?.or h.lastXfer } : HostAgent).proceed cfg q
            ((blocks.drop datas.length).map (.read sector)) st' d' := by
  induction datas with
  | nil =>
    intro blocks h p st d _
    exact ⟨p, st, d, rfl, by simp, rfl⟩
  | cons x datas ih =>
    intro blocks h p st d hlen
    cases blocks with
    | nil => simp at hlen
    | cons b blocks =>
      obtain ⟨q, st', d', hgoal, hdata, hrun⟩ := ih blocks
        { h with proc := some ⟨p.goal, .read sector b, blocks.map (.read sector), p.data⟩,
                 lastXfer := some (.ok x.1 0x00 x.2) }
        ⟨p.goal, .read sector b, blocks.map (.read sector), p.data ++ x.2⟩ 0x00 x.2 (by simpa using hlen)
      refine ⟨q, st', d', hgoal, by simp [hdata], ?_⟩
      rw [List.map_cons, HostAgent.proceed_cons, readResults, List.map_cons, HostAgent.afterResults_cons,
        HostAgent.afterResult_read rfl]
      refine hrun.trans ?_
      rw [getLast?_cons_or _ _ h.lastXfer]
      exact HostAgent.proceed_congr rfl

/-- A sector authenticated, then its blocks read in turn (R214). -/
theorem HostAgent.afterResults_auth_reads {cfg : Config} {h : HostAgent} {goal : Goal} {sl : KeySlot} {sector : Nat}
    {key data : List Byte} {blocks : List Nat}
    (hp : h.proc = some ⟨goal, .auth sl sector key, blocks.map (.read sector), data⟩) (c : Word) (d : List Byte)
    {datas : List (Word × List Byte)} (hlen : datas.length ≤ blocks.length) :
    ∃ (q : Proc) (st' : Byte) (d' : List Byte), q.goal = goal ∧ q.data = data ++ (datas.map Prod.snd).flatten ∧
      h.afterResults cfg (.ok c 0x00 d :: readResults datas) = ({ h with
        session := .authenticated sector,
        lastXfer := (.ok c 0x00 d :: readResults datas).getLast? } : HostAgent).proceed cfg q
          ((blocks.drop datas.length).map (.read sector)) st' d' := by
  obtain ⟨q, st', d', hgoal, hdata, hrun⟩ := HostAgent.afterResults_reads cfg sector datas blocks
    { h with session := .authenticated sector, lastXfer := some (.ok c 0x00 d) }
    ⟨goal, .auth sl sector key, blocks.map (.read sector), data⟩ 0x00 d hlen
  refine ⟨q, st', d', hgoal, hdata, ?_⟩
  rw [HostAgent.afterResults_cons, HostAgent.afterResult_auth hp, hrun, getLast?_cons_or _ _ none, Option.or_none]

/-- Settles O46: behind the last block the procedure is complete; a block that fails is one of those left. -/
theorem readSectorRun : Obligations.ReadSectorRun := by
  rintro cfg h sector key d0 blocks c0 datas r0 rfl hp
  refine ⟨fun hlen => ?_, fun c status d hlen hst => ?_⟩
  · obtain ⟨q, st', d', hgoal, hdata, hrun⟩ := HostAgent.afterResults_auth_reads (cfg := cfg) hp c0 d0 hlen.le
    refine ⟨(readResults datas).getLast?.getD (.ok c0 0x00 d0), hrun.trans ?_⟩
    rw [hlen, List.drop_length, List.map_nil, HostAgent.proceed_nil, HostAgent.complete, hgoal, hdata, List.getLast?_cons]
    rfl
  · obtain ⟨q, st', d', hgoal, hdata, hrun⟩ := HostAgent.afterResults_auth_reads (cfg := cfg) hp c0 d0 hlen.le
    obtain ⟨b, more, hdrop⟩ := List.exists_cons_of_ne_nil (mt List.drop_eq_nil_iff.1 hlen.not_ge)
    have hfail := HostAgent.fail_of_not_dump (cfg := cfg)
      (p := { q with act := .read sector b, rest := more.map (.read sector) })
      (by intro k n l g hg; exact absurd (hgoal.symm.trans hg) (by simp)) (.read status)
    rw [hdrop, List.map_cons, HostAgent.proceed_cons] at hrun
    change h.afterResults cfg ((.ok c0 0x00 d0 :: readResults datas) ++ [.ok c status d]) = _
    rw [HostAgent.afterResults_append, hrun, HostAgent.afterResults_cons, HostAgent.afterResults_nil,
      HostAgent.afterResult_of_proc rfl]
    exact (if_neg hst).trans (hfail _)

/-! ### dump -/

section Dump

variable {cfg : Config} {key : List Byte} {sector : Nat} {later : List Nat} {got : List (Nat × List Byte)}

/-- Behind the last sector `dump` ends with what it has (R222). -/
theorem HostAgent.nextSector_nil (h : HostAgent) :
    h.nextSector cfg key [] got = { h with proc := none, outcome := some (.dumped got) } := rfl

/-- Behind another sector `dump` begins the next one, with `select()` (R222). -/
theorem HostAgent.nextSector_cons (h : HostAgent) (next : Nat) (more : List Nat) :
    h.nextSector cfg key (next :: more) got = { h with
      proc := some ⟨.dump key next more got, .request, .auth .A next key :: cfg.dumpBlocks.map (fun b => .read next b), []⟩,
      session := .idle, card := none, outcome := none } :=
  HostAgent.begin_dumpSector cfg key next more got h

theorem HostAgent.complete_dump {h : HostAgent} {p : Proc} (hp : p.goal = .dump key sector later got) {st : Byte}
    {d : List Byte} : h.complete cfg p st d = h.nextSector cfg key later (got ++ [(sector, p.data)]) := by
  rw [HostAgent.complete, hp]

/-- `dump` goes on with this list, or has ended with it. -/
def HostAgent.Dumping (key : List Byte) (got : List (Nat × List Byte)) (h : HostAgent) : Prop :=
  (∃ s l a acts d, h.proc = some ⟨.dump key s l got, a, acts, d⟩ ∧ h.outcome = none) ∨
    (h.proc = none ∧ h.outcome = some (.dumped got))

theorem HostAgent.dumping_nextSector (h : HostAgent) : (h.nextSector cfg key later got).Dumping key got := by
  cases later with
  | nil => exact .inr ⟨rfl, rfl⟩
  | cons next more => rw [HostAgent.nextSector_cons]; exact .inl ⟨_, _, _, _, _, rfl, rfl⟩

/-- A dump that goes on has its list as it was, or with the sector it has read. -/
theorem HostAgent.dumping_proceed {h : HostAgent} {p : Proc} (hp : p.goal = .dump key sector later got)
    (ho : h.outcome = none) (acts : List Act) (st : Byte) (d : List Byte) :
    ∃ got', (got' = got ∨ ∃ d, got' = got ++ [(sector, d)]) ∧ (h.proceed cfg p acts st d).Dumping key got' := by
  cases acts with
  | nil =>
    refine ⟨got ++ [(sector, p.data)], .inr ⟨_, rfl⟩, ?_⟩
    rw [HostAgent.proceed_nil, HostAgent.complete_dump hp]
    exact HostAgent.dumping_nextSector h
  | cons a rest =>
    obtain ⟨goal, act, rest', data⟩ := p
    cases hp
    exact ⟨got, .inl rfl, .inl ⟨_, _, _, _, _, rfl, ho⟩⟩

theorem HostAgent.dumping_fail {h : HostAgent} {p : Proc} (hp : p.goal = .dump key sector later got) (e : HostError) :
    (h.fail cfg p e).Dumping key got := by
  rw [HostAgent.fail_of_dump hp]
  exact HostAgent.dumping_nextSector _

end Dump

/-- But in a try of `findKeys` an error of FCC is a failure of the XFER's operation (R251). -/
theorem HostAgent.afterResult_fails {cfg : Config} {h : HostAgent} {p : Proc} {r : XferResult} (hp : h.proc = some p)
    (hn : ∀ sl n k, p.act ≠ .probe sl n k) (hr : r = .framing ∨ (∃ c, r = .checksum c) ∨ ∃ c, r = .mismatch c) :
    ∃ e, h.afterResult cfg r = ({ h with lastXfer := some r } : HostAgent).fail cfg p e := by
  rw [HostAgent.afterResult_of_proc hp]
  rcases hr with rfl | ⟨c, rfl⟩ | ⟨c, rfl⟩
  · exact ⟨.framing, HostAgent.onError_fails (.inl hn) _ _⟩
  · exact ⟨.checksum, HostAgent.onError_fails (.inl hn) _ _⟩
  · exact ⟨.mismatch, HostAgent.onError_fails (.inl hn) _ _⟩

/-- Whatever HOST has read, a dump goes on or has ended with its list, with the sector or without. -/
theorem HostAgent.dumping_afterResult {cfg : Config} {h : HostAgent} {p : Proc} {key : List Byte} {sector : Nat}
    {later : List Nat} {got : List (Nat × List Byte)} (hp : h.proc = some p) (hd : p.goal = .dump key sector later got)
    (hn : ∀ sl n k, p.act ≠ .probe sl n k) (ho : h.outcome = none) (r : XferResult) :
    ∃ got', (got' = got ∨ ∃ d, got' = got ++ [(sector, d)]) ∧ (h.afterResult cfg r).Dumping key got' := by
  have hfail : ∀ e, h.afterResult cfg r = ({ h with lastXfer := some r } : HostAgent).fail cfg p e →
      ∃ got', (got' = got ∨ ∃ d, got' = got ++ [(sector, d)]) ∧ (h.afterResult cfg r).Dumping key got' :=
    fun e he => ⟨got, .inl rfl, he ▸ HostAgent.dumping_fail hd e⟩
  cases r with
  | framing => exact (HostAgent.afterResult_fails hp hn (.inl rfl)).elim hfail
  | checksum c => exact (HostAgent.afterResult_fails hp hn (.inr (.inl ⟨c, rfl⟩))).elim hfail
  | mismatch c => exact (HostAgent.afterResult_fails hp hn (.inr (.inr ⟨c, rfl⟩))).elim hfail
  | ok c status d =>
    have hok : h.afterResult cfg (.ok c status d) =
        ({ h with lastXfer := some (.ok c status d) } : HostAgent).onOk cfg p status d := HostAgent.afterResult_of_proc hp _ _
    rcases HostAgent.onOk_cases cfg hn status d { h with lastXfer := some (.ok c status d) } with
      ⟨e, he⟩ | ⟨g, q, acts, hg, hq, he⟩
    · exact hfail e (hok.trans he)
    · rw [hok, he]
      exact HostAgent.dumping_proceed (hq.trans hd) (hg.trans ho) acts status d

/-- Settles O49: a failure is `nextSector` with the list as it is, a sector read `nextSector` with it added. -/
theorem dumpNeverFails : Obligations.DumpNeverFails := by
  intro cfg h skipped key sector later got act rest data r hp hn ho hskip
  have hfail (e : HostError) : ({ h with lastXfer := some r } : HostAgent).fail cfg
      ⟨.dump key sector later got, act, rest, data⟩ e = skipped := by
    rw [HostAgent.fail_of_dump rfl, hskip]
    cases later with
    | nil => rfl
    | cons next more => exact HostAgent.nextSector_cons _ next more
  refine ⟨fun hr => ?_, fun c status d hr hst ha => ?_, fun c d n b hr ha => ?_,
    HostAgent.dumping_afterResult hp rfl hn ho r⟩
  · obtain ⟨e, he⟩ := HostAgent.afterResult_fails hp hn hr
    exact he.trans (hfail e)
  · subst hr
    rw [HostAgent.afterResult_of_proc hp]
    rcases ha with rfl | ⟨t, rfl⟩ | ⟨t, sn, rfl, hthird⟩ | ⟨sl, n, k, rfl⟩ | ⟨n, b, rfl⟩
    case inr.inr.inl => exact (if_neg (by simp [hthird]; exact hst)).trans (hfail _)
    all_goals exact (if_neg hst).trans (hfail _)
  · subst hr ha
    rw [HostAgent.afterResult_read hp]
    refine ⟨?_, ?_, ?_⟩
    · rintro a more rfl
      rfl
    · rintro rfl rfl
      rfl
    · rintro next more rfl rfl
      rw [HostAgent.proceed_nil, HostAgent.complete_dump rfl, HostAgent.nextSector_cons]

/-- Settles O50: `select()`, the authentication, the reads, then the sector is added. -/
theorem dumpSectorRun : Obligations.DumpSectorRun := by
  rintro cfg h key d1 d2 d3 d4 serial sectorData c1 c2 c3 c4 sector later got datas rs hp hlen hs rfl rfl
  have hsel := HostAgent.afterResults_select (cfg := cfg) hp c1 c2 c3 hs
  rw [HostAgent.proceed_cons] at hsel
  obtain ⟨q, st', d', hgoal, hdata, hrun⟩ := HostAgent.afterResults_auth_reads (cfg := cfg)
    (h := { h with
      proc := some ⟨.dump key sector later got, .auth .A sector key, cfg.dumpBlocks.map (.read sector), []⟩,
      session := .selected (cardTypeOf cfg d1) serial, card := some ⟨cardTypeOf cfg d1, serial⟩,
      lastXfer := some (.ok c3 0x00 d3) }) rfl c4 d4 hlen.le
  rw [hlen, List.drop_length, List.map_nil, HostAgent.proceed_nil, HostAgent.complete_dump hgoal, hdata,
    List.nil_append] at hrun
  have hall := (HostAgent.afterResults_append cfg h [.ok c1 0x00 d1, .ok c2 0x00 d2, .ok c3 0x00 d3]
    (.ok c4 0x00 d4 :: readResults datas)).trans ((congrArg (HostAgent.afterResults cfg · _) hsel).trans hrun)
  refine ⟨?_, ?_⟩
  · rintro rfl
    refine hall.trans ?_
    simp [HostAgent.nextSector_nil, readResults]
  · rintro next more rfl
    refine hall.trans ?_
    simp [HostAgent.nextSector_cons, readResults]

/-! ### findKeys -/

/-- HOST in a procedure is HOST after it went on with the XFERs it has left. -/
theorem HostAgent.proceed_of_proc {cfg : Config} {h : HostAgent} {goal : Goal} {act : Act} {rest : List Act}
    {data : List Byte} (hp : h.proc = some ⟨goal, act, rest, data⟩) (st : Byte) (d : List Byte) :
    h.proceed cfg ⟨goal, act, rest, data⟩ (act :: rest) st d = h := by
  obtain ⟨agenda, proc, session, card, lastXfer, outcome, reports⟩ := h
  cases hp
  rfl

/-- HOST after these tries with a slot, of which these have failed. -/
def HostAgent.afterTries (h : HostAgent) (sl : KeySlot) (tries failed : List Try) : HostAgent :=
  { h with lastXfer := ((tries.map Try.result).getLast?).or h.lastXfer,
           reports := h.reports ++ failed.map fun t => (sl, t.key) }

/-- Tries that fail one behind the other: each is reported, the procedure goes on behind them (R230, log 31). -/
theorem HostAgent.afterResults_failed (cfg : Config) (sl : KeySlot) (sector : Nat) (more : List Act)
    (failed : List Try) : (∀ t ∈ failed, t.status ≠ 0x00) → ∀ (h : HostAgent) (p : Proc) (st : Byte) (d : List Byte),
      ∃ (q : Proc) (st' : Byte) (d' : List Byte), q.goal = p.goal ∧
        (h.proceed cfg p ((failed.map Try.key).map (.probe sl sector) ++ more) st d).afterResults cfg
            (failed.map Try.result) = (h.afterTries sl failed failed).proceed cfg q more st' d' := by
  induction failed with
  | nil =>
    intro _ h p st d
    exact ⟨p, st, d, rfl, by simp [HostAgent.afterTries, HostAgent.afterResults_nil]⟩
  | cons t failed ih =>
    intro hst h p st d
    rw [List.forall_mem_cons] at hst
    obtain ⟨q, st', d', hgoal, hrun⟩ := ih hst.2
      { h with proc := some ⟨p.goal, .probe sl sector t.key, (failed.map Try.key).map (.probe sl sector) ++ more, p.data⟩,
               lastXfer := some t.result, reports := h.reports ++ [(sl, t.key)] }
      ⟨p.goal, .probe sl sector t.key, (failed.map Try.key).map (.probe sl sector) ++ more, p.data⟩ t.status t.data
    refine ⟨q, st', d', hgoal, ?_⟩
    rw [List.map_cons, List.map_cons, List.map_cons, List.cons_append, HostAgent.proceed_cons,
      HostAgent.afterResults_cons, Try.result, HostAgent.afterResult_probe_failed rfl hst.1]
    refine hrun.trans (HostAgent.proceed_congr ?_)
    simp only [HostAgent.afterTries, List.map_cons, ← getLast?_cons_or _ _ h.lastXfer, List.append_assoc,
      List.singleton_append]

/-- The tries of a slot that are left are dropped with the key found, those of the other slot are kept. -/
theorem filter_probes (sl : KeySlot) (sector : Nat) (keys : List (List Byte)) {more : List Act}
    (hmore : ∀ a ∈ more, a.probes sl = false) :
    (keys.map (Act.probe sl sector) ++ more).filter (fun a => !a.probes sl) = more := by
  have hkeys : (keys.map (Act.probe sl sector)).filter (fun a => !a.probes sl) = [] := by simp [Act.probes]
  have hrest : more.filter (fun a => !a.probes sl) = more := List.filter_eq_self.2 fun a ha => by simp [hmore a ha]
  rw [List.filter_append, hkeys, hrest, List.nil_append]

theorem TriesOf.ne_nil {candidates : List (List Byte)} {failed : List Try} {found : Option Try}
    (ht : TriesOf candidates failed found) (hc : candidates ≠ []) : failed ++ found.toList ≠ [] := by
  obtain ⟨-, -, -, hall⟩ := ht
  cases found with
  | none => simpa [← hall rfl] using hc
  | some t => simp

/-- All tries with one slot: the candidates up to the first that is valid, or all of them (R230). -/
theorem HostAgent.afterResults_slot (cfg : Config) (sl : KeySlot) (sector : Nat) {candidates : List (List Byte)}
    {failed : List Try} {found : Option Try} (ht : TriesOf candidates failed found) {more : List Act}
    (hmore : ∀ a ∈ more, a.probes sl = false) (h : HostAgent) (p : Proc) (st : Byte) (d : List Byte) :
    ∃ (q : Proc) (st' : Byte) (d' : List Byte),
      q.goal = (found.map Try.key).elim p.goal (p.goal.found sl) ∧
      (h.proceed cfg p (candidates.map (.probe sl sector) ++ more) st d).afterResults cfg
          ((failed ++ found.toList).map Try.result) =
        (h.afterTries sl (failed ++ found.toList) failed).proceed cfg q more st' d' := by
  obtain ⟨hfailed, hfound, ⟨left, hleft⟩, hall⟩ := ht
  cases found with
  | none =>
    rw [← hall rfl, Option.toList_none, List.append_nil]
    exact HostAgent.afterResults_failed cfg sl sector more failed hfailed h p st d
  | some t =>
    obtain ⟨q, st', d', hgoal, hrun⟩ := HostAgent.afterResults_failed cfg sl sector
      (.probe sl sector t.key :: (left.map (.probe sl sector) ++ more)) failed hfailed h p st d
    refine ⟨⟨q.goal.found sl t.key, .probe sl sector t.key, left.map (.probe sl sector) ++ more, q.data⟩, 0x00, t.data,
      by rw [hgoal]; rfl, ?_⟩
    have hacts : candidates.map (Act.probe sl sector) ++ more =
        (failed.map Try.key).map (.probe sl sector) ++ .probe sl sector t.key :: (left.map (.probe sl sector) ++ more) := by
      simp [← hleft]
    rw [hacts, List.map_append, HostAgent.afterResults_append, hrun, HostAgent.proceed_cons]
    rw [Option.toList_some, List.map_singleton, HostAgent.afterResults_cons, HostAgent.afterResults_nil, Try.result,
      hfound t rfl, HostAgent.afterResult_probe_found rfl, filter_probes sl sector left hmore]
    refine HostAgent.proceed_congr ?_
    simp [HostAgent.afterTries, Try.result, hfound t rfl]

/-- Settles O51: the tries with Key A, those with Key B, then the goal holds what each slot has given. -/
theorem findKeysRun : Obligations.FindKeysRun := by
  refine ⟨?_, fun cfg h c1 c2 c3 d1 d2 d3 serial hp hs => HostAgent.afterResults_select hp c1 c2 c3 hs⟩
  rintro cfg h sector candidates failedA failedB foundA foundB tries first acts hA hB rfl hacts hp
  obtain ⟨qA, stA, dA, hgoalA, hrunA⟩ := HostAgent.afterResults_slot cfg .A sector hA
    (more := candidates.map (.probe .B sector)) (by simp [Act.probes]) h ⟨.findKeys none none, first, acts, []⟩ 0 []
  obtain ⟨qB, stB, dB, hgoalB, hrunB⟩ := HostAgent.afterResults_slot cfg .B sector hB (more := []) (by simp)
    (h.afterTries .A (failedA ++ foundA.toList) failedA) qA stA dA
  have hgoal : qB.goal = .findKeys (foundA.map Try.key) (foundB.map Try.key) := by
    rw [hgoalB, hgoalA]
    cases foundA <;> cases foundB <;> rfl
  rw [← hacts, HostAgent.proceed_of_proc hp] at hrunA
  rw [List.append_nil] at hrunB
  rw [List.append_assoc _ failedB, List.map_append, HostAgent.afterResults_append, hrunA, hrunB, HostAgent.proceed_nil,
    HostAgent.complete, hgoal]
  have hlast : (((failedA ++ foundA.toList).map Try.result).getLast?).or h.lastXfer =
      ((failedA ++ foundA.toList).map Try.result).getLast? := by
    refine Option.or_of_isSome ?_
    rw [List.getLast?_isSome, ne_eq, List.map_eq_nil_iff]
    refine hA.ne_nil ?_
    rintro rfl
    cases hacts
  simp only [HostAgent.finish, HostAgent.afterTries, hlast, List.getLast?_append]

end Sys2Proof.Machine
end

section
/-! SUPPORT. Decoding and fetching: words written out, and the step in which HOST presents an item of its agenda. -/

namespace Sys2Proof.Machine

/-- Settles O52: each word evaluates. -/
theorem wordsDecode : Obligations.WordsDecode :=
  ⟨fun _ => ⟨rfl, rfl, rfl, rfl, rfl, rfl⟩, by decide, by decide, by decide⟩

/-! ### HOST presents an item -/

/-- With CH idle and no procedure in progress the event in which HOST presents runs the next item of its agenda. -/
theorem step_presents_item {s : State} {item : Item} {rest : List Item} (hr : s.env.current.rst = false)
    (hp : s.env.current.present = true) (hc : s.fcc.chPhase = .idle) (hproc : s.host.proc = none)
    (ha : s.host.agenda = item :: rest) : step s = runItem item
      { s.lineEvent s.env.current with host := { (s.lineEvent s.env.current).host with agenda := rest } } := by
  rw [step_phase hr, phaseEvent_idle (by exact hc), if_pos hp, hostEvent, State.lineEvent_host, hproc, ha]

theorem runInstr_inRange {i : Instr} {s : State} (h : inRange i = true) : runInstr i s = exec i s := if_pos h

theorem runInstr_outOfRange {i : Instr} {s : State} (h : inRange i = false) : runInstr i s = .refused .outOfRange := by
  rw [runInstr, h]
  rfl

/-- An item that is an instruction, or words that decode to it, runs the instruction. -/
theorem runItem_instr {item : Item} {i : Instr} {s : State}
    (h : item = .op i ∨ ∃ port words, item = .words port words ∧ decode s.cfg port words = .ok i) :
    runItem item s = runInstr i s := by
  rcases h with rfl | ⟨port, words, rfl, hd⟩
  · rfl
  · rw [runItem, hd]

/-- Words of the RX stream that decode to nothing arrive at LINE (R55, R97). -/
theorem runItem_arrives {words : List Byte} {e : DecodeError} {s : State} (h : decode s.cfg .rx words = .error e) :
    runItem (.words .rx words) s = .next (s.bytesArrive words) := by
  rw [runItem, h]

theorem runItem_undecodable {port : Port} {words : List Byte} {e : DecodeError} {s : State}
    (h : decode s.cfg port words = .error e) (hport : port ≠ .rx) :
    runItem (.words port words) s = .refused (.undecodable e) := by
  rw [runItem, h]
  cases port
  case rx => exact absurd rfl hport
  all_goals rfl

/-- In the event in which only HOST presents, LINE stays as it is. -/
theorem lineEvent_presenting (s : State) : s.lineEvent Input.presenting = { s with env := s.env.advance } := by
  unfold State.lineEvent
  congr 1
  simp [Input.presenting, Line.leave, Line.arrive]
  cases s.cfg.lineDepth <;> simp

/-- The step from a placed item runs it, FCC idle and no procedure in progress. -/
theorem step_placeItem (item : Item) (s : State) : step (placeItem item s) = runItem item { s with
    fcc := { s.fcc with chPhase := .idle, txPhase := .idle, rxPhase := .idle },
    host := { s.host with proc := none } } := by
  rw [step_presents_item (s := placeItem item s) rfl rfl rfl rfl rfl]
  change runItem item { (placeItem item s).lineEvent Input.presenting with host := _ } = _
  rw [lineEvent_presenting]
  rfl

/-- Settles O54: the ranges are those `inRange` checks, and a placed item is one HOST presents. -/
theorem stepRunsTheInstruction : Obligations.StepRunsTheInstruction := by
  refine ⟨?_, fun i hi => inRange_of_wf hi, ?_, fun s nbits w i hi hd => ?_⟩
  · rintro s u v item rest rfl hr hp hc hproc ha rfl
    rw [step_presents_item hr hp hc hproc ha]
    refine ⟨fun i hitem => ?_, fun port words e hitem hd => ?_⟩
    · rw [runItem_instr (i := i) (by exact hitem)]
      exact ⟨runInstr_inRange, runInstr_outOfRange⟩
    · subst hitem
      refine ⟨?_, ?_, runItem_undecodable (by exact hd)⟩
      · rintro rfl hdepth
        rw [runItem_arrives (by exact hd), bytesArrive_unbounded (by exact hdepth)]
      · rintro depth rfl hdepth
        rw [runItem_arrives (by exact hd), bytesArrive_depth (by exact hdepth)]
  · intro sector block slot key data noise logical amount blocks candidates
    simp [inRange, sectorOk, blockOk, keyOk, and_assoc]
  · rw [State.withFetchWord, step_placeItem, runItem_instr (.inr ⟨_, _, rfl, by exact hd⟩), runInstr_inRange hi]

end Sys2Proof.Machine
end
